-- ==== Sys2Proof/Word.lean ====
section
/-! DEFINITION. The word and byte types of the block's ports, and the two small sets of names its registers hold. -/

namespace Sys2Proof

/-- A 32-bit port value: CMD, OPA, OPN, RVAL (spec/00_scope.md R6), and a cell's value extended with zeros to 32 bits. -/
abbrev Word := BitVec 32

/-- Eight bits of the buffer's byte stream (spec/20_memory.md R56). -/
abbrev Byte := BitVec 8

/-- The role fixed at BIND: `Reader(buffer)` or `Writer(buffer)` (spec/10_state.md R25). -/
inductive Mode where
  | reader
  | writer
  deriving DecidableEq, Repr

/-- The three cell widths (spec/10_state.md R26); the code 3 is reserved and never held, so it has no constructor. -/
inductive Width where
  | w8
  | w16
  | w32
  deriving DecidableEq, Repr

end Sys2Proof
end

