-- ==== Sys2Proof/Config.lean ====
section
/-! DEFINITION. The parameters the spec fixes for every instance of the block (spec/00_scope.md R6 and R7). -/

namespace Sys2Proof

/-- `VALUE_WIDTH`: the width of every folded result and of the value operand, decided as 32
(spec/00_scope.md R6 and R7, decision D8; log entry 7). -/
def Config.valueWidth : Nat := 32

/-- The largest number of bits a bound buffer may hold, `2^32 - 1` (spec/10_state.md R27, decision D7). -/
abbrev Config.maxBits : Nat := 4294967295

end Sys2Proof
end

