-- ==== Sys2Proof/Syntax.lean ====
section
/-! DEFINITION. The commands of BCE-1, one constructor per row of spec/opcode_table.json, each with the operands
spec/30_encoding.md R88 gives it. -/

namespace Sys2Proof

/-- A command with its operands. A count is the signed integer `n = sint32(OPN)` (R86), so that a negative one can be
presented and refused; `LEN`, `value` and `b` are the unsigned 32-bit OPA (R85). -/
inductive Instr where
  /-- Construct a reader or a writer over the designated buffer (R114). -/
  | bind (mode : Mode) (wc : Width) (len : Word)
  /-- Bytes per cell (R115). -/
  | qbpe
  /-- Bits per cell (R116). -/
  | qbitpe
  /-- Bits not yet consumed (R117). -/
  | qrem
  /-- Byte alignment (R118). -/
  | qaln
  /-- Whole bytes consumed (R119). -/
  | qbidx
  /-- Read one bit (R141). -/
  | rdbit
  /-- Read `n` bits as one integer, atomically (R142). -/
  | rdbits (n : Int)
  /-- Read `n` bits as a sequence, tolerating exhaustion (R143). -/
  | rdbitss (n : Int)
  /-- Pack a given bit sequence into an integer (R148). -/
  | collect (bits : List Bool)
  /-- Read one byte (R145). -/
  | rdbyte
  /-- Read `n` bytes as a sequence, tolerating exhaustion (R146). -/
  | rdbytes (n : Int)
  /-- Read every remaining bit as one integer (R147). -/
  | rdall
  /-- One step of the iteration protocol (R153). -/
  | next
  /-- Write one bit (R181). -/
  | wrbit (bit : Bool)
  /-- Write a bit sequence, truncated to fit (R182). -/
  | wrbits (bits : List Bool)
  /-- Write the low `n` bits of a value (R183). -/
  | wrbitsv (value : Word) (n : Int)
  /-- Write one byte (R185). -/
  | wrbyte (b : Word)
  /-- Write a byte sequence, truncated to fit (R186). -/
  | wrbytes (bytes : List Byte)
  /-- Write the low `n` bytes of a value (R187). -/
  | wrbytesv (value : Word) (n : Int)
  deriving DecidableEq, Repr

end Sys2Proof
end

