-- ==== Sys2Proof/WellFormed.lean ====
section
/-! DEFINITION. Which terms of `Instr` a command transaction can spell: a count must be one that the 32-bit OPN carries. -/

namespace Sys2Proof

/-- `n` lies in `[-2^31, 2^31 - 1]`, the range of a two's-complement OPN (spec/30_encoding.md R86). -/
def countFits (n : Int) : Bool := decide (-2147483648 ≤ n) && decide (n ≤ 2147483647)

/-- The command can be spelled as a transaction. Only a count can fall outside its port: every other operand has the
port's own type. -/
def Instr.wellFormed : Instr → Bool
  | .bind _ _ _ => true
  | .qbpe => true
  | .qbitpe => true
  | .qrem => true
  | .qaln => true
  | .qbidx => true
  | .rdbit => true
  | .rdbits n => countFits n
  | .rdbitss n => countFits n
  | .collect _ => true
  | .rdbyte => true
  | .rdbytes n => countFits n
  | .rdall => true
  | .next => true
  | .wrbit _ => true
  | .wrbits _ => true
  | .wrbitsv _ n => countFits n
  | .wrbyte _ => true
  | .wrbytes _ => true
  | .wrbytesv _ n => countFits n

end Sys2Proof
end

