-- ==== Sys2Proof/Decode.lean ====
section
/-! DEFINITION. The command transaction, the opcode map, the decoder (total on every transaction, refusing by name) and
the encoder, from spec/30_encoding.md. The part of R90 that looks at BOUND and MODE is a command's own first check
(Machine/Ops.lean); what is here looks at the transaction alone. -/

namespace Sys2Proof

/-- A command transaction (R80): CMD, OPA, OPN and SEQ. A SEQ element travels on an 8-bit lane; where a command's
elements are 1 bit wide (R87) the element is bit 0 of its lane.
DESIGN CHOICE (log entry 9): safe, since a transaction the spec can spell has no other lane bits. -/
structure Transaction where
  cmd : Word
  opa : Word
  opn : Word
  seq : List Byte
  deriving DecidableEq, Repr

/-- The command word formats (R82, R83, R84). -/
inductive Format where
  | n
  | b
  | w
  deriving DecidableEq, Repr

/-- The classes of R89, which decide the MODE a command may run in. -/
inductive CommandClass where
  | bind
  | query
  | reader
  | writer
  deriving DecidableEq, Repr

/-- The twenty opcodes of the map R89. -/
inductive Opcode where
  | bind | qbpe | qbitpe | qrem | qaln | qbidx
  | rdbit | rdbits | rdbitss | collect | rdbyte | rdbytes | rdall | next
  | wrbit | wrbits | wrbitsv | wrbyte | wrbytes | wrbytesv
  deriving DecidableEq, Repr

/-- Why a transaction spells no command (R91); each ends with ILLEGAL_COMMAND. -/
inductive Reject where
  /-- CMD[31:24] is a reserved OPC value. -/
  | reservedOpcode
  /-- A reserved bit of the format is not 0. -/
  | reservedField
  /-- BIND with WC = 3. -/
  | reservedWidth
  deriving DecidableEq, Repr

/-- The OPC column of R89. -/
def Opcode.code : Opcode → BitVec 8
  | .bind => 0x01
  | .qbpe => 0x02
  | .qbitpe => 0x03
  | .qrem => 0x04
  | .qaln => 0x05
  | .qbidx => 0x06
  | .rdbit => 0x10
  | .rdbits => 0x11
  | .rdbitss => 0x12
  | .collect => 0x13
  | .rdbyte => 0x14
  | .rdbytes => 0x15
  | .rdall => 0x16
  | .next => 0x17
  | .wrbit => 0x20
  | .wrbits => 0x21
  | .wrbitsv => 0x22
  | .wrbyte => 0x23
  | .wrbytes => 0x24
  | .wrbytesv => 0x25

/-- The format column of R89. -/
def Opcode.format : Opcode → Format
  | .bind => .b
  | .wrbit => .w
  | .qbpe | .qbitpe | .qrem | .qaln | .qbidx => .n
  | .rdbit | .rdbits | .rdbitss | .collect | .rdbyte | .rdbytes | .rdall | .next => .n
  | .wrbits | .wrbitsv | .wrbyte | .wrbytes | .wrbytesv => .n

/-- The class column of R89. -/
def Opcode.cls : Opcode → CommandClass
  | .bind => .bind
  | .qbpe | .qbitpe | .qrem | .qaln | .qbidx => .query
  | .rdbit | .rdbits | .rdbitss | .collect | .rdbyte | .rdbytes | .rdall | .next => .reader
  | .wrbit | .wrbits | .wrbitsv | .wrbyte | .wrbytes | .wrbytesv => .writer

/-- Every row of the opcode map, in its order. -/
def Opcode.all : List Opcode :=
  [.bind, .qbpe, .qbitpe, .qrem, .qaln, .qbidx,
   .rdbit, .rdbits, .rdbitss, .collect, .rdbyte, .rdbytes, .rdall, .next,
   .wrbit, .wrbits, .wrbitsv, .wrbyte, .wrbytes, .wrbytesv]

/-- The row of the map with the given OPC value, if it is not reserved. -/
def Opcode.ofCode (c : BitVec 8) : Option Opcode := Opcode.all.find? fun o => o.code == c

/-- OPC = CMD[31:24] (R81). -/
def opcField (cmd : Word) : BitVec 8 := cmd.extractLsb' 24 8

/-- The bits of CMD that are reserved in a format and must be 0 (R82, R83, R84). -/
def Format.reservedMask : Format → Word
  | .n => 0x00FFFFFF
  | .b => 0x00FFFFF8
  | .w => 0x00FFFFFE

/-- CMD[2] of format B (R83). -/
def Mode.ofBit (b : Bool) : Mode := if b then .writer else .reader

/-- The MODE field of format B (R83). -/
def Mode.bit : Mode → Bool
  | .reader => false
  | .writer => true

/-- CMD[1:0] of format B; 3 is reserved (R83). -/
def Width.ofCode (c : BitVec 2) : Option Width :=
  if c = 0 then some .w8 else if c = 1 then some .w16 else if c = 2 then some .w32 else none

/-- The WC field of format B (R26, R83). -/
def Width.code : Width → BitVec 2
  | .w8 => 0
  | .w16 => 1
  | .w32 => 2

/-- `n = sint32(OPN)`, two's complement (R86). -/
def sint32 (x : Word) : Int := x.toInt

/-- The OPN that carries a count (R86). -/
def countWord (n : Int) : Word := BitVec.ofInt 32 n

/-- The 1-bit element of a lane (R87). -/
def laneBit (x : Byte) : Bool := x.getLsbD 0

/-- The lane that carries a 1-bit element (R87). -/
def bitLane (b : Bool) : Byte := if b then 1 else 0

/-- The command of an opcode whose reserved bits are 0, its operands pulled out as R100 says and every operand it does
not use left out (R94). -/
def assemble (op : Opcode) (t : Transaction) : Except Reject Instr :=
  match op with
  | .bind =>
    match Width.ofCode (t.cmd.extractLsb' 0 2) with
    | some w => .ok (.bind (Mode.ofBit (t.cmd.getLsbD 2)) w t.opa)
    | none => .error .reservedWidth
  | .qbpe => .ok .qbpe
  | .qbitpe => .ok .qbitpe
  | .qrem => .ok .qrem
  | .qaln => .ok .qaln
  | .qbidx => .ok .qbidx
  | .rdbit => .ok .rdbit
  | .rdbits => .ok (.rdbits (sint32 t.opn))
  | .rdbitss => .ok (.rdbitss (sint32 t.opn))
  | .collect => .ok (.collect (t.seq.map laneBit))
  | .rdbyte => .ok .rdbyte
  | .rdbytes => .ok (.rdbytes (sint32 t.opn))
  | .rdall => .ok .rdall
  | .next => .ok .next
  | .wrbit => .ok (.wrbit (t.cmd.getLsbD 0))
  | .wrbits => .ok (.wrbits (t.seq.map laneBit))
  | .wrbitsv => .ok (.wrbitsv t.opa (sint32 t.opn))
  | .wrbyte => .ok (.wrbyte t.opa)
  | .wrbytes => .ok (.wrbytes t.seq)
  | .wrbytesv => .ok (.wrbytesv t.opa (sint32 t.opn))

/-- R90, the part that looks at the command word alone. -/
def decode (t : Transaction) : Except Reject Instr :=
  match Opcode.ofCode (opcField t.cmd) with
  | none => .error .reservedOpcode
  | some op => if t.cmd &&& op.format.reservedMask = 0 then assemble op t else .error .reservedField

/-- The opcode of a command. -/
def Instr.opcode : Instr → Opcode
  | .bind _ _ _ => .bind
  | .qbpe => .qbpe
  | .qbitpe => .qbitpe
  | .qrem => .qrem
  | .qaln => .qaln
  | .qbidx => .qbidx
  | .rdbit => .rdbit
  | .rdbits _ => .rdbits
  | .rdbitss _ => .rdbitss
  | .collect _ => .collect
  | .rdbyte => .rdbyte
  | .rdbytes _ => .rdbytes
  | .rdall => .rdall
  | .next => .next
  | .wrbit _ => .wrbit
  | .wrbits _ => .wrbits
  | .wrbitsv _ _ => .wrbitsv
  | .wrbyte _ => .wrbyte
  | .wrbytes _ => .wrbytes
  | .wrbytesv _ _ => .wrbytesv

/-- The FN field CMD[7:0]: the fields of format B for BIND, of format W for WRBIT, 0 otherwise (R81 to R84). -/
def Instr.fnField : Instr → BitVec 8
  | .bind mode wc _ => (0 : BitVec 5) ++ BitVec.ofBool mode.bit ++ wc.code
  | .wrbit bit => (0 : BitVec 7) ++ BitVec.ofBool bit
  | .qbpe | .qbitpe | .qrem | .qaln | .qbidx => 0
  | .rdbit | .rdbits _ | .rdbitss _ | .collect _ | .rdbyte | .rdbytes _ | .rdall | .next => 0
  | .wrbits _ | .wrbitsv _ _ | .wrbyte _ | .wrbytes _ | .wrbytesv _ _ => 0

/-- OPA of a command's transaction: 0 where the command does not use it (R98). -/
def Instr.opaOperand : Instr → Word
  | .bind _ _ len => len
  | .wrbitsv value _ => value
  | .wrbyte b => b
  | .wrbytesv value _ => value
  | .qbpe | .qbitpe | .qrem | .qaln | .qbidx => 0
  | .rdbit | .rdbits _ | .rdbitss _ | .collect _ | .rdbyte | .rdbytes _ | .rdall | .next => 0
  | .wrbit _ | .wrbits _ | .wrbytes _ => 0

/-- OPN of a command's transaction: 0 where the command does not use it (R98). -/
def Instr.opnOperand : Instr → Word
  | .rdbits n | .rdbitss n | .rdbytes n => countWord n
  | .wrbitsv _ n | .wrbytesv _ n => countWord n
  | .bind _ _ _ | .qbpe | .qbitpe | .qrem | .qaln | .qbidx => 0
  | .rdbit | .collect _ | .rdbyte | .rdall | .next => 0
  | .wrbit _ | .wrbits _ | .wrbyte _ | .wrbytes _ => 0

/-- SEQ of a command's transaction: empty where the command does not use it (R98). -/
def Instr.seqOperand : Instr → List Byte
  | .collect bits | .wrbits bits => bits.map bitLane
  | .wrbytes bytes => bytes
  | .bind _ _ _ | .qbpe | .qbitpe | .qrem | .qaln | .qbidx => []
  | .rdbit | .rdbits _ | .rdbitss _ | .rdbyte | .rdbytes _ | .rdall | .next => []
  | .wrbit _ | .wrbitsv _ _ | .wrbyte _ | .wrbytesv _ _ => []

/-- CMD: OPC in bits 31 to 24, reserved zeros in bits 23 to 8, FN in bits 7 to 0 (R81). -/
def Instr.commandWord (i : Instr) : Word := i.opcode.code ++ (0 : BitVec 16) ++ i.fnField

/-- The transaction that spells a command (R81 to R87, R98). -/
def encode (i : Instr) : Transaction :=
  { cmd := i.commandWord, opa := i.opaOperand, opn := i.opnOperand, seq := i.seqOperand }

/-- The transaction whose words are the bits of `w`, CMD first, then OPA, then OPN; bits at or above `nbits` are 0 and
SEQ is empty. -/
def transactionOfBits (nbits w : Nat) : Transaction :=
  let v := w % 2 ^ nbits
  { cmd := BitVec.ofNat 32 v, opa := BitVec.ofNat 32 (v >>> 32), opn := BitVec.ofNat 32 (v >>> 64), seq := [] }

/-- What the decoder reads from a row of spec/opcode_table.json, its word's bits numbered as the table numbers them. -/
def decodeTableWord (nbits w : Nat) : Option Instr := (decode (transactionOfBits nbits w)).toOption

end Sys2Proof
end

