-- ==== Sys2Proof/Machine/State.lean ====
section
/-! DEFINITION. The state of the machine as plain data: the block's registers (spec/10_state.md R23), the host's
buffers (R32), the host's actions not yet taken and the responses returned (spec/30_encoding.md R80, R95), and the
state after power-on reset (R42). -/

namespace Sys2Proof.Machine

/-- The STATUS codes that are ever produced (spec/60_exceptions.md R220). -/
inductive Status where
  | ok
  | endOfData
  | invalidArgument
  | misalignedAccess
  | insufficientData
  | illegalCommand
  deriving DecidableEq, Repr

/-- One element of RSEQ as it stands on the response port (spec/30_encoding.md R96): 2 bits in a response to RDBITSS,
9 bits in a response to RDBYTES. -/
inductive SeqElement where
  | two (e : BitVec 2)
  | nine (e : BitVec 9)
  deriving DecidableEq, Repr

/-- A response transaction (spec/30_encoding.md R95). -/
structure Response where
  status : Status
  rval : Word
  rseq : List SeqElement
  deriving DecidableEq, Repr

/-- A buffer of the host's: its number and its shape, `len` cells of width `wc` (spec/20_memory.md R52,
spec/70_reset_and_hazards.md R257). DESIGN CHOICE (log entry 1): the shape is part of the name, so a buffer of another
shape than the one BIND states cannot be designated (H4, R263), and a re-bind with another width reaches another
buffer (H6, R253). -/
structure BufferId where
  num : Nat
  wc : Width
  len : Word
  deriving DecidableEq, Repr

/-- What the host can do between two commands (spec/70_reset_and_hazards.md R255). -/
inductive HostAction where
  /-- Present a command transaction (spec/30_encoding.md R80). -/
  | command (t : Transaction)
  /-- Designate the buffer of the given number for the next BIND (spec/20_memory.md R52). -/
  | designate (num : Nat)
  /-- Write the value `v` to cell `i` of a buffer (spec/70_reset_and_hazards.md R258). -/
  | hostWrite (b : BufferId) (i : Nat) (v : Word)
  /-- Apply power-on reset (spec/70_reset_and_hazards.md R250). -/
  | reset
  deriving DecidableEq, Repr

/-- The bytes of the host's buffers, as (address, byte) pairs with addresses strictly rising and no entry equal to what
an unlisted address reads as. The address of a byte of a buffer is `BufferId.byteAddr` (log entry 1). -/
abbrev Memory := List Host.Cell

/-- What an address that is not listed reads as: DESIGN CHOICE 0 (log entry 2). The spec leaves a buffer's contents to
the host (spec/10_state.md R32, R42), which can write any cell before a command runs; unsafe for a claim about contents
the host has not written. -/
def Memory.unlisted : Byte := 0

/-- Everything the spec gives the machine: the block's seven registers (spec/10_state.md R23, no others: R20, R21, R40,
R41), the adapter's reference, the host's buffers, and the host's side of the two ports (log entries 4, 5, 6). -/
structure State where
  /-- BOUND: a reader or writer has been constructed (R24). -/
  bound : Bool
  /-- MODE: which of the two (R25). -/
  mode : Mode
  /-- WC: the cell width (R26). -/
  wc : Width
  /-- LEN: the buffer's length in cells (R27). -/
  len : Word
  /-- CIDX: the index of the current cell (R28). -/
  cidx : Word
  /-- BOFF: the 1-based offset of the next bit from the most significant (R29). -/
  boff : BitVec 6
  /-- ITER: bits delivered by NEXT since the last BIND (R31). -/
  iter : Word
  /-- The adapter's reference to the bound buffer (R27, spec/20_memory.md R52). -/
  buf : Nat
  /-- The contents of the host's buffers (R32). -/
  mem : Memory
  /-- The number of the buffer the host designates at the next BIND (spec/20_memory.md R52): the host's side of the
  port. -/
  designated : Nat
  /-- The host's actions not yet taken, oldest first (spec/70_reset_and_hazards.md R255). -/
  pending : List HostAction
  /-- The responses returned, oldest first (spec/70_reset_and_hazards.md R262). No command reads them (R22). -/
  responses : List Response
  deriving DecidableEq, Repr

/-- The machine right after power-on reset (R42, spec/70_reset_and_hazards.md R250): BOUND is 0. The spec leaves every
other register unspecified and unobservable; DESIGN CHOICE (log entry 3): READER, 8-bit cells, zeros, and the least
legal BOFF. No host action waits and no response has been returned. -/
def State.reset : State where
  bound := false
  mode := .reader
  wc := .w8
  len := 0
  cidx := 0
  boff := 1
  iter := 0
  buf := 0
  mem := []
  designated := 0
  pending := []
  responses := []

/-- The machine stops with a fault. No command raises one (spec/60_exceptions.md R238, spec/20_memory.md R62). -/
inductive Fault where
  /-- Raised by a host write to a cell the buffer does not have: an address outside the address space
  (spec/20_memory.md R54, spec/70_reset_and_hazards.md R258 asks for `0 <= i < LEN`; log entry 12). Safe: the machine
  stops. -/
  | noSuchCell
  deriving DecidableEq, Repr

/-- The machine has no meaning for what the host asks. -/
inductive Refusal where
  /-- Raised by `exec` for an instruction that has no meaning yet: none. Safe: the machine stops. -/
  | notModelled (mnemonic : String)
  /-- Raised by a host write of a value wider than a cell (spec/70_reset_and_hazards.md R258 asks for a W-bit value;
  log entry 12). Safe: the machine stops. -/
  | notACellValue
  deriving DecidableEq, Repr

end Sys2Proof.Machine
end

