-- ==== Sys2Proof/Machine/Operands.lean ====
section
/-! DEFINITION. The operand forms: what the width code stands for, which bits and bytes a value operand gives (R7, R183,
R187), how a folded result is made (R149), and how an element stands in RSEQ (R96). -/

namespace Sys2Proof

/-- `W = 8 << WC` (spec/10_state.md R23, R26). -/
def Width.bits : Width → Nat
  | .w8 => 8
  | .w16 => 16
  | .w32 => 32

/-- `B = W / 8` (spec/10_state.md R26). -/
def Width.bytes : Width → Nat
  | .w8 => 1
  | .w16 => 2
  | .w32 => 4

namespace Machine

/-- Bit `i` of a value operand; positions at or above `VALUE_WIDTH` read as 0 (spec/00_scope.md R7,
spec/42_writer.md R183). -/
def valueBit (value : Word) (i : Nat) : Bool := decide (i < Config.valueWidth) && value.getLsbD i

/-- Byte `j` of a value operand, bits `8j+7` down to `8j`; positions at or above `VALUE_WIDTH / 8` read as 0
(spec/42_writer.md R187). -/
def valueByte (value : Word) (j : Nat) : Byte :=
  if j < Config.valueWidth / 8 then value.extractLsb' (8 * j) 8 else 0

/-- The bits `n-1` down to 0 of a value operand, in the order they are written (spec/42_writer.md R183). -/
def valueBits (value : Word) : Nat → List Bool
  | 0 => []
  | i + 1 => valueBit value i :: valueBits value i

/-- The bytes `n-1` down to 0 of a value operand, in the order they are written (spec/42_writer.md R187). -/
def valueBytes (value : Word) : Nat → List Byte
  | 0 => []
  | j + 1 => valueByte value j :: valueBytes value j

/-- `Fold(s)` at a given VALUE_WIDTH: bits packed most significant first, reduced at every shift
(spec/41_reader.md R149). -/
def foldAt (width : Nat) (bits : List Bool) : Nat :=
  bits.foldl (fun r b => ((r <<< 1) ||| b.toNat) % 2 ^ width) 0

/-- `Fold(s)` as RVAL carries it (spec/41_reader.md R149). -/
def fold (bits : List Bool) : Word := BitVec.ofNat 32 (foldAt Config.valueWidth bits)

/-- An element of the response to RDBITSS: a bit, or END for none (spec/30_encoding.md R96). -/
def bitElement : Option Bool → SeqElement
  | some false => .two 0b00
  | some true => .two 0b01
  | none => .two 0b10

/-- An element of the response to RDBYTES: a byte, or END for none (spec/30_encoding.md R96). -/
def byteElement : Option Byte → SeqElement
  | some b => .nine ((0 : BitVec 1) ++ b)
  | none => .nine 0b100000000

/-- A bit as RVAL carries it (spec/30_encoding.md R97). -/
def bitWord (b : Bool) : Word := if b then 1 else 0

end Machine

end Sys2Proof
end

