-- ==== Sys2Proof/Machine/Flags.lean ====
section
/-! DEFINITION. The block has no flags that persist (spec/10_state.md R22). What its commands test and report is here: the
derived quantities (R33 to R36), the STATUS codes (spec/60_exceptions.md R220), and which class of command the block
admits in its present state (spec/30_encoding.md R90). -/

namespace Sys2Proof.Machine

/-- R33, in exact integer arithmetic (spec/00_scope.md R9). -/
def State.remaining (s : State) : Int :=
  (s.len.toNat : Int) * s.wc.bits - (s.cidx.toNat : Int) * s.wc.bits - s.boff.toNat + 1

/-- R34, in exact integer arithmetic; `/` is floor division (spec/00_scope.md R9). -/
def State.byteIndex (s : State) : Int :=
  (s.cidx.toNat : Int) * s.wc.bytes + ((s.boff.toNat : Int) - 1) / 8

/-- R35. -/
def State.aligned (s : State) : Bool := s.remaining % 8 == 0

/-- R36. -/
def State.exhausted (s : State) : Bool := decide (s.len.toNat ≤ s.cidx.toNat)

/-- The STATUS field's code (spec/60_exceptions.md R220). -/
def Status.code : Status → BitVec 3
  | .ok => 0
  | .endOfData => 1
  | .invalidArgument => 2
  | .misalignedAccess => 3
  | .insufficientData => 4
  | .illegalCommand => 5

/-- The codes 2 to 5, the hard failures (spec/60_exceptions.md R220). -/
def Status.isError : Status → Bool
  | .ok => false
  | .endOfData => false
  | .invalidArgument => true
  | .misalignedAccess => true
  | .insufficientData => true
  | .illegalCommand => true

/-- The last three tests of R90: any command but BIND needs a binding, and a reader or writer command needs its
MODE. -/
def State.admits (s : State) : CommandClass → Bool
  | .bind => true
  | .query => s.bound
  | .reader => s.bound && s.mode == .reader
  | .writer => s.bound && s.mode == .writer

end Sys2Proof.Machine
end

