-- ==== Sys2Proof/Machine/Ops.lean ====
section
/-! DEFINITION. The named operations over the state: its updates, memory and the cell width adapter
(spec/20_memory.md), Advance (spec/40_cursor.md R110), the reader's and the writer's internal steps
(spec/41_reader.md, spec/42_writer.md), `respond` and `raise` (spec/00_scope.md R10), and the frame every command
starts with (spec/30_encoding.md R90). -/

namespace Sys2Proof.Machine

/-! ## Updates of the state -/

/-- Write CIDX and BOFF. -/
def State.setCursor (s : State) (c : Word) (o : BitVec 6) : State := { s with cidx := c, boff := o }

/-- Write ITER. -/
def State.setIter (s : State) (n : Word) : State := { s with iter := n }

/-- Replace the contents of the host's buffers. -/
def State.setMem (s : State) (m : Memory) : State := { s with mem := m }

/-- Replace the host's actions not yet taken. -/
def State.setPending (s : State) (p : List HostAction) : State := { s with pending := p }

/-- The host designates a buffer (spec/20_memory.md R52). -/
def State.setDesignated (s : State) (num : Nat) : State := { s with designated := num }

/-- `respond(status, rval, rseq)`: return a response (spec/00_scope.md R10, spec/30_encoding.md R95). -/
def State.respond (s : State) (status : Status) (rval : Word) (rseq : List SeqElement) : State :=
  { s with responses := s.responses ++ [{ status := status, rval := rval, rseq := rseq }] }

/-- `raise <Status>`, the one way into an error: RVAL 0, an empty RSEQ, and nothing else changed
(spec/00_scope.md R10, spec/60_exceptions.md R228). There is no way back to model: nothing was saved (R229). -/
def State.raise (s : State) (status : Status) : State := s.respond status 0 []

/-- The register writes of BIND (spec/40_cursor.md R114): the adapter reaches the designated buffer from here on. -/
def State.rebind (s : State) (mode : Mode) (wc : Width) (len : Word) : State :=
  { s with bound := true, mode := mode, wc := wc, len := len, cidx := 0, boff := 1, iter := 0, buf := s.designated }

/-- Power-on reset between commands (spec/70_reset_and_hazards.md R250): the block's registers as `State.reset` has
them, the buffers and the host's side untouched. DESIGN CHOICE (log entry 3) for every register but BOUND. -/
def State.powerOn (s : State) : State :=
  { s with
    bound := State.reset.bound, mode := State.reset.mode, wc := State.reset.wc, len := State.reset.len,
    cidx := State.reset.cidx, boff := State.reset.boff, iter := State.reset.iter, buf := State.reset.buf }

/-! ## Memory -/

/-- The byte at an address. -/
def Memory.read : Memory → Nat → Byte
  | [], _ => Memory.unlisted
  | (k, v) :: rest, a => if a = k then v else Memory.read rest a

/-- The memory with one byte written, in canonical form: a byte equal to what an unlisted address reads as is not
listed. -/
def Memory.write : Memory → Nat → Byte → Memory
  | [], a, x => if x = Memory.unlisted then [] else [(a, x)]
  | (k, v) :: rest, a, x =>
    if a < k then (if x = Memory.unlisted then (k, v) :: rest else (a, x) :: (k, v) :: rest)
    else if a = k then (if x = Memory.unlisted then rest else (a, x) :: rest)
    else (k, v) :: Memory.write rest a x

/-- Every address listed is at least `lo`, they rise strictly, and no byte listed is what an unlisted address reads
as. -/
def Memory.wfFrom : Nat → Memory → Bool
  | _, [] => true
  | lo, (k, v) :: rest => decide (lo ≤ k) && (v != Memory.unlisted) && Memory.wfFrom (k + 1) rest

/-- The canonical form. -/
def Memory.wf (m : Memory) : Bool := Memory.wfFrom 0 m

/-- The place of a width in the numbering of buffers (log entry 1). -/
def Width.index : Width → Nat
  | .w8 => 0
  | .w16 => 1
  | .w32 => 2

/-- Where a buffer's bytes begin: each buffer has `2^34` addresses of its own, more than a 32-bit LEN of 4-byte cells
can fill. DESIGN CHOICE (log entry 1): safe, since no command sees an address (spec/20_memory.md R54, R61). -/
def BufferId.base (b : BufferId) : Nat :=
  ((b.num * 3 + Width.index b.wc) * 4294967296 + b.len.toNat) * 17179869184

/-- The address of byte `j` of a buffer's byte stream (spec/20_memory.md R56). -/
def BufferId.byteAddr (b : BufferId) (j : Nat) : Nat := b.base + j

/-- The address of the most significant byte of cell `i`; the cell's other bytes follow it, most significant first
(spec/20_memory.md R55). -/
def BufferId.cellAddr (b : BufferId) (i : Nat) : Nat := b.base + i * b.wc.bytes

/-- The value of cell `i` of a buffer (spec/20_memory.md R51, R55). -/
def readCell (m : Memory) (b : BufferId) (i : Nat) : Word :=
  let a := b.cellAddr i
  match b.wc with
  | .w8 => (m.read a).setWidth 32
  | .w16 => (m.read a ++ m.read (a + 1)).setWidth 32
  | .w32 => m.read a ++ m.read (a + 1) ++ m.read (a + 2) ++ m.read (a + 3)

/-- `MemWrite`: the memory with the low W bits of `v` in cell `i` of a buffer (spec/00_scope.md R10,
spec/20_memory.md R55). -/
def writeCell (m : Memory) (b : BufferId) (i : Nat) (v : Word) : Memory :=
  let a := b.cellAddr i
  match b.wc with
  | .w8 => m.write a (v.extractLsb' 0 8)
  | .w16 => (m.write a (v.extractLsb' 8 8)).write (a + 1) (v.extractLsb' 0 8)
  | .w32 =>
    (((m.write a (v.extractLsb' 24 8)).write (a + 1) (v.extractLsb' 16 8)).write (a + 2) (v.extractLsb' 8 8)).write
      (a + 3) (v.extractLsb' 0 8)

/-- The bound buffer. -/
def State.bufferId (s : State) : BufferId := { num := s.buf, wc := s.wc, len := s.len }

/-- `MemRead(i, W)` (spec/20_memory.md R51). Every index issued is CIDX, below LEN by the guard before it (R62). -/
def State.memRead (s : State) (i : Nat) : Word := readCell s.mem s.bufferId i

/-- `CellOr(i, v)`, one read-modify-write of one cell (spec/20_memory.md R53). -/
def State.cellOr (s : State) (i : Nat) (v : Word) : State :=
  s.setMem (writeCell s.mem s.bufferId i (s.memRead i ||| v))

/-! ## The cursor -/

/-- `Advance(n)`, with `n` 1 or 8 (spec/40_cursor.md R110, R111). -/
def State.advance (s : State) (n : Nat) : State :=
  if s.wc.bits < s.boff.toNat + n then s.setCursor (s.cidx + 1) 1
  else s.setCursor s.cidx (BitVec.ofNat 6 (s.boff.toNat + n))

/-- The shift of a bit access, `W - BOFF` (spec/41_reader.md R140, spec/42_writer.md R180). -/
def State.bitShift (s : State) : Nat := s.wc.bits - s.boff.toNat

/-- The shift of a byte access, `(B - 1 - (byteIndex mod B)) * 8` (spec/41_reader.md R144, spec/42_writer.md R184). -/
def State.byteShift (s : State) : Nat := ((s.wc.bytes : Int) - 1 - s.byteIndex % s.wc.bytes).toNat * 8

/-! ## The reader's steps -/

/-- `ReadOneBit()`; none is END (spec/41_reader.md R140). -/
def readOneBit (s : State) : Option (Bool × State) :=
  if s.exhausted then none
  else some ((s.memRead s.cidx.toNat >>> s.bitShift).getLsbD 0, s.advance 1)

/-- `ReadOneByte()`; none is END (spec/41_reader.md R144). -/
def readOneByte (s : State) : Option (Byte × State) :=
  if s.exhausted then none
  else some ((s.memRead s.cidx.toNat >>> s.byteShift).setWidth 8, s.advance 8)

/-- `repeat n times: s <- s ++ [ReadOneBit()]` (spec/41_reader.md R142, R143, R147). -/
def readBitSeq : Nat → State → List (Option Bool) × State
  | 0, s => ([], s)
  | n + 1, s =>
    match readOneBit s with
    | none => let r := readBitSeq n s; (none :: r.1, r.2)
    | some (b, s') => let r := readBitSeq n s'; (some b :: r.1, r.2)

/-- `repeat n times: s <- s ++ [ReadOneByte()]` (spec/41_reader.md R146). -/
def readByteSeq : Nat → State → List (Option Byte) × State
  | 0, s => ([], s)
  | n + 1, s =>
    match readOneByte s with
    | none => let r := readByteSeq n s; (none :: r.1, r.2)
    | some (b, s') => let r := readByteSeq n s'; (some b :: r.1, r.2)

/-- Read `n` bits and respond with their fold (spec/41_reader.md R142, R147); no element is END there, because
`n <= remaining`. -/
def readFolded (n : Nat) (s : State) : State :=
  let r := readBitSeq n s
  r.2.respond .ok (fold (r.1.filterMap id)) []

/-! ## The writer's steps -/

/-- `WriteOneBit(bit)`; none is false (spec/42_writer.md R180). -/
def writeOneBit (bit : Bool) (s : State) : Option State :=
  if s.exhausted then none
  else some ((s.cellOr s.cidx.toNat (bitWord bit <<< s.bitShift)).advance 1)

/-- `WriteOneByte(b)`; none is false (spec/42_writer.md R184). -/
def writeOneByte (b : Byte) (s : State) : Option State :=
  if s.exhausted then none
  else some ((s.cellOr s.cidx.toNat (b.setWidth 32 <<< s.byteShift)).advance 8)

/-- Write bits in order, stopping at the first that finds no room; the count written and the state after
(spec/42_writer.md R182, R183). -/
def writeBitSeq : List Bool → State → Nat × State
  | [], s => (0, s)
  | b :: bits, s =>
    match writeOneBit b s with
    | none => (0, s)
    | some s' => let r := writeBitSeq bits s'; (r.1 + 1, r.2)

/-- Write bytes in order, stopping at the first that finds no room; the count written and the state after
(spec/42_writer.md R186, R187). -/
def writeByteSeq : List Byte → State → Nat × State
  | [], s => (0, s)
  | b :: bytes, s =>
    match writeOneByte b s with
    | none => (0, s)
    | some s' => let r := writeByteSeq bytes s'; (r.1 + 1, r.2)

/-- Respond OK with a count written (spec/30_encoding.md R97). -/
def respondCount (r : Nat × State) : State := r.2.respond .ok (BitVec.ofNat 32 r.1) []

/-- Respond OK with 1 for a write done, or with 0 and the state as it was for no room (spec/30_encoding.md R97,
spec/42_writer.md R181, R185). -/
def respondWritten (s : State) : Option State → State
  | some s' => s'.respond .ok 1 []
  | none => s.respond .ok 0 []

/-! ## The frame of a command -/

/-- A command that has passed the decoding of its word: the last tests of R90, then its operation. A command ends with
a next state in every case (spec/60_exceptions.md R238). -/
def command (op : Opcode) (operation : State → State) (s : State) : Host.Outcome State Fault Refusal :=
  if s.admits op.cls then .next (operation s) else .next (s.raise .illegalCommand)

end Sys2Proof.Machine
end

