-- ==== Sys2Proof/Machine/Cursor.lean ====
section
/-! DEFINITION. The cursor engine's commands: BIND and the five queries (spec/40_cursor.md). -/

namespace Sys2Proof.Machine

/-- BIND (R114). A refused BIND keeps the previous binding. -/
def execBind (mode : Mode) (wc : Width) (len : Word) (s : State) : Host.Outcome State Fault Refusal :=
  command .bind (fun s =>
    if Config.maxBits < len.toNat * wc.bits then s.raise .invalidArgument
    else (s.rebind mode wc len).respond .ok 0 []) s

/-- QBPE (R115). -/
def execQbpe (s : State) : Host.Outcome State Fault Refusal :=
  command .qbpe (fun s => s.respond .ok (BitVec.ofNat 32 s.wc.bytes) []) s

/-- QBITPE (R116). -/
def execQbitpe (s : State) : Host.Outcome State Fault Refusal :=
  command .qbitpe (fun s => s.respond .ok (BitVec.ofNat 32 s.wc.bits) []) s

/-- QREM (R117). -/
def execQrem (s : State) : Host.Outcome State Fault Refusal :=
  command .qrem (fun s => s.respond .ok (BitVec.ofInt 32 s.remaining) []) s

/-- QALN (R118). -/
def execQaln (s : State) : Host.Outcome State Fault Refusal :=
  command .qaln (fun s => s.respond .ok (if s.aligned then 1 else 0) []) s

/-- QBIDX (R119). -/
def execQbidx (s : State) : Host.Outcome State Fault Refusal :=
  command .qbidx (fun s => s.respond .ok (BitVec.ofInt 32 s.byteIndex) []) s

end Sys2Proof.Machine
end

