-- ==== Sys2Proof/Machine/Reader.lean ====
section
/-! DEFINITION. The reader unit's commands (spec/41_reader.md). Each rule's checks come before any change of state, in
the order of spec/60_exceptions.md R227. -/

namespace Sys2Proof.Machine

/-- RDBIT (R141). -/
def execRdbit (s : State) : Host.Outcome State Fault Refusal :=
  command .rdbit (fun s =>
    match readOneBit s with
    | none => s.respond .endOfData 0 []
    | some (b, s') => s'.respond .ok (bitWord b) []) s

/-- RDBITS (R142). -/
def execRdbits (n : Int) (s : State) : Host.Outcome State Fault Refusal :=
  command .rdbits (fun s =>
    if n < 0 then s.raise .invalidArgument
    else if s.remaining < n then s.raise .insufficientData
    else readFolded n.toNat s) s

/-- RDBITSS (R143). -/
def execRdbitss (n : Int) (s : State) : Host.Outcome State Fault Refusal :=
  command .rdbitss (fun s =>
    if n < 0 then s.raise .invalidArgument
    else let r := readBitSeq n.toNat s; r.2.respond .ok 0 (r.1.map bitElement)) s

/-- COLLECT (R148). -/
def execCollect (bits : List Bool) (s : State) : Host.Outcome State Fault Refusal :=
  command .collect (fun s => s.respond .ok (fold bits) []) s

/-- RDBYTE (R145). -/
def execRdbyte (s : State) : Host.Outcome State Fault Refusal :=
  command .rdbyte (fun s =>
    if !s.aligned then s.raise .misalignedAccess
    else
      match readOneByte s with
      | none => s.respond .endOfData 0 []
      | some (b, s') => s'.respond .ok (b.setWidth 32) []) s

/-- RDBYTES (R146). -/
def execRdbytes (n : Int) (s : State) : Host.Outcome State Fault Refusal :=
  command .rdbytes (fun s =>
    if n < 0 then s.raise .invalidArgument
    else if !s.aligned then s.raise .misalignedAccess
    else let r := readByteSeq n.toNat s; r.2.respond .ok 0 (r.1.map byteElement)) s

/-- RDALL (R147); its count is not limited by OPN (decision D28). -/
def execRdall (s : State) : Host.Outcome State Fault Refusal :=
  command .rdall (fun s => readFolded s.remaining.toNat s) s

/-- NEXT (R153). -/
def execNext (s : State) : Host.Outcome State Fault Refusal :=
  command .next (fun s =>
    match readOneBit s with
    | none => s.respond .endOfData s.iter []
    | some (b, s') => (s'.setIter (s'.iter + 1)).respond .ok (bitWord b) []) s

end Sys2Proof.Machine
end

