-- ==== Sys2Proof/Machine/Writer.lean ====
section
/-! DEFINITION. The writer unit's commands (spec/42_writer.md). Each rule's checks come before any change of state, in
the order of spec/60_exceptions.md R227. -/

namespace Sys2Proof.Machine

/-- WRBIT (R181). -/
def execWrbit (bit : Bool) (s : State) : Host.Outcome State Fault Refusal :=
  command .wrbit (fun s => respondWritten s (writeOneBit bit s)) s

/-- WRBITS (R182): the sequence truncated to what remains. -/
def execWrbits (bits : List Bool) (s : State) : Host.Outcome State Fault Refusal :=
  command .wrbits (fun s =>
    let k := min bits.length s.remaining.toNat
    (writeBitSeq (bits.take k) s).2.respond .ok (BitVec.ofNat 32 k) []) s

/-- WRBITSV (R183): value bits `n-1` down to 0, until no room is left. -/
def execWrbitsv (value : Word) (n : Int) (s : State) : Host.Outcome State Fault Refusal :=
  command .wrbitsv (fun s =>
    if n < 0 then s.raise .invalidArgument
    else respondCount (writeBitSeq (valueBits value n.toNat) s)) s

/-- WRBYTE (R185). -/
def execWrbyte (b : Word) (s : State) : Host.Outcome State Fault Refusal :=
  command .wrbyte (fun s =>
    if 256 ≤ b.toNat then s.raise .invalidArgument
    else if !s.aligned then s.raise .misalignedAccess
    else respondWritten s (writeOneByte (b.setWidth 8) s)) s

/-- WRBYTES (R186): the sequence truncated to the byte slots that remain. -/
def execWrbytes (bytes : List Byte) (s : State) : Host.Outcome State Fault Refusal :=
  command .wrbytes (fun s =>
    if !s.aligned then s.raise .misalignedAccess
    else
      let k := min bytes.length (s.remaining / 8).toNat
      (writeByteSeq (bytes.take k) s).2.respond .ok (BitVec.ofNat 32 k) []) s

/-- WRBYTESV (R187): value bytes `n-1` down to 0, until no room is left. -/
def execWrbytesv (value : Word) (n : Int) (s : State) : Host.Outcome State Fault Refusal :=
  command .wrbytesv (fun s =>
    if n < 0 then s.raise .invalidArgument
    else if !s.aligned then s.raise .misalignedAccess
    else respondCount (writeByteSeq (valueBytes value n.toNat) s)) s

end Sys2Proof.Machine
end

