-- ==== Sys2Proof/Machine/Dispatch.lean ====
section
/-! DEFINITION. One arm per command: the rule R89 names for it. -/

namespace Sys2Proof.Machine

/-- The meaning of a command (spec/30_encoding.md R89, R90). -/
def exec (i : Instr) (s : State) : Host.Outcome State Fault Refusal :=
  match i with
  | .bind mode wc len => Sys2Proof.Machine.execBind mode wc len s
  | .qbpe => Sys2Proof.Machine.execQbpe s
  | .qbitpe => Sys2Proof.Machine.execQbitpe s
  | .qrem => Sys2Proof.Machine.execQrem s
  | .qaln => Sys2Proof.Machine.execQaln s
  | .qbidx => Sys2Proof.Machine.execQbidx s
  | .rdbit => Sys2Proof.Machine.execRdbit s
  | .rdbits n => Sys2Proof.Machine.execRdbits n s
  | .rdbitss n => Sys2Proof.Machine.execRdbitss n s
  | .collect bits => Sys2Proof.Machine.execCollect bits s
  | .rdbyte => Sys2Proof.Machine.execRdbyte s
  | .rdbytes n => Sys2Proof.Machine.execRdbytes n s
  | .rdall => Sys2Proof.Machine.execRdall s
  | .next => Sys2Proof.Machine.execNext s
  | .wrbit bit => Sys2Proof.Machine.execWrbit bit s
  | .wrbits bits => Sys2Proof.Machine.execWrbits bits s
  | .wrbitsv value n => Sys2Proof.Machine.execWrbitsv value n s
  | .wrbyte b => Sys2Proof.Machine.execWrbyte b s
  | .wrbytes bytes => Sys2Proof.Machine.execWrbytes bytes s
  | .wrbytesv value n => Sys2Proof.Machine.execWrbytesv value n s

end Sys2Proof.Machine
end

