-- ==== Sys2Proof/Machine/HostPort.lean ====
section
/-! DEFINITION. What a step does for a host action that is no decoded command: a command word that spells nothing
(spec/30_encoding.md R91) and a host write of a cell (spec/70_reset_and_hazards.md R258). -/

namespace Sys2Proof.Machine

/-- A command word that spells no command ends with ILLEGAL_COMMAND whatever the reason (R91). -/
def illegalWord (r : Reject) (s : State) : Host.Outcome State Fault Refusal :=
  match r with
  | .reservedOpcode => .next (s.raise .illegalCommand)
  | .reservedField => .next (s.raise .illegalCommand)
  | .reservedWidth => .next (s.raise .illegalCommand)

/-- `HostWrite(i, v)`, with `0 <= i < LEN` and `v` a W-bit value (R258). It changes no register. -/
def hostWriteCell (b : BufferId) (i : Nat) (v : Word) (s : State) : Host.Outcome State Fault Refusal :=
  if b.len.toNat ≤ i then .fault .noSuchCell
  else if 2 ^ b.wc.bits ≤ v.toNat then .refused .notACellValue
  else .next (s.setMem (writeCell s.mem b i v))

end Sys2Proof.Machine
end

