-- ==== Sys2Proof/Machine/Step.lean ====
section
/-! DEFINITION. One step of the machine: the block or the host takes the oldest host action. -/

namespace Sys2Proof.Machine

/-- One step: the oldest action of the host (spec/70_reset_and_hazards.md R255, R262). A command whose word decodes is
executed; one whose word spells no command ends with ILLEGAL_COMMAND (spec/30_encoding.md R90, R91). With no action
waiting the block waits and nothing changes: DESIGN CHOICE (log entry 5), safe. -/
def step (s : State) : Host.Outcome State Fault Refusal :=
  match s.pending with
  | [] => .next s
  | .command t :: rest =>
    match decode t with
    | .ok i => exec i (s.setPending rest)
    | .error r => illegalWord r (s.setPending rest)
  | .designate num :: rest => .next ((s.setPending rest).setDesignated num)
  | .hostWrite b i v :: rest => hostWriteCell b i v (s.setPending rest)
  | .reset :: rest => .next (s.setPending rest).powerOn

/-- The host presents the transaction whose words are the bits of `w` before every action that waits (log entry 10). -/
def State.withFetchWord (s : State) (nbits w : Nat) : State :=
  s.setPending (.command (transactionOfBits nbits w) :: s.pending)

end Sys2Proof.Machine
end

