-- ==== Sys2Proof/Safety.lean ====
section
/-! DEFINITION. The terms the statements use: the cursor invariant (spec/10_state.md R30), the machine's invariant, the
buffer's bit and byte streams (spec/20_memory.md R56), which error a command ends with (spec/60_exceptions.md R227),
how many bits it consumes (spec/40_cursor.md R121), and runs of several commands. Nothing here is used by `step`. -/

namespace Sys2Proof.Machine

/-! ## The cursor -/

/-- The bits the bound buffer holds, `LEN * W`. -/
def State.capacity (s : State) : Nat := s.len.toNat * s.wc.bits

/-- `consumed = CIDX*W + BOFF - 1`, the stream position of the next bit (R39, spec/20_memory.md R56). -/
def State.consumed (s : State) : Nat := s.cidx.toNat * s.wc.bits + s.boff.toNat - 1

/-- INV (R30). -/
abbrev State.CursorInv (s : State) : Prop :=
  (s.cidx.toNat < s.len.toNat ∧ 1 ≤ s.boff.toNat ∧ s.boff.toNat ≤ s.wc.bits) ∨ (s.cidx = s.len ∧ s.boff = 1)

/-- What every run keeps of a bound block: INV, and `LEN * W <= 2^32 - 1` (R27, R30). -/
abbrev State.Live (s : State) : Prop := s.bound = true ∧ s.CursorInv ∧ s.capacity ≤ Config.maxBits

/-- The machine's invariant: memory is in canonical form, and a bound block is live, with `ITER` at most the bits
consumed (R31). -/
abbrev State.Inv (s : State) : Prop :=
  s.mem.wf = true ∧ (s.bound = true → s.CursorInv ∧ s.capacity ≤ Config.maxBits ∧ s.iter.toNat ≤ s.consumed)

/-- The cursor at stream position `p`: cell `p div W`, offset `p mod W + 1` (spec/20_memory.md R56). -/
def State.moveTo (s : State) (p : Nat) : State :=
  s.setCursor (BitVec.ofNat 32 (p / s.wc.bits)) (BitVec.ofNat 6 (p % s.wc.bits + 1))

/-! ## The buffer's streams -/

/-- The bits a buffer holds. -/
def BufferId.bits (b : BufferId) : Nat := b.len.toNat * b.wc.bits

/-- `StreamBit(p)` (spec/20_memory.md R56). -/
def streamBit (m : Memory) (b : BufferId) (p : Nat) : Bool :=
  (readCell m b (p / b.wc.bits) >>> (b.wc.bits - 1 - p % b.wc.bits)).getLsbD 0

/-- `StreamByte(j)` (spec/20_memory.md R56). -/
def streamByte (m : Memory) (b : BufferId) (j : Nat) : Byte :=
  (readCell m b (j / b.wc.bytes) >>> ((b.wc.bytes - 1 - j % b.wc.bytes) * 8)).setWidth 8

/-- The `n` bits of the stream from position `p` on. -/
def streamBits (m : Memory) (b : BufferId) (p n : Nat) : List Bool :=
  (List.range n).map fun k => streamBit m b (p + k)

/-- The `n` bytes of the stream from byte position `j` on. -/
def streamBytes (m : Memory) (b : BufferId) (j n : Nat) : List Byte :=
  (List.range n).map fun k => streamByte m b (j + k)

/-- A byte's bits, most significant first (spec/20_memory.md R55). -/
def byteBits (x : Byte) : List Bool :=
  [x.getLsbD 7, x.getLsbD 6, x.getLsbD 5, x.getLsbD 4, x.getLsbD 3, x.getLsbD 2, x.getLsbD 1, x.getLsbD 0]

/-- `m'` is `m` with `bits` ORed into buffer `b`'s stream from position `p` on (spec/20_memory.md R53): every bit of every
buffer is as it was but for those, and every address outside the bytes that hold them reads as it did. -/
def OrsBits (m m' : Memory) (b : BufferId) (p : Nat) (bits : List Bool) : Prop :=
  (∀ (c : BufferId) (q : Nat), q < c.bits →
    streamBit m' c q = (streamBit m c q || (decide (c = b ∧ p ≤ q) && bits.getD (q - p) false))) ∧
  (∀ a : Nat, (a < b.byteAddr (p / 8) ∨ b.byteAddr ((p + bits.length + 7) / 8) ≤ a) → m'.read a = m.read a)

/-! ## Errors, progress and runs -/

/-- The operands each command uses (spec/30_encoding.md R88): OPA. -/
def usesOpa : Opcode → Bool
  | .bind | .wrbitsv | .wrbyte | .wrbytesv => true
  | .qbpe | .qbitpe | .qrem | .qaln | .qbidx => false
  | .rdbit | .rdbits | .rdbitss | .collect | .rdbyte | .rdbytes | .rdall | .next => false
  | .wrbit | .wrbits | .wrbytes => false

/-- The operands each command uses (spec/30_encoding.md R88): OPN. -/
def usesOpn : Opcode → Bool
  | .rdbits | .rdbitss | .rdbytes | .wrbitsv | .wrbytesv => true
  | .bind | .qbpe | .qbitpe | .qrem | .qaln | .qbidx => false
  | .rdbit | .collect | .rdbyte | .rdall | .next => false
  | .wrbit | .wrbits | .wrbyte | .wrbytes => false

/-- The operands each command uses (spec/30_encoding.md R88): SEQ. -/
def usesSeq : Opcode → Bool
  | .collect | .wrbits | .wrbytes => true
  | .bind | .qbpe | .qbitpe | .qrem | .qaln | .qbidx => false
  | .rdbit | .rdbits | .rdbitss | .rdbyte | .rdbytes | .rdall | .next => false
  | .wrbit | .wrbitsv | .wrbyte | .wrbytesv => false

/-- The five cases of ILLEGAL_COMMAND (spec/60_exceptions.md R222, spec/30_encoding.md R91), on the number `c` that the
command word stands for, with OPC `c / 2^24`: a reserved opcode; a reserved bit of format B, W or N that is not 0; BIND with
WC = 3; a command other than BIND while unbound; a reader or writer command in the other MODE. -/
abbrev IllegalWord (s : State) (c : Nat) : Prop :=
  (c / 2 ^ 24 = 0 ∨ (0x07 ≤ c / 2 ^ 24 ∧ c / 2 ^ 24 ≤ 0x0F) ∨ (0x18 ≤ c / 2 ^ 24 ∧ c / 2 ^ 24 ≤ 0x1F) ∨
    0x26 ≤ c / 2 ^ 24) ∨
  ((c / 2 ^ 24 = 0x01 ∧ c / 8 % 2 ^ 21 ≠ 0) ∨ (c / 2 ^ 24 = 0x20 ∧ c / 2 % 2 ^ 23 ≠ 0) ∨
    (c / 2 ^ 24 ≠ 0x01 ∧ c / 2 ^ 24 ≠ 0x20 ∧ c % 2 ^ 24 ≠ 0)) ∨
  (c / 2 ^ 24 = 0x01 ∧ c % 4 = 3) ∨
  (c / 2 ^ 24 ≠ 0x01 ∧ s.bound = false) ∨
  (0x10 ≤ c / 2 ^ 24 ∧ c / 2 ^ 24 ≤ 0x17 ∧ s.mode = .writer) ∨
  (0x20 ≤ c / 2 ^ 24 ∧ c / 2 ^ 24 ≤ 0x25 ∧ s.mode = .reader)

/-- The three cases of INVALID_ARGUMENT (spec/60_exceptions.md R223). -/
def malformed : Instr → Bool
  | .bind _ wc len => decide (Config.maxBits < len.toNat * wc.bits)
  | .rdbits n | .rdbitss n | .rdbytes n | .wrbitsv _ n | .wrbytesv _ n => decide (n < 0)
  | .wrbyte b => decide (256 ≤ b.toNat)
  | .qbpe | .qbitpe | .qrem | .qaln | .qbidx => false
  | .rdbit | .collect _ | .rdbyte | .rdall | .next => false
  | .wrbit _ | .wrbits _ | .wrbytes _ => false

/-- The five commands that need alignment (spec/60_exceptions.md R221). -/
def needsAlignment : Instr → Bool
  | .rdbyte | .rdbytes _ | .wrbyte _ | .wrbytes _ | .wrbytesv _ _ => true
  | .bind _ _ _ | .qbpe | .qbitpe | .qrem | .qaln | .qbidx => false
  | .rdbit | .rdbits _ | .rdbitss _ | .collect _ | .rdall | .next => false
  | .wrbit _ | .wrbits _ | .wrbitsv _ _ => false

/-- The one case of INSUFFICIENT_DATA (spec/60_exceptions.md R224). -/
def lacksData (s : State) : Instr → Bool
  | .rdbits n => decide (s.remaining < n)
  | .bind _ _ _ | .qbpe | .qbitpe | .qrem | .qaln | .qbidx => false
  | .rdbit | .rdbitss _ | .collect _ | .rdbyte | .rdbytes _ | .rdall | .next => false
  | .wrbit _ | .wrbits _ | .wrbitsv _ _ | .wrbyte _ | .wrbytes _ | .wrbytesv _ _ => false

/-- The first error that applies, in the order of spec/60_exceptions.md R227; none where the command executes. -/
def firstError (i : Instr) (s : State) : Option Status :=
  if s.admits i.opcode.cls = false then some .illegalCommand
  else if malformed i then some .invalidArgument
  else if needsAlignment i ∧ s.remaining % 8 ≠ 0 then some .misalignedAccess
  else if lacksData s i then some .insufficientData
  else none

/-- The bits a command other than BIND asks to read or write, before what remains cuts it short. -/
def bitsRequested (s : State) : Instr → Nat
  | .rdbit | .next | .wrbit _ => 1
  | .rdbits n | .rdbitss n | .wrbitsv _ n => n.toNat
  | .rdbyte | .wrbyte _ => 8
  | .rdbytes n | .wrbytesv _ n => 8 * n.toNat
  | .rdall => s.remaining.toNat
  | .wrbits bits => bits.length
  | .wrbytes bytes => 8 * bytes.length
  | .bind _ _ _ | .qbpe | .qbitpe | .qrem | .qaln | .qbidx | .collect _ => 0

/-- The bits a command other than BIND consumes (spec/40_cursor.md R121): none with an error, else what it asks for, as
far as bits remain. -/
def bitsConsumed (i : Instr) (s : State) : Nat :=
  if (firstError i s).isSome then 0 else min (bitsRequested s i) s.remaining.toNat

/-- The bits a writer command asks to write, in order (spec/42_writer.md R181 to R187). -/
def requestedBits : Instr → List Bool
  | .wrbit bit => [bit]
  | .wrbits bits => bits
  | .wrbitsv value n => valueBits value n.toNat
  | .wrbyte b => byteBits (b.setWidth 8)
  | .wrbytes bytes => bytes.flatMap byteBits
  | .wrbytesv value n => (valueBytes value n.toNat).flatMap byteBits
  | .bind _ _ _ | .qbpe | .qbitpe | .qrem | .qaln | .qbidx => []
  | .rdbit | .rdbits _ | .rdbitss _ | .collect _ | .rdbyte | .rdbytes _ | .rdall | .next => []

/-- Commands one after the other. -/
def execAll : List Instr → State → Host.Outcome State Fault Refusal
  | [], s => .next s
  | i :: rest, s =>
    match exec i s with
    | .next t => execAll rest t
    | .fault f => .fault f
    | .refused r => .refused r

/-- The machine answers `t`, having returned just the response `r`. -/
def Answers (o : Host.Outcome State Fault Refusal) (s t : State) (r : Response) : Prop :=
  o = .next t ∧ t.responses = s.responses ++ [r]

end Sys2Proof.Machine
end

