-- ==== Sys2Proof/Certificates/Slice0/Obligations.lean ====
section
/-! DEFINITION. The statements about the model, each from a rule of spec/ (OBLIGATIONS.json gives the rules). A statement
about one command says first which command words spell it, whatever the operands it does not use hold. -/

open Sys2Proof Sys2Proof.Machine

/-! ## Encoding -/

/-- R81 to R87, R100: the transaction that spells a command decodes to it, with every operand at every value its port
carries. -/
def Obligations.DecodeOfEncodeIsTheCommand : Prop :=
  ∀ i : Instr, i.wellFormed = true → decode (encode i) = .ok i

/-- R81 to R87: a transaction that decodes is spelled by the command it decodes to, in its word and in every operand
the command uses. Of a 1-bit element's lane only bit 0 counts, which is the model's choice (log entry 9). -/
def Obligations.DecodedCommandSpellsItsTransaction : Prop :=
  ∀ (t : Transaction) (i : Instr), decode t = .ok i →
    i.wellFormed = true ∧ (encode i).cmd = t.cmd ∧
    (usesOpa i.opcode = true → (encode i).opa = t.opa) ∧
    (usesOpn i.opcode = true → (encode i).opn = t.opn) ∧
    (i.opcode = .wrbytes → (encode i).seq = t.seq) ∧
    (i.opcode = .collect ∨ i.opcode = .wrbits → (encode i).seq = t.seq.map fun x => bitLane (laneBit x))

/-- R90, the tests of the word, and R89: a word decodes exactly where its opcode is one of the map's and its reserved
bits are 0, and for BIND where WC is not 3. -/
def Obligations.DecodeAcceptsExactlyTheOpcodeMap : Prop :=
  ∀ t : Transaction,
    (∃ i, decode t = .ok i) ↔
      (t.cmd.toNat / 2 ^ 24 = 0x01 ∧ t.cmd.toNat / 8 % 2 ^ 21 = 0 ∧ t.cmd.toNat % 4 ≠ 3) ∨
      (t.cmd.toNat / 2 ^ 24 = 0x20 ∧ t.cmd.toNat / 2 % 2 ^ 23 = 0) ∨
      (((0x02 ≤ t.cmd.toNat / 2 ^ 24 ∧ t.cmd.toNat / 2 ^ 24 ≤ 0x06) ∨
        (0x10 ≤ t.cmd.toNat / 2 ^ 24 ∧ t.cmd.toNat / 2 ^ 24 ≤ 0x17) ∨
        (0x21 ≤ t.cmd.toNat / 2 ^ 24 ∧ t.cmd.toNat / 2 ^ 24 ≤ 0x25)) ∧ t.cmd.toNat % 2 ^ 24 = 0)

/-- R101: the ten example encodings, decoded. -/
def Obligations.ExampleEncodingsDecode : Prop :=
  decode ⟨0x01000000, 3, 0, []⟩ = .ok (.bind .reader .w8 3) ∧
  decode ⟨0x01000001, 1, 0, []⟩ = .ok (.bind .reader .w16 1) ∧
  decode ⟨0x01000002, 3, 0, []⟩ = .ok (.bind .reader .w32 3) ∧
  decode ⟨0x01000004, 1, 0, []⟩ = .ok (.bind .writer .w8 1) ∧
  decode ⟨0x01000006, 2, 0, []⟩ = .ok (.bind .writer .w32 2) ∧
  decode ⟨0x11000000, 0, 0x0000000C, []⟩ = .ok (.rdbits 12) ∧
  decode ⟨0x11000000, 0, 0xFFFFFFFF, []⟩ = .ok (.rdbits (-1)) ∧
  decode ⟨0x22000000, 0x00000035, 0x00000009, []⟩ = .ok (.wrbitsv 0b00110101 9) ∧
  decode ⟨0x23000000, 0x00000100, 0, []⟩ = .ok (.wrbyte 256) ∧
  decode ⟨0x20000000, 0, 0, []⟩ = .ok (.wrbit false)

/-- R94: two transactions with one command word that agree on the operands its command uses decode alike, and so a
step takes them alike. -/
def Obligations.UnusedOperandsAreIgnored : Prop :=
  ∀ t t' : Transaction, t.cmd = t'.cmd →
    (∀ o, Opcode.ofCode (opcField t.cmd) = some o →
      (usesOpa o = true → t.opa = t'.opa) ∧ (usesOpn o = true → t.opn = t'.opn) ∧
      (usesSeq o = true → t.seq = t'.seq)) →
    decode t = decode t' ∧
    ∀ (s : State) (rest : List HostAction),
      step (s.setPending (.command t :: rest)) = step (s.setPending (.command t' :: rest))

/-! ## The step -/

/-- R80, R90: when the oldest host action is a command transaction that decodes to `i`, the step is `exec` of `i`, with
that action taken. -/
def Obligations.StepRunsTheDecodedCommand : Prop :=
  ∀ (s : State) (t : Transaction) (rest : List HostAction) (i : Instr),
    s.pending = .command t :: rest → decode t = .ok i → step s = exec i (s.setPending rest)

/-- R222, R91: ILLEGAL_COMMAND is answered in exactly five cases, all decided by the word, BOUND and MODE, whatever the
operands are; the step then changes nothing but the response returned and the action taken. In every other case the word
spells a command, which answers with another STATUS. -/
def Obligations.IllegalCommandHasFiveCases : Prop :=
  ∀ (s : State) (t : Transaction) (rest : List HostAction), s.pending = .command t :: rest →
    (IllegalWord s t.cmd.toNat → step s = .next { s with
      pending := rest
      responses := s.responses ++ [{ status := .illegalCommand, rval := 0, rseq := [] }] }) ∧
    (¬IllegalWord s t.cmd.toNat → ∃ i u r, decode t = .ok i ∧ Answers (step s) s u r ∧ r.status ≠ .illegalCommand)

/-- R250: power-on reset sets BOUND to 0 and touches neither the buffers nor the host's side. What it leaves in the
other registers is the model's choice (log entry 3) and not stated. -/
def Obligations.PowerOnResetUnbinds : Prop :=
  ∀ (s : State) (rest : List HostAction), s.pending = .reset :: rest →
    ∃ t, step s = .next t ∧ t.bound = false ∧ t.mem = s.mem ∧ t.designated = s.designated ∧ t.pending = rest ∧
      t.responses = s.responses

/-- R258: a host write of a W-bit value to a cell of a buffer sets that cell, leaves every other cell of every buffer
as it was, and changes no register. R258 gives a host write a meaning only for `0 <= i < LEN` and a W-bit value: that the
machine stops on any other is the model's choice (log entry 12). -/
def Obligations.HostWriteSetsOneCell : Prop :=
  (∀ (s : State) (b : BufferId) (i : Nat) (v : Word) (rest : List HostAction),
    s.mem.wf = true → s.pending = .hostWrite b i v :: rest → i < b.len.toNat → v.toNat < 2 ^ b.wc.bits →
    ∃ m, step s = .next ((s.setPending rest).setMem m) ∧ m.wf = true ∧ readCell m b i = v ∧
      ∀ (c : BufferId) (j : Nat), j < c.len.toNat → (c ≠ b ∨ j ≠ i) → readCell m c j = readCell s.mem c j) ∧
  (∀ (s : State) (b : BufferId) (i : Nat) (v : Word) (rest : List HostAction),
    s.pending = .hostWrite b i v :: rest →
    (b.len.toNat ≤ i → step s = .fault .noSuchCell) ∧
    (i < b.len.toNat → 2 ^ b.wc.bits ≤ v.toNat → step s = .refused .notACellValue))

/-! ## The invariant -/

/-- R42, R250: the machine right after power-on reset is unbound and meets the invariant. -/
def Obligations.ResetMeetsTheInvariant : Prop := State.reset.bound = false ∧ State.reset.Inv

/-- R30, R31, R27: every step keeps the invariant: memory canonical, and of a bound block the cursor legal, the buffer
within `2^32 - 1` bits, ITER at most the bits consumed. -/
def Obligations.StepKeepsTheInvariant : Prop :=
  ∀ s t : State, s.Inv → step s = .next t → t.Inv

/-! ## Every command -/

/-- R238, R80: every command, in every state, ends with a next state and exactly one response. -/
def Obligations.EveryCommandAnswersOnce : Prop :=
  ∀ (i : Instr) (s : State), ∃ t r, exec i s = .next t ∧ t.responses = s.responses ++ [r]

/-- R228: a command that ends with an error changes no register, no cell and nothing else, and responds with RVAL 0 and
an empty RSEQ. -/
def Obligations.ErrorLeavesNoTrace : Prop :=
  ∀ (i : Instr) (s t : State) (r : Response),
    exec i s = .next t → t.responses = s.responses ++ [r] → r.status.isError = true →
    t = { s with responses := s.responses ++ [{ status := r.status, rval := 0, rseq := [] }] }

/-- R225: a response with STATUS END changes no state; it comes from RDBIT, RDBYTE or NEXT at exhaustion, with RVAL 0,
or ITER for NEXT. -/
def Obligations.EndChangesNothing : Prop :=
  ∀ (i : Instr) (s t : State) (r : Response),
    exec i s = .next t → t.responses = s.responses ++ [r] → r.status = .endOfData →
    (i = .rdbit ∨ i = .rdbyte ∨ i = .next) ∧ s.len.toNat ≤ s.cidx.toNat ∧
    t = { s with responses := s.responses ++
      [{ status := .endOfData, rval := if i = .next then s.iter else 0, rseq := [] }] }

/-- R227: the first error that applies, in the spec's order, is the one reported; with none, the command executes. Of the
last three errors only INVALID_ARGUMENT and MISALIGNED_ACCESS can apply together, for three commands, and under INV an
exhausted cursor is never misaligned. -/
def Obligations.FirstErrorThatAppliesIsReported : Prop :=
  ∀ (i : Instr) (s : State),
    (∀ e, firstError i s = some e → exec i s = .next (s.respond e 0 [])) ∧
    (firstError i s = none → ∃ t r, Answers (exec i s) s t r ∧ r.status.isError = false) ∧
    (malformed i = true → needsAlignment i = true →
      i.opcode = .wrbyte ∨ i.opcode = .rdbytes ∨ i.opcode = .wrbytesv) ∧
    (lacksData s i = true → needsAlignment i = false) ∧
    (s.CursorInv → (lacksData s i = true → malformed i = false) ∧ (s.exhausted = true → s.remaining % 8 = 0))

/-- R221: MISALIGNED_ACCESS is raised by exactly five commands, each when the remaining bits are not a multiple of 8,
checked before any byte is read or written. -/
def Obligations.MisalignedAccessIsForFiveByteCommands : Prop :=
  ∀ (i : Instr) (s : State),
    ((∃ t r, Answers (exec i s) s t r ∧ r.status = .misalignedAccess) ↔
      (s.admits i.opcode.cls = true ∧ s.remaining % 8 ≠ 0 ∧
        (i = .rdbyte ∨ (∃ n, i = .rdbytes n ∧ 0 ≤ n) ∨ (∃ b, i = .wrbyte b ∧ b.toNat < 256) ∨
          (∃ l, i = .wrbytes l) ∨ (∃ v n, i = .wrbytesv v n ∧ 0 ≤ n)))) ∧
    (∀ t r, Answers (exec i s) s t r → r.status = .misalignedAccess → t = s.respond .misalignedAccess 0 [])

/-- R223: INVALID_ARGUMENT is raised in three cases and by no other command. -/
def Obligations.InvalidArgumentHasThreeCases : Prop :=
  ∀ (i : Instr) (s : State),
    ((∃ t r, Answers (exec i s) s t r ∧ r.status = .invalidArgument) ↔
      (s.admits i.opcode.cls = true ∧
        ((∃ n : Int, n < 0 ∧ (i = .rdbits n ∨ i = .rdbitss n ∨ i = .rdbytes n ∨
            (∃ v, i = .wrbitsv v n) ∨ (∃ v, i = .wrbytesv v n))) ∨
          (∃ b, i = .wrbyte b ∧ 256 ≤ b.toNat) ∨
          (∃ m w l, i = .bind m w l ∧ 2 ^ 32 - 1 < l.toNat * w.bits)))) ∧
    (∀ t r, Answers (exec i s) s t r → r.status = .invalidArgument → t = s.respond .invalidArgument 0 [])

/-- R224: only RDBITS raises INSUFFICIENT_DATA, when it asks for more bits than remain, and nothing is read before. -/
def Obligations.InsufficientDataIsForRdbitsOnly : Prop :=
  ∀ (i : Instr) (s : State),
    ((∃ t r, Answers (exec i s) s t r ∧ r.status = .insufficientData) ↔
      (s.admits i.opcode.cls = true ∧ ∃ n, i = .rdbits n ∧ 0 ≤ n ∧ s.remaining < n)) ∧
    (∀ t r, Answers (exec i s) s t r → r.status = .insufficientData → t = s.respond .insufficientData 0 [])

/-- R24: BOUND is 0 after power-on reset and 1 after a BIND that answers OK; no command clears it, and of all steps only a
power-on reset does; while it is 0 every command but BIND ends with ILLEGAL_COMMAND. -/
def Obligations.UnboundRefusesAllButBind : Prop :=
  State.reset.bound = false ∧
  (∀ (m : Mode) (w : Width) (l : Word) (s t : State) (r : Response),
    Answers (exec (.bind m w l) s) s t r → r.status = .ok → t.bound = true) ∧
  (∀ (i : Instr) (s t : State), exec i s = .next t → s.bound = true → t.bound = true) ∧
  (∀ s t : State, step s = .next t → s.bound = true → t.bound = true ∨ ∃ rest, s.pending = .reset :: rest) ∧
  (∀ (i : Instr) (s : State), s.bound = false → i.opcode ≠ .bind →
    exec i s = .next (s.respond .illegalCommand 0 []))

/-- R25: BIND sets MODE, to WRITER exactly where CMD[2] is 1, and no other command changes it; a reader command in WRITER mode and a writer command in READER mode
end with ILLEGAL_COMMAND; in its own mode a command does not, and a query does not in either. -/
def Obligations.ModeDecidesWhichCommandsRun : Prop :=
  (∀ (x : Transaction) (m : Mode) (w : Width) (l : Word), decode x = .ok (.bind m w l) →
    (m = .writer ↔ x.cmd.getLsbD 2 = true)) ∧
  (∀ (m : Mode) (w : Width) (l : Word) (s t : State) (r : Response),
    Answers (exec (.bind m w l) s) s t r → r.status = .ok → t.mode = m) ∧
  (∀ (i : Instr) (s t : State), exec i s = .next t → i.opcode ≠ .bind → t.mode = s.mode) ∧
  (∀ (i : Instr) (s : State), s.bound = true →
    ((i.opcode.cls = .reader ∧ s.mode = .writer) ∨ (i.opcode.cls = .writer ∧ s.mode = .reader) →
      exec i s = .next (s.respond .illegalCommand 0 [])) ∧
    ((i.opcode.cls = .reader ∧ s.mode = .reader) ∨ (i.opcode.cls = .writer ∧ s.mode = .writer) ∨
      i.opcode.cls = .query → ∃ t r, Answers (exec i s) s t r ∧ r.status ≠ .illegalCommand))

/-! ## The cursor engine -/

/-- R114: BIND of a buffer of at most `2^32 - 1` bits starts a fresh cursor over the designated buffer, in any state, and
leaves the buffers as they are; a longer one is refused and the previous binding kept; WC = 3 or a reserved bit ends with
ILLEGAL_COMMAND. The first two clauses are `exec`'s, the third the encoding. -/
def Obligations.BindStartsAFreshCursor : Prop :=
  (∀ (m : Mode) (w : Width) (l : Word) (s : State), l.toNat * w.bits ≤ 2 ^ 32 - 1 →
    exec (.bind m w l) s = .next { s with
      bound := true, mode := m, wc := w, len := l, cidx := 0, boff := 1, iter := 0, buf := s.designated,
      responses := s.responses ++ [{ status := .ok, rval := 0, rseq := [] }] } ∧
    ∀ t, exec (.bind m w l) s = .next t → t.remaining = l.toNat * w.bits ∧ t.CursorInv) ∧
  (∀ (m : Mode) (w : Width) (l : Word) (s : State), 2 ^ 32 - 1 < l.toNat * w.bits →
    exec (.bind m w l) s = .next { s with
      responses := s.responses ++ [{ status := .invalidArgument, rval := 0, rseq := [] }] }) ∧
  (∀ (m : Mode) (w : Width) (l n : Word) (q : List Byte),
    decode ⟨BitVec.ofNat 32 (0x01000000 + (if m = .writer then 4 else 0) + w.code.toNat), l, n, q⟩ =
      .ok (.bind m w l)) ∧
  (∀ (s : State) (t : Transaction) (rest : List HostAction), s.pending = .command t :: rest →
    t.cmd.toNat / 2 ^ 24 = 0x01 → (t.cmd.toNat % 4 = 3 ∨ t.cmd.toNat / 8 % 2 ^ 21 ≠ 0) →
    step s = .next { s with
      pending := rest
      responses := s.responses ++ [{ status := .illegalCommand, rval := 0, rseq := [] }] })

/-- R115 to R119: in a bound block with a legal cursor, in either mode, each query answers its derived quantity, exactly,
and changes nothing; the cell width stays until the next BIND. -/
def Obligations.QueriesReportTheDerivedQuantities : Prop :=
  (∀ (a n : Word) (q : List Byte), decode ⟨0x02000000, a, n, q⟩ = .ok .qbpe ∧ decode ⟨0x03000000, a, n, q⟩ = .ok .qbitpe ∧
    decode ⟨0x04000000, a, n, q⟩ = .ok .qrem ∧ decode ⟨0x05000000, a, n, q⟩ = .ok .qaln ∧
    decode ⟨0x06000000, a, n, q⟩ = .ok .qbidx) ∧
  (∀ (i : Instr) (s t : State), i.opcode ≠ .bind → exec i s = .next t → t.wc = s.wc) ∧
  ∀ s : State, s.Live →
    exec .qbpe s = .next (s.respond .ok (BitVec.ofNat 32 (s.wc.bits / 8)) []) ∧
    exec .qbitpe s = .next (s.respond .ok (BitVec.ofNat 32 (8 * s.wc.bytes)) []) ∧
    (∃ v, exec .qrem s = .next (s.respond .ok v []) ∧
      (v.toNat : Int) = (s.len.toNat : Int) * s.wc.bits - s.cidx.toNat * s.wc.bits - s.boff.toNat + 1 ∧
      (v = 0 ↔ s.cidx = s.len)) ∧
    exec .qaln s = .next (s.respond .ok (if (s.boff.toNat - 1) % 8 = 0 then 1 else 0) []) ∧
    (∃ v, exec .qbidx s = .next (s.respond .ok v []) ∧
      v.toNat = s.cidx.toNat * s.wc.bytes + (s.boff.toNat - 1) / 8 ∧ v.toNat = s.consumed / 8)

/-- R120: after any run of queries, with commands that end with an error among them, a query answers what it answered
before, and the run changes nothing but the responses returned. -/
def Obligations.QueriesAreIdempotent : Prop :=
  ∀ (l : List Instr) (s t : State), (∀ i ∈ l, i.opcode.cls = .query ∨ firstError i s ≠ none) →
    execAll l s = .next t →
    t = { s with responses := t.responses } ∧
    ∀ (i : Instr) (u v : State) (r r' : Response), i.opcode.cls = .query →
      Answers (exec i s) s u r → Answers (exec i t) t v r' → r' = r

/-- R37: under INV `remaining` is never negative, and it is 0 exactly when the cursor is exhausted. -/
def Obligations.RemainingIsZeroExactlyAtExhaustion : Prop :=
  ∀ s : State, s.CursorInv →
    0 ≤ s.remaining ∧ (s.remaining = 0 ↔ s.exhausted = true) ∧
    (s.cidx.toNat < s.len.toNat → 1 ≤ s.remaining) ∧ (s.cidx = s.len → s.boff = 1 ∧ s.remaining = 0)

/-- R38: under INV `aligned` is `(BOFF - 1) mod 8 == 0`, so BOFF is then one of 1, 9, 17, 25, and every exhausted cursor
is aligned. -/
def Obligations.AlignmentIsDecidedByTheOffset : Prop :=
  ∀ s : State, s.CursorInv →
    (s.aligned = true ↔ (s.boff.toNat - 1) % 8 = 0) ∧
    (s.aligned = true ↔
      (s.boff.toNat = 1 ∨ s.boff.toNat = 9 ∨ s.boff.toNat = 17 ∨ s.boff.toNat = 25) ∧ s.boff.toNat ≤ s.wc.bits) ∧
    (s.exhausted = true → s.aligned = true)

/-- R39: under INV `byteIndex` is `consumed div 8`, where `consumed = LEN*W - remaining`, and at every alignment boundary
`consumed` is 8 times it. -/
def Obligations.ByteIndexCountsWholeBytesConsumed : Prop :=
  ∀ s : State, s.CursorInv →
    (s.capacity : Int) - s.remaining = s.consumed ∧ s.byteIndex = ((s.capacity : Int) - s.remaining) / 8 ∧
    (s.aligned = true → (s.capacity : Int) - s.remaining = 8 * s.byteIndex)

/-- R110, R111, R112: under its precondition Advance(n) decreases `remaining` by exactly `n`, keeps INV, moves the stream
position by exactly `n`, and carries into the next cell, with BOFF back at 1, exactly when `BOFF + n` is `W + 1`.
`byteIndex` grows by 1 for `n = 8`, and for `n = 1` by 1 exactly when the bit is a byte's last: R112's own `n div 8` misses
that last case, where R34 and R39 count the byte (log entry 11). -/
def Obligations.AdvanceMovesByExactlyItsArgument : Prop :=
  ∀ (s : State) (n : Nat), s.Live → s.cidx.toNat < s.len.toNat → (n = 1 ∨ (n = 8 ∧ s.aligned = true)) →
    (s.advance n).remaining = s.remaining - n ∧ (s.advance n).consumed = s.consumed + n ∧
    (s.advance n).CursorInv ∧ s.boff.toNat + n ≤ s.wc.bits + 1 ∧
    (s.boff.toNat + n = s.wc.bits + 1 → (s.advance n).cidx.toNat = s.cidx.toNat + 1 ∧ (s.advance n).boff = 1) ∧
    (s.boff.toNat + n ≠ s.wc.bits + 1 →
      (s.advance n).cidx = s.cidx ∧ (s.advance n).boff.toNat = s.boff.toNat + n) ∧
    (s.advance n).byteIndex = s.byteIndex + (if n = 8 ∨ s.boff.toNat % 8 = 0 then 1 else 0)

/-- R121: every command but BIND changes `remaining` by exactly minus the bits it consumes, so that it never rises and
never goes below 0; a BIND that answers OK starts with `LEN * W`. -/
def Obligations.RemainingFallsByTheBitsConsumed : Prop :=
  (∀ (i : Instr) (s t : State), s.Live → i.opcode ≠ .bind → exec i s = .next t →
    t.remaining = s.remaining - bitsConsumed i s ∧ 0 ≤ t.remaining ∧ t.remaining ≤ s.remaining) ∧
  (∀ (m : Mode) (w : Width) (l : Word) (s t : State) (r : Response),
    Answers (exec (.bind m w l) s) s t r → r.status = .ok → t.remaining = l.toNat * w.bits)

/-- R113: in a state that meets the invariant every count of a bound block fits its port: `remaining`, `byteIndex`, CIDX
and ITER have the rule's bounds, and no command but BIND reads or writes more bits than remain. -/
def Obligations.EveryCountFitsItsPort : Prop :=
  ∀ s : State, s.Inv → s.bound = true →
    s.remaining ≤ s.capacity ∧ s.capacity ≤ 2 ^ 32 - 1 ∧
    s.byteIndex ≤ s.len.toNat * s.wc.bytes ∧ s.len.toNat * s.wc.bytes < 2 ^ 29 ∧
    s.cidx.toNat ≤ s.len.toNat ∧ s.len.toNat < 2 ^ 29 ∧ s.iter.toNat ≤ s.capacity ∧
    ∀ (i : Instr) (t : State), i.opcode ≠ .bind → exec i s = .next t →
      ∃ k : Nat, (k : Int) ≤ s.remaining ∧ t.consumed = s.consumed + k

/-! ## The reader unit -/

/-- R141: RDBIT answers the bit at the stream position and moves one bit on; at exhaustion it answers END and changes
nothing. -/
def Obligations.RdbitReadsTheNextBit : Prop :=
  (∀ (a n : Word) (q : List Byte), decode ⟨0x10000000, a, n, q⟩ = .ok .rdbit) ∧
  ∀ s : State, s.Live → s.mode = .reader →
    (s.consumed < s.capacity → exec .rdbit s = .next ((s.moveTo (s.consumed + 1)).respond .ok
      (if streamBit s.mem s.bufferId s.consumed then 1 else 0) [])) ∧
    (s.consumed = s.capacity → exec .rdbit s = .next (s.respond .endOfData 0 []))

/-- R142: RDBITS answers the fold of the next `n` bits and moves `n` bits on; a negative `n`, or more bits than remain,
is an error that changes nothing. -/
def Obligations.RdbitsFoldsTheNextBits : Prop :=
  (∀ (a n : Word) (q : List Byte), decode ⟨0x11000000, a, n, q⟩ = .ok (.rdbits n.toInt)) ∧
  ∀ (n : Int) (s : State), s.Live → s.mode = .reader →
    (n < 0 → exec (.rdbits n) s = .next (s.respond .invalidArgument 0 [])) ∧
    (s.remaining < n → exec (.rdbits n) s = .next (s.respond .insufficientData 0 [])) ∧
    (0 ≤ n → n ≤ s.remaining → exec (.rdbits n) s = .next ((s.moveTo (s.consumed + n.toNat)).respond .ok
      (fold (streamBits s.mem s.bufferId s.consumed n.toNat)) []))

/-- R143: RDBITSS answers exactly `n` elements, the bits that remain and then END, and moves on by as many bits as it
read; a negative `n` is an error that changes nothing. -/
def Obligations.RdbitssPadsWithEnd : Prop :=
  (∀ (a n : Word) (q : List Byte), decode ⟨0x12000000, a, n, q⟩ = .ok (.rdbitss n.toInt)) ∧
  ∀ (n : Int) (s : State), s.Live → s.mode = .reader →
    (n < 0 → exec (.rdbitss n) s = .next (s.respond .invalidArgument 0 [])) ∧
    (0 ≤ n → ∃ q : List SeqElement,
      exec (.rdbitss n) s = .next ((s.moveTo (min (s.consumed + n.toNat) s.capacity)).respond .ok 0 q) ∧
      q.length = n.toNat ∧
      ∀ k, k < n.toNat → q[k]? = some (.two (if s.consumed + k < s.capacity then
        (if streamBit s.mem s.bufferId (s.consumed + k) then 0b01 else 0b00) else 0b10)))

/-- R148: COLLECT answers the fold of the sequence it is given and touches neither cursor nor buffer. -/
def Obligations.CollectFoldsItsSequence : Prop :=
  (∀ (a n : Word) (bits : List Bool), decode ⟨0x13000000, a, n, bits.map bitLane⟩ = .ok (.collect bits)) ∧
  ∀ (bits : List Bool) (s : State), s.bound = true → s.mode = .reader →
    exec (.collect bits) s = .next (s.respond .ok
      (BitVec.ofNat 32 (bits.foldl (fun r b => 2 * r + (if b then 1 else 0)) 0)) [])

/-- R149: Fold packs most significant bit first; up to 32 bits it is their exact value, and beyond 32 it is that of the
last 32. -/
def Obligations.FoldPacksMostSignificantFirst : Prop :=
  (∀ bits : List Bool, bits.length ≤ 32 → ∀ j, j < bits.length →
    (fold bits).getLsbD (bits.length - 1 - j) = bits.getD j false) ∧
  (∀ bits : List Bool, bits.length ≤ 32 → (fold bits).toNat < 2 ^ bits.length) ∧
  (∀ bits : List Bool, 32 < bits.length → fold bits = fold (bits.drop (bits.length - 32)))

/-- R145: RDBYTE at an aligned cursor answers the next byte of the stream and moves eight bits on; elsewhere it is
misaligned, and at exhaustion it answers END and changes nothing. -/
def Obligations.RdbyteReadsTheNextByte : Prop :=
  (∀ (a n : Word) (q : List Byte), decode ⟨0x14000000, a, n, q⟩ = .ok .rdbyte) ∧
  ∀ s : State, s.Live → s.mode = .reader →
    (s.consumed % 8 ≠ 0 → exec .rdbyte s = .next (s.respond .misalignedAccess 0 [])) ∧
    (s.consumed % 8 = 0 → s.consumed < s.capacity → exec .rdbyte s = .next ((s.moveTo (s.consumed + 8)).respond .ok
      ((streamByte s.mem s.bufferId (s.consumed / 8)).setWidth 32) [])) ∧
    (s.consumed = s.capacity → exec .rdbyte s = .next (s.respond .endOfData 0 []))

/-- R146: RDBYTES at an aligned cursor answers exactly `n` elements, the bytes that remain and then END; a negative `n`,
and then a misaligned cursor even for `n = 0`, is an error that changes nothing. -/
def Obligations.RdbytesPadsWithEnd : Prop :=
  (∀ (a n : Word) (q : List Byte), decode ⟨0x15000000, a, n, q⟩ = .ok (.rdbytes n.toInt)) ∧
  ∀ (n : Int) (s : State), s.Live → s.mode = .reader →
    (n < 0 → exec (.rdbytes n) s = .next (s.respond .invalidArgument 0 [])) ∧
    (0 ≤ n → s.consumed % 8 ≠ 0 → exec (.rdbytes n) s = .next (s.respond .misalignedAccess 0 [])) ∧
    (0 ≤ n → s.consumed % 8 = 0 → ∃ q : List SeqElement,
      exec (.rdbytes n) s = .next ((s.moveTo (min (s.consumed + 8 * n.toNat) s.capacity)).respond .ok 0 q) ∧
      q.length = n.toNat ∧
      ∀ k, k < n.toNat → q[k]? = some (.nine (if s.consumed + 8 * k < s.capacity then
        (streamByte s.mem s.bufferId (s.consumed / 8 + k)).setWidth 9 else 0b100000000)))

/-- R147: RDALL answers the fold of every bit that remains and leaves the cursor exhausted. -/
def Obligations.RdallFoldsEveryRemainingBit : Prop :=
  (∀ (a n : Word) (q : List Byte), decode ⟨0x16000000, a, n, q⟩ = .ok .rdall) ∧
  ∀ s : State, s.Live → s.mode = .reader →
    exec .rdall s = .next ((s.moveTo s.capacity).respond .ok
      (fold (streamBits s.mem s.bufferId s.consumed (s.capacity - s.consumed))) []) ∧
    (s.moveTo s.capacity).exhausted = true

/-- R99: RDALL does what RDBITS of the remaining count does; NEXT does what RDBIT does but for ITER, and answers the same
bit, until exhaustion, where RDBIT answers END with 0 and NEXT END with ITER. -/
def Obligations.RdallAndNextHaveTheStatedEquivalents : Prop :=
  ∀ s : State, s.Live → s.mode = .reader →
    exec .rdall s = exec (.rdbits s.remaining) s ∧
    (s.consumed < s.capacity → ∃ t, exec .rdbit s = .next t ∧ exec .next s = .next (t.setIter (s.iter + 1))) ∧
    (s.consumed = s.capacity → exec .rdbit s = .next (s.respond .endOfData 0 []) ∧
      exec .next s = .next (s.respond .endOfData s.iter []))

/-- R153: NEXT answers the bit at the stream position, moves one bit on and counts it in ITER; at exhaustion it answers
END with ITER and changes nothing; no other command but BIND touches ITER. -/
def Obligations.NextReadsAndCountsOneBit : Prop :=
  (∀ (a n : Word) (q : List Byte), decode ⟨0x17000000, a, n, q⟩ = .ok .next) ∧
  (∀ s : State, s.Live → s.mode = .reader →
    (s.consumed < s.capacity → exec .next s = .next (((s.moveTo (s.consumed + 1)).setIter (s.iter + 1)).respond .ok
      (if streamBit s.mem s.bufferId s.consumed then 1 else 0) [])) ∧
    (s.consumed = s.capacity → exec .next s = .next (s.respond .endOfData s.iter []))) ∧
  (∀ (i : Instr) (s t : State), exec i s = .next t → i.opcode ≠ .next → i.opcode ≠ .bind → t.iter = s.iter)

/-- R154: once the cursor is exhausted, after any run of commands without a BIND every NEXT answers END with the same
ITER. -/
def Obligations.IterationIsNotRestartable : Prop :=
  ∀ (l : List Instr) (s t : State), s.Live → s.mode = .reader → s.consumed = s.capacity →
    (∀ i ∈ l, i.opcode ≠ .bind) → execAll l s = .next t →
    exec .next t = .next (t.respond .endOfData s.iter [])

/-- R150: RDBITS n returns what COLLECT returns for the bits of `n` successive RDBITs. -/
def Obligations.RdbitsAgreesWithCollectOfRdbit : Prop :=
  ∀ (n : Nat) (s t : State), s.Live → s.mode = .reader → (n : Int) ≤ s.remaining →
    execAll (List.replicate n .rdbit) s = .next t →
    ∃ rs : List Response, t.responses = s.responses ++ rs ∧ rs.length = n ∧
      ∃ u v r, Answers (exec (.rdbits n) s) s u r ∧
        Answers (exec (.collect (rs.map fun x => x.rval.getLsbD 0)) t) t v r

/-- R155: no reader command changes the buffers, the binding or the host's side; a reader command changes only CIDX, BOFF
and, for NEXT, ITER, and returns one response. -/
def Obligations.ReaderCommandsChangeOnlyTheCursor : Prop :=
  ∀ (i : Instr) (s t : State), i.opcode.cls = .reader → exec i s = .next t →
    (∀ a, t.mem.read a = s.mem.read a) ∧ t.mem = s.mem ∧
    t = { s with cidx := t.cidx, boff := t.boff, iter := t.iter, responses := t.responses } ∧
    (i.opcode ≠ .next → t.iter = s.iter) ∧ (∃ r, t.responses = s.responses ++ [r])

/-! ## The writer unit -/

/-- R181: WRBIT ORs its bit in at the stream position, moves one bit on and answers 1; at exhaustion it answers 0 and
changes nothing. -/
def Obligations.WrbitWritesOneBit : Prop :=
  (∀ (a n : Word) (q : List Byte), decode ⟨0x20000000, a, n, q⟩ = .ok (.wrbit false) ∧
    decode ⟨0x20000001, a, n, q⟩ = .ok (.wrbit true)) ∧
  ∀ (bit : Bool) (s : State), s.Live → s.mem.wf = true → s.mode = .writer →
    (s.consumed < s.capacity → ∃ m,
      exec (.wrbit bit) s = .next (((s.moveTo (s.consumed + 1)).setMem m).respond .ok 1 []) ∧
      OrsBits s.mem m s.bufferId s.consumed [bit]) ∧
    (s.consumed = s.capacity → exec (.wrbit bit) s = .next (s.respond .ok 0 []))

/-- R182: WRBITS ORs in as many of its bits as remain, in order, and answers how many. -/
def Obligations.WrbitsWritesWhatFits : Prop :=
  (∀ (a n : Word) (bits : List Bool), decode ⟨0x21000000, a, n, bits.map bitLane⟩ = .ok (.wrbits bits)) ∧
  ∀ (bits : List Bool) (s : State), s.Live → s.mem.wf = true → s.mode = .writer →
    ∃ m, exec (.wrbits bits) s = .next (((s.moveTo (s.consumed + min bits.length (s.capacity - s.consumed))).setMem
        m).respond .ok (BitVec.ofNat 32 (min bits.length (s.capacity - s.consumed))) []) ∧
      OrsBits s.mem m s.bufferId s.consumed (bits.take (s.capacity - s.consumed))

/-- R183: WRBITSV ORs in the bits `n-1` down to 0 of its value, positions at 32 and above as 0, as many as remain, and
answers how many; a negative `n` is an error that changes nothing. -/
def Obligations.WrbitsvWritesTheLowBits : Prop :=
  (∀ (a n : Word) (q : List Byte), decode ⟨0x22000000, a, n, q⟩ = .ok (.wrbitsv a n.toInt)) ∧
  ∀ (value : Word) (n : Int) (s : State), s.Live → s.mem.wf = true → s.mode = .writer →
    (n < 0 → exec (.wrbitsv value n) s = .next (s.respond .invalidArgument 0 [])) ∧
    (0 ≤ n → ∃ m, exec (.wrbitsv value n) s =
        .next (((s.moveTo (s.consumed + min n.toNat (s.capacity - s.consumed))).setMem m).respond .ok
          (BitVec.ofNat 32 (min n.toNat (s.capacity - s.consumed))) []) ∧
      OrsBits s.mem m s.bufferId s.consumed
        (((List.range n.toNat).map fun j => decide (n.toNat - 1 - j < 32) && value.getLsbD (n.toNat - 1 - j)).take
          (s.capacity - s.consumed)))

/-- R185: WRBYTE at an aligned cursor ORs its byte in, moves eight bits on and answers 1; a value of 256 or more, and
then a misaligned cursor, is an error that changes nothing; at exhaustion it answers 0 and changes nothing. -/
def Obligations.WrbyteWritesOneByte : Prop :=
  (∀ (a n : Word) (q : List Byte), decode ⟨0x23000000, a, n, q⟩ = .ok (.wrbyte a)) ∧
  ∀ (b : Word) (s : State), s.Live → s.mem.wf = true → s.mode = .writer →
    (256 ≤ b.toNat → exec (.wrbyte b) s = .next (s.respond .invalidArgument 0 [])) ∧
    (b.toNat < 256 → s.consumed % 8 ≠ 0 → exec (.wrbyte b) s = .next (s.respond .misalignedAccess 0 [])) ∧
    (b.toNat < 256 → s.consumed % 8 = 0 → s.consumed < s.capacity → ∃ m,
      exec (.wrbyte b) s = .next (((s.moveTo (s.consumed + 8)).setMem m).respond .ok 1 []) ∧
      OrsBits s.mem m s.bufferId s.consumed (byteBits (b.setWidth 8))) ∧
    (b.toNat < 256 → s.consumed = s.capacity → exec (.wrbyte b) s = .next (s.respond .ok 0 []))

/-- R186: WRBYTES at an aligned cursor ORs in as many of its bytes as fit, in order, and answers how many; a misaligned
cursor is an error that changes nothing, even for an empty sequence. -/
def Obligations.WrbytesWritesWhatFits : Prop :=
  (∀ (a n : Word) (q : List Byte), decode ⟨0x24000000, a, n, q⟩ = .ok (.wrbytes q)) ∧
  ∀ (bytes : List Byte) (s : State), s.Live → s.mem.wf = true → s.mode = .writer →
    (s.consumed % 8 ≠ 0 → exec (.wrbytes bytes) s = .next (s.respond .misalignedAccess 0 [])) ∧
    (s.consumed % 8 = 0 → ∃ m, exec (.wrbytes bytes) s =
        .next (((s.moveTo (s.consumed + 8 * min bytes.length ((s.capacity - s.consumed) / 8))).setMem m).respond .ok
          (BitVec.ofNat 32 (min bytes.length ((s.capacity - s.consumed) / 8))) []) ∧
      OrsBits s.mem m s.bufferId s.consumed
        ((bytes.take ((s.capacity - s.consumed) / 8)).flatMap byteBits))

/-- R187: WRBYTESV at an aligned cursor ORs in the bytes `n-1` down to 0 of its value, positions at 4 and above as 0, as
many as fit, and answers how many; a negative `n`, and then a misaligned cursor, is an error that changes nothing. -/
def Obligations.WrbytesvWritesTheLowBytes : Prop :=
  (∀ (a n : Word) (q : List Byte), decode ⟨0x25000000, a, n, q⟩ = .ok (.wrbytesv a n.toInt)) ∧
  ∀ (value : Word) (n : Int) (s : State), s.Live → s.mem.wf = true → s.mode = .writer →
    (n < 0 → exec (.wrbytesv value n) s = .next (s.respond .invalidArgument 0 [])) ∧
    (0 ≤ n → s.consumed % 8 ≠ 0 → exec (.wrbytesv value n) s = .next (s.respond .misalignedAccess 0 [])) ∧
    (0 ≤ n → s.consumed % 8 = 0 → ∃ m, exec (.wrbytesv value n) s =
        .next (((s.moveTo (s.consumed + 8 * min n.toNat ((s.capacity - s.consumed) / 8))).setMem m).respond .ok
          (BitVec.ofNat 32 (min n.toNat ((s.capacity - s.consumed) / 8))) []) ∧
      OrsBits s.mem m s.bufferId s.consumed
        ((((List.range n.toNat).map fun j => if n.toNat - 1 - j < 4 then
            value.extractLsb' (8 * (n.toNat - 1 - j)) 8 else 0).take
          ((s.capacity - s.consumed) / 8)).flatMap byteBits))

/-- The frame of the writer commands, for every form and in every state: only the cursor, the buffers and the responses
may change; no byte of memory changes outside the cells of the bound buffer from the cursor's cell before to its cell
after, and for WRBIT and WRBYTE none outside the cell at the cursor. -/
def Obligations.WriterCommandsFrame : Prop :=
  ∀ (i : Instr) (s t : State), i.opcode.cls = .writer → exec i s = .next t →
    t = { s with cidx := t.cidx, boff := t.boff, mem := t.mem, responses := t.responses } ∧
    (∃ r, t.responses = s.responses ++ [r]) ∧ s.cidx.toNat ≤ t.cidx.toNat ∧
    (∀ a, (a < s.bufferId.cellAddr s.cidx.toNat ∨ s.bufferId.cellAddr t.cidx.toNat + s.wc.bytes ≤ a) →
      t.mem.read a = s.mem.read a) ∧
    (i.opcode = .wrbit ∨ i.opcode = .wrbyte →
      ∀ a, (a < s.bufferId.cellAddr s.cidx.toNat ∨ s.bufferId.cellAddr s.cidx.toNat + s.wc.bytes ≤ a) →
        t.mem.read a = s.mem.read a)

/-- The frame of BIND, the queries and COLLECT, in every state: BIND writes only the block's registers and its reference
to the buffer; a query and COLLECT write nothing; none of them changes a byte of memory. -/
def Obligations.BindQueriesAndCollectFrame : Prop :=
  (∀ (m : Mode) (w : Width) (l : Word) (s t : State), exec (.bind m w l) s = .next t →
    (∀ a, t.mem.read a = s.mem.read a) ∧ t.mem = s.mem ∧ t.designated = s.designated ∧ t.pending = s.pending ∧
    (∃ r, t.responses = s.responses ++ [r])) ∧
  (∀ (i : Instr) (s t : State), (i.opcode.cls = .query ∨ i.opcode = .collect) → exec i s = .next t →
    (∀ a, t.mem.read a = s.mem.read a) ∧ t = { s with responses := t.responses } ∧
    (∃ r, t.responses = s.responses ++ [r]))

/-- R53: no command clears a bit of any byte. -/
def Obligations.CommandsNeverClearABit : Prop :=
  ∀ (i : Instr) (s t : State) (a : Nat), s.mem.wf = true → exec i s = .next t →
    s.mem.read a &&& t.mem.read a = s.mem.read a

/-- R189: a write that is cut short leaves the cursor exhausted; with the cursor exhausted every writer command that is
not malformed answers OK with RVAL 0 and changes nothing. -/
def Obligations.AFullBufferTakesNothingMore : Prop :=
  (∀ (i : Instr) (s t : State) (r : Response), s.Live → s.mem.wf = true → i.opcode.cls = .writer →
    Answers (exec i s) s t r → r.status.isError = false → t.consumed < s.consumed + (requestedBits i).length →
    t.consumed = t.capacity ∧ t.remaining = 0) ∧
  ∀ (i : Instr) (s : State), s.Live → s.mode = .writer → s.consumed = s.capacity → i.opcode.cls = .writer →
    (malformed i = true → exec i s = .next (s.respond .invalidArgument 0 [])) ∧
    (malformed i = false → exec i s = .next (s.respond .ok 0 []))

/-- R188: a writer command that does not end with an error writes a leading part of the bits it asks to write, in order,
answers its length in bits or bytes, and touches no other bit. -/
def Obligations.WritersWriteALeadingPart : Prop :=
  ∀ (i : Instr) (s t : State) (r : Response), s.Live → s.mem.wf = true → i.opcode.cls = .writer →
    Answers (exec i s) s t r → r.status.isError = false →
    ∃ k, k ≤ (requestedBits i).length ∧ t.consumed = s.consumed + k ∧
      OrsBits s.mem t.mem s.bufferId s.consumed ((requestedBits i).take k) ∧
      r.rval = BitVec.ofNat 32 (if needsAlignment i then k / 8 else k) ∧ (needsAlignment i = true → k % 8 = 0)

/-- R190: bind a writer over a zeroed buffer, write bits that fit by any mix of writer commands that all answer OK, bind a
reader over the same buffer, and read as many bits: they are the bits written. -/
def Obligations.WrittenBitsAreReadBack : Prop :=
  ∀ (w : Width) (len : Word) (l : List Instr) (s s1 s2 s3 : State),
    s.mem.wf = true → len.toNat * w.bits ≤ 2 ^ 32 - 1 →
    (∀ p, p < len.toNat * w.bits → streamBit s.mem ⟨s.designated, w, len⟩ p = false) →
    exec (.bind .writer w len) s = .next s1 →
    (∀ i ∈ l, i.opcode.cls = .writer) → (l.flatMap requestedBits).length ≤ len.toNat * w.bits →
    execAll l s1 = .next s2 →
    (∀ r ∈ s2.responses.drop s1.responses.length, r.status = .ok) →
    exec (.bind .reader w len) s2 = .next s3 →
    exec (.rdbitss (l.flatMap requestedBits).length) s3 =
      .next ((s3.moveTo (l.flatMap requestedBits).length).respond .ok 0
        ((l.flatMap requestedBits).map fun b => .two (if b then 0b01 else 0b00)))

/-- R191: what a writer command answers, and what it leaves in every register, is the same whatever the buffers hold. -/
def Obligations.WritersNeverReportContents : Prop :=
  ∀ (i : Instr) (s t : State) (m : Memory), i.opcode.cls = .writer → exec i s = .next t →
    ∃ m', exec i (s.setMem m) = .next (t.setMem m')

/-- R258, R63, R67: a command sees the host's write: after a host write of the cell at the cursor, RDBIT answers the bit of
the value written, with the cursor where it was before the write. -/
def Obligations.ALaterCommandSeesAHostWrite : Prop :=
  ∀ (s t : State) (v : Word) (rest : List HostAction), s.Live → s.mem.wf = true → s.mode = .reader →
    s.consumed < s.capacity → v.toNat < 2 ^ s.wc.bits →
    s.pending = .hostWrite s.bufferId s.cidx.toNat v :: .command ⟨0x10000000, 0, 0, []⟩ :: rest →
    step s = .next t →
    t.cidx = s.cidx ∧ t.boff = s.boff ∧
    ∃ u, step t = .next u ∧ u.consumed = s.consumed + 1 ∧
      u.responses = s.responses ++
        [{ status := .ok, rval := if v.getLsbD (s.wc.bits - s.boff.toNat) then 1 else 0, rseq := [] }]

/-! ## What no command reads, and the streams -/

/-- R22: no command reads an earlier response: with any other responses before it, it does the same and adds the same
response. -/
def Obligations.EarlierResponsesAreNeverRead : Prop :=
  ∀ (i : Instr) (s t : State) (rs : List Response) (r : Response),
    exec i s = .next t → t.responses = s.responses ++ [r] →
    exec i { s with responses := rs } = .next { t with responses := rs ++ [r] }

/-- R56: `StreamByte(j)` is the eight bits `StreamBit(8j)` to `StreamBit(8j+7)`, most significant first. -/
def Obligations.StreamByteIsEightStreamBits : Prop :=
  ∀ (m : Memory) (b : BufferId) (j k : Nat), k < 8 →
    (streamByte m b j).getLsbD (7 - k) = streamBit m b (8 * j + k)

/-- R69: two buffers whose cells, taken apart into bytes most significant first, give one byte sequence have the same
stream of bits and of bytes, whatever their cell widths. -/
def Obligations.StreamsDependOnlyOnTheByteImage : Prop :=
  ∀ (m m' : Memory) (b b' : BufferId), b.bits = b'.bits →
    ((List.range b.len.toNat).flatMap fun i => (List.range b.wc.bytes).map fun k =>
        (readCell m b i).extractLsb' (8 * (b.wc.bytes - 1 - k)) 8) =
      ((List.range b'.len.toNat).flatMap fun i => (List.range b'.wc.bytes).map fun k =>
        (readCell m' b' i).extractLsb' (8 * (b'.wc.bytes - 1 - k)) 8) →
    (∀ p, p < b.bits → streamBit m b p = streamBit m' b' p) ∧
    (∀ j, j < b.bits / 8 → streamByte m b j = streamByte m' b' j)

/-- R95, R96: RSEQ holds elements only in a response to RDBITSS, each 00, 01 or 10, or to RDBYTES, each a byte or
1_00000000. -/
def Obligations.SequenceElementsAreLegal : Prop :=
  ∀ (i : Instr) (s t : State) (r : Response), Answers (exec i s) s t r →
    (i.opcode ≠ .rdbitss → i.opcode ≠ .rdbytes → r.rseq = []) ∧
    (i.opcode = .rdbitss → ∀ e ∈ r.rseq, e = .two 0b00 ∨ e = .two 0b01 ∨ e = .two 0b10) ∧
    (i.opcode = .rdbytes → ∀ e ∈ r.rseq, ∃ x : BitVec 9, e = .nine x ∧ (x.toNat < 256 ∨ x = 0b100000000))
end

