-- ==== Sys2Proof/Laws/State.lean ====
section
/-! SUPPORT. One lemma per field per update of the state, each true by unfolding the update once, so that no proof
unfolds a record update. -/

namespace Sys2Proof.Machine

variable (s : State)

@[simp] theorem State.setCursor_bound (c : Word) (o : BitVec 6) : (s.setCursor c o).bound = s.bound := rfl
@[simp] theorem State.setCursor_mode (c : Word) (o : BitVec 6) : (s.setCursor c o).mode = s.mode := rfl
@[simp] theorem State.setCursor_wc (c : Word) (o : BitVec 6) : (s.setCursor c o).wc = s.wc := rfl
@[simp] theorem State.setCursor_len (c : Word) (o : BitVec 6) : (s.setCursor c o).len = s.len := rfl
@[simp] theorem State.setCursor_cidx (c : Word) (o : BitVec 6) : (s.setCursor c o).cidx = c := rfl
@[simp] theorem State.setCursor_boff (c : Word) (o : BitVec 6) : (s.setCursor c o).boff = o := rfl
@[simp] theorem State.setCursor_iter (c : Word) (o : BitVec 6) : (s.setCursor c o).iter = s.iter := rfl
@[simp] theorem State.setCursor_buf (c : Word) (o : BitVec 6) : (s.setCursor c o).buf = s.buf := rfl
@[simp] theorem State.setCursor_mem (c : Word) (o : BitVec 6) : (s.setCursor c o).mem = s.mem := rfl
@[simp] theorem State.setCursor_designated (c : Word) (o : BitVec 6) : (s.setCursor c o).designated = s.designated := rfl
@[simp] theorem State.setCursor_pending (c : Word) (o : BitVec 6) : (s.setCursor c o).pending = s.pending := rfl
@[simp] theorem State.setCursor_responses (c : Word) (o : BitVec 6) : (s.setCursor c o).responses = s.responses := rfl

@[simp] theorem State.setIter_bound (n : Word) : (s.setIter n).bound = s.bound := rfl
@[simp] theorem State.setIter_mode (n : Word) : (s.setIter n).mode = s.mode := rfl
@[simp] theorem State.setIter_wc (n : Word) : (s.setIter n).wc = s.wc := rfl
@[simp] theorem State.setIter_len (n : Word) : (s.setIter n).len = s.len := rfl
@[simp] theorem State.setIter_cidx (n : Word) : (s.setIter n).cidx = s.cidx := rfl
@[simp] theorem State.setIter_boff (n : Word) : (s.setIter n).boff = s.boff := rfl
@[simp] theorem State.setIter_iter (n : Word) : (s.setIter n).iter = n := rfl
@[simp] theorem State.setIter_buf (n : Word) : (s.setIter n).buf = s.buf := rfl
@[simp] theorem State.setIter_mem (n : Word) : (s.setIter n).mem = s.mem := rfl
@[simp] theorem State.setIter_designated (n : Word) : (s.setIter n).designated = s.designated := rfl
@[simp] theorem State.setIter_pending (n : Word) : (s.setIter n).pending = s.pending := rfl
@[simp] theorem State.setIter_responses (n : Word) : (s.setIter n).responses = s.responses := rfl

@[simp] theorem State.setMem_bound (m : Memory) : (s.setMem m).bound = s.bound := rfl
@[simp] theorem State.setMem_mode (m : Memory) : (s.setMem m).mode = s.mode := rfl
@[simp] theorem State.setMem_wc (m : Memory) : (s.setMem m).wc = s.wc := rfl
@[simp] theorem State.setMem_len (m : Memory) : (s.setMem m).len = s.len := rfl
@[simp] theorem State.setMem_cidx (m : Memory) : (s.setMem m).cidx = s.cidx := rfl
@[simp] theorem State.setMem_boff (m : Memory) : (s.setMem m).boff = s.boff := rfl
@[simp] theorem State.setMem_iter (m : Memory) : (s.setMem m).iter = s.iter := rfl
@[simp] theorem State.setMem_buf (m : Memory) : (s.setMem m).buf = s.buf := rfl
@[simp] theorem State.setMem_mem (m : Memory) : (s.setMem m).mem = m := rfl
@[simp] theorem State.setMem_designated (m : Memory) : (s.setMem m).designated = s.designated := rfl
@[simp] theorem State.setMem_pending (m : Memory) : (s.setMem m).pending = s.pending := rfl
@[simp] theorem State.setMem_responses (m : Memory) : (s.setMem m).responses = s.responses := rfl

@[simp] theorem State.setPending_bound (p : List HostAction) : (s.setPending p).bound = s.bound := rfl
@[simp] theorem State.setPending_mode (p : List HostAction) : (s.setPending p).mode = s.mode := rfl
@[simp] theorem State.setPending_wc (p : List HostAction) : (s.setPending p).wc = s.wc := rfl
@[simp] theorem State.setPending_len (p : List HostAction) : (s.setPending p).len = s.len := rfl
@[simp] theorem State.setPending_cidx (p : List HostAction) : (s.setPending p).cidx = s.cidx := rfl
@[simp] theorem State.setPending_boff (p : List HostAction) : (s.setPending p).boff = s.boff := rfl
@[simp] theorem State.setPending_iter (p : List HostAction) : (s.setPending p).iter = s.iter := rfl
@[simp] theorem State.setPending_buf (p : List HostAction) : (s.setPending p).buf = s.buf := rfl
@[simp] theorem State.setPending_mem (p : List HostAction) : (s.setPending p).mem = s.mem := rfl
@[simp] theorem State.setPending_designated (p : List HostAction) : (s.setPending p).designated = s.designated := rfl
@[simp] theorem State.setPending_pending (p : List HostAction) : (s.setPending p).pending = p := rfl
@[simp] theorem State.setPending_responses (p : List HostAction) : (s.setPending p).responses = s.responses := rfl

@[simp] theorem State.setDesignated_bound (num : Nat) : (s.setDesignated num).bound = s.bound := rfl
@[simp] theorem State.setDesignated_mode (num : Nat) : (s.setDesignated num).mode = s.mode := rfl
@[simp] theorem State.setDesignated_wc (num : Nat) : (s.setDesignated num).wc = s.wc := rfl
@[simp] theorem State.setDesignated_len (num : Nat) : (s.setDesignated num).len = s.len := rfl
@[simp] theorem State.setDesignated_cidx (num : Nat) : (s.setDesignated num).cidx = s.cidx := rfl
@[simp] theorem State.setDesignated_boff (num : Nat) : (s.setDesignated num).boff = s.boff := rfl
@[simp] theorem State.setDesignated_iter (num : Nat) : (s.setDesignated num).iter = s.iter := rfl
@[simp] theorem State.setDesignated_buf (num : Nat) : (s.setDesignated num).buf = s.buf := rfl
@[simp] theorem State.setDesignated_mem (num : Nat) : (s.setDesignated num).mem = s.mem := rfl
@[simp] theorem State.setDesignated_designated (num : Nat) : (s.setDesignated num).designated = num := rfl
@[simp] theorem State.setDesignated_pending (num : Nat) : (s.setDesignated num).pending = s.pending := rfl
@[simp] theorem State.setDesignated_responses (num : Nat) : (s.setDesignated num).responses = s.responses := rfl

@[simp] theorem State.respond_bound (st : Status) (v : Word) (q : List SeqElement) : (s.respond st v q).bound = s.bound := rfl
@[simp] theorem State.respond_mode (st : Status) (v : Word) (q : List SeqElement) : (s.respond st v q).mode = s.mode := rfl
@[simp] theorem State.respond_wc (st : Status) (v : Word) (q : List SeqElement) : (s.respond st v q).wc = s.wc := rfl
@[simp] theorem State.respond_len (st : Status) (v : Word) (q : List SeqElement) : (s.respond st v q).len = s.len := rfl
@[simp] theorem State.respond_cidx (st : Status) (v : Word) (q : List SeqElement) : (s.respond st v q).cidx = s.cidx := rfl
@[simp] theorem State.respond_boff (st : Status) (v : Word) (q : List SeqElement) : (s.respond st v q).boff = s.boff := rfl
@[simp] theorem State.respond_iter (st : Status) (v : Word) (q : List SeqElement) : (s.respond st v q).iter = s.iter := rfl
@[simp] theorem State.respond_buf (st : Status) (v : Word) (q : List SeqElement) : (s.respond st v q).buf = s.buf := rfl
@[simp] theorem State.respond_mem (st : Status) (v : Word) (q : List SeqElement) : (s.respond st v q).mem = s.mem := rfl
@[simp] theorem State.respond_designated (st : Status) (v : Word) (q : List SeqElement) : (s.respond st v q).designated = s.designated := rfl
@[simp] theorem State.respond_pending (st : Status) (v : Word) (q : List SeqElement) : (s.respond st v q).pending = s.pending := rfl
@[simp] theorem State.respond_responses (st : Status) (v : Word) (q : List SeqElement) : (s.respond st v q).responses = s.responses ++ [{ status := st, rval := v, rseq := q }] := rfl

@[simp] theorem State.raise_bound (st : Status) : (s.raise st).bound = s.bound := rfl
@[simp] theorem State.raise_mode (st : Status) : (s.raise st).mode = s.mode := rfl
@[simp] theorem State.raise_wc (st : Status) : (s.raise st).wc = s.wc := rfl
@[simp] theorem State.raise_len (st : Status) : (s.raise st).len = s.len := rfl
@[simp] theorem State.raise_cidx (st : Status) : (s.raise st).cidx = s.cidx := rfl
@[simp] theorem State.raise_boff (st : Status) : (s.raise st).boff = s.boff := rfl
@[simp] theorem State.raise_iter (st : Status) : (s.raise st).iter = s.iter := rfl
@[simp] theorem State.raise_buf (st : Status) : (s.raise st).buf = s.buf := rfl
@[simp] theorem State.raise_mem (st : Status) : (s.raise st).mem = s.mem := rfl
@[simp] theorem State.raise_designated (st : Status) : (s.raise st).designated = s.designated := rfl
@[simp] theorem State.raise_pending (st : Status) : (s.raise st).pending = s.pending := rfl
@[simp] theorem State.raise_responses (st : Status) : (s.raise st).responses = s.responses ++ [{ status := st, rval := 0, rseq := [] }] := rfl

@[simp] theorem State.rebind_bound (mo : Mode) (w : Width) (l : Word) : (s.rebind mo w l).bound = true := rfl
@[simp] theorem State.rebind_mode (mo : Mode) (w : Width) (l : Word) : (s.rebind mo w l).mode = mo := rfl
@[simp] theorem State.rebind_wc (mo : Mode) (w : Width) (l : Word) : (s.rebind mo w l).wc = w := rfl
@[simp] theorem State.rebind_len (mo : Mode) (w : Width) (l : Word) : (s.rebind mo w l).len = l := rfl
@[simp] theorem State.rebind_cidx (mo : Mode) (w : Width) (l : Word) : (s.rebind mo w l).cidx = 0 := rfl
@[simp] theorem State.rebind_boff (mo : Mode) (w : Width) (l : Word) : (s.rebind mo w l).boff = 1 := rfl
@[simp] theorem State.rebind_iter (mo : Mode) (w : Width) (l : Word) : (s.rebind mo w l).iter = 0 := rfl
@[simp] theorem State.rebind_buf (mo : Mode) (w : Width) (l : Word) : (s.rebind mo w l).buf = s.designated := rfl
@[simp] theorem State.rebind_mem (mo : Mode) (w : Width) (l : Word) : (s.rebind mo w l).mem = s.mem := rfl
@[simp] theorem State.rebind_designated (mo : Mode) (w : Width) (l : Word) : (s.rebind mo w l).designated = s.designated := rfl
@[simp] theorem State.rebind_pending (mo : Mode) (w : Width) (l : Word) : (s.rebind mo w l).pending = s.pending := rfl
@[simp] theorem State.rebind_responses (mo : Mode) (w : Width) (l : Word) : (s.rebind mo w l).responses = s.responses := rfl

@[simp] theorem State.powerOn_bound : (s.powerOn).bound = State.reset.bound := rfl
@[simp] theorem State.powerOn_mode : (s.powerOn).mode = State.reset.mode := rfl
@[simp] theorem State.powerOn_wc : (s.powerOn).wc = State.reset.wc := rfl
@[simp] theorem State.powerOn_len : (s.powerOn).len = State.reset.len := rfl
@[simp] theorem State.powerOn_cidx : (s.powerOn).cidx = State.reset.cidx := rfl
@[simp] theorem State.powerOn_boff : (s.powerOn).boff = State.reset.boff := rfl
@[simp] theorem State.powerOn_iter : (s.powerOn).iter = State.reset.iter := rfl
@[simp] theorem State.powerOn_buf : (s.powerOn).buf = State.reset.buf := rfl
@[simp] theorem State.powerOn_mem : (s.powerOn).mem = s.mem := rfl
@[simp] theorem State.powerOn_designated : (s.powerOn).designated = s.designated := rfl
@[simp] theorem State.powerOn_pending : (s.powerOn).pending = s.pending := rfl
@[simp] theorem State.powerOn_responses : (s.powerOn).responses = s.responses := rfl

@[simp] theorem State.moveTo_bound (p : Nat) : (s.moveTo p).bound = s.bound := rfl
@[simp] theorem State.moveTo_mode (p : Nat) : (s.moveTo p).mode = s.mode := rfl
@[simp] theorem State.moveTo_wc (p : Nat) : (s.moveTo p).wc = s.wc := rfl
@[simp] theorem State.moveTo_len (p : Nat) : (s.moveTo p).len = s.len := rfl
@[simp] theorem State.moveTo_cidx (p : Nat) : (s.moveTo p).cidx = BitVec.ofNat 32 (p / s.wc.bits) := rfl
@[simp] theorem State.moveTo_boff (p : Nat) : (s.moveTo p).boff = BitVec.ofNat 6 (p % s.wc.bits + 1) := rfl
@[simp] theorem State.moveTo_iter (p : Nat) : (s.moveTo p).iter = s.iter := rfl
@[simp] theorem State.moveTo_buf (p : Nat) : (s.moveTo p).buf = s.buf := rfl
@[simp] theorem State.moveTo_mem (p : Nat) : (s.moveTo p).mem = s.mem := rfl
@[simp] theorem State.moveTo_designated (p : Nat) : (s.moveTo p).designated = s.designated := rfl
@[simp] theorem State.moveTo_pending (p : Nat) : (s.moveTo p).pending = s.pending := rfl
@[simp] theorem State.moveTo_responses (p : Nat) : (s.moveTo p).responses = s.responses := rfl

@[simp] theorem State.cellOr_bound (i : Nat) (v : Word) : (s.cellOr i v).bound = s.bound := rfl
@[simp] theorem State.cellOr_mode (i : Nat) (v : Word) : (s.cellOr i v).mode = s.mode := rfl
@[simp] theorem State.cellOr_wc (i : Nat) (v : Word) : (s.cellOr i v).wc = s.wc := rfl
@[simp] theorem State.cellOr_len (i : Nat) (v : Word) : (s.cellOr i v).len = s.len := rfl
@[simp] theorem State.cellOr_cidx (i : Nat) (v : Word) : (s.cellOr i v).cidx = s.cidx := rfl
@[simp] theorem State.cellOr_boff (i : Nat) (v : Word) : (s.cellOr i v).boff = s.boff := rfl
@[simp] theorem State.cellOr_iter (i : Nat) (v : Word) : (s.cellOr i v).iter = s.iter := rfl
@[simp] theorem State.cellOr_buf (i : Nat) (v : Word) : (s.cellOr i v).buf = s.buf := rfl
@[simp] theorem State.cellOr_mem (i : Nat) (v : Word) : (s.cellOr i v).mem = writeCell s.mem s.bufferId i (s.memRead i ||| v) := rfl
@[simp] theorem State.cellOr_designated (i : Nat) (v : Word) : (s.cellOr i v).designated = s.designated := rfl
@[simp] theorem State.cellOr_pending (i : Nat) (v : Word) : (s.cellOr i v).pending = s.pending := rfl
@[simp] theorem State.cellOr_responses (i : Nat) (v : Word) : (s.cellOr i v).responses = s.responses := rfl

@[simp] theorem State.setIter_consumed (n : Word) : (s.setIter n).consumed = s.consumed := rfl
@[simp] theorem State.setIter_capacity (n : Word) : (s.setIter n).capacity = s.capacity := rfl
@[simp] theorem State.setIter_remaining (n : Word) : (s.setIter n).remaining = s.remaining := rfl
@[simp] theorem State.setIter_byteIndex (n : Word) : (s.setIter n).byteIndex = s.byteIndex := rfl
@[simp] theorem State.setIter_aligned (n : Word) : (s.setIter n).aligned = s.aligned := rfl
@[simp] theorem State.setIter_exhausted (n : Word) : (s.setIter n).exhausted = s.exhausted := rfl
@[simp] theorem State.setIter_bufferId (n : Word) : (s.setIter n).bufferId = s.bufferId := rfl

@[simp] theorem State.setMem_consumed (m : Memory) : (s.setMem m).consumed = s.consumed := rfl
@[simp] theorem State.setMem_capacity (m : Memory) : (s.setMem m).capacity = s.capacity := rfl
@[simp] theorem State.setMem_remaining (m : Memory) : (s.setMem m).remaining = s.remaining := rfl
@[simp] theorem State.setMem_byteIndex (m : Memory) : (s.setMem m).byteIndex = s.byteIndex := rfl
@[simp] theorem State.setMem_aligned (m : Memory) : (s.setMem m).aligned = s.aligned := rfl
@[simp] theorem State.setMem_exhausted (m : Memory) : (s.setMem m).exhausted = s.exhausted := rfl
@[simp] theorem State.setMem_bufferId (m : Memory) : (s.setMem m).bufferId = s.bufferId := rfl

@[simp] theorem State.setPending_consumed (p : List HostAction) : (s.setPending p).consumed = s.consumed := rfl
@[simp] theorem State.setPending_capacity (p : List HostAction) : (s.setPending p).capacity = s.capacity := rfl
@[simp] theorem State.setPending_remaining (p : List HostAction) : (s.setPending p).remaining = s.remaining := rfl
@[simp] theorem State.setPending_byteIndex (p : List HostAction) : (s.setPending p).byteIndex = s.byteIndex := rfl
@[simp] theorem State.setPending_aligned (p : List HostAction) : (s.setPending p).aligned = s.aligned := rfl
@[simp] theorem State.setPending_exhausted (p : List HostAction) : (s.setPending p).exhausted = s.exhausted := rfl
@[simp] theorem State.setPending_bufferId (p : List HostAction) : (s.setPending p).bufferId = s.bufferId := rfl

@[simp] theorem State.setDesignated_consumed (num : Nat) : (s.setDesignated num).consumed = s.consumed := rfl
@[simp] theorem State.setDesignated_capacity (num : Nat) : (s.setDesignated num).capacity = s.capacity := rfl
@[simp] theorem State.setDesignated_remaining (num : Nat) : (s.setDesignated num).remaining = s.remaining := rfl
@[simp] theorem State.setDesignated_byteIndex (num : Nat) : (s.setDesignated num).byteIndex = s.byteIndex := rfl
@[simp] theorem State.setDesignated_aligned (num : Nat) : (s.setDesignated num).aligned = s.aligned := rfl
@[simp] theorem State.setDesignated_exhausted (num : Nat) : (s.setDesignated num).exhausted = s.exhausted := rfl
@[simp] theorem State.setDesignated_bufferId (num : Nat) : (s.setDesignated num).bufferId = s.bufferId := rfl

@[simp] theorem State.respond_consumed (st : Status) (v : Word) (q : List SeqElement) : (s.respond st v q).consumed = s.consumed := rfl
@[simp] theorem State.respond_capacity (st : Status) (v : Word) (q : List SeqElement) : (s.respond st v q).capacity = s.capacity := rfl
@[simp] theorem State.respond_remaining (st : Status) (v : Word) (q : List SeqElement) : (s.respond st v q).remaining = s.remaining := rfl
@[simp] theorem State.respond_byteIndex (st : Status) (v : Word) (q : List SeqElement) : (s.respond st v q).byteIndex = s.byteIndex := rfl
@[simp] theorem State.respond_aligned (st : Status) (v : Word) (q : List SeqElement) : (s.respond st v q).aligned = s.aligned := rfl
@[simp] theorem State.respond_exhausted (st : Status) (v : Word) (q : List SeqElement) : (s.respond st v q).exhausted = s.exhausted := rfl
@[simp] theorem State.respond_bufferId (st : Status) (v : Word) (q : List SeqElement) : (s.respond st v q).bufferId = s.bufferId := rfl

@[simp] theorem State.raise_consumed (st : Status) : (s.raise st).consumed = s.consumed := rfl
@[simp] theorem State.raise_capacity (st : Status) : (s.raise st).capacity = s.capacity := rfl
@[simp] theorem State.raise_remaining (st : Status) : (s.raise st).remaining = s.remaining := rfl
@[simp] theorem State.raise_byteIndex (st : Status) : (s.raise st).byteIndex = s.byteIndex := rfl
@[simp] theorem State.raise_aligned (st : Status) : (s.raise st).aligned = s.aligned := rfl
@[simp] theorem State.raise_exhausted (st : Status) : (s.raise st).exhausted = s.exhausted := rfl
@[simp] theorem State.raise_bufferId (st : Status) : (s.raise st).bufferId = s.bufferId := rfl

@[simp] theorem State.cellOr_consumed (i : Nat) (v : Word) : (s.cellOr i v).consumed = s.consumed := rfl
@[simp] theorem State.cellOr_capacity (i : Nat) (v : Word) : (s.cellOr i v).capacity = s.capacity := rfl
@[simp] theorem State.cellOr_remaining (i : Nat) (v : Word) : (s.cellOr i v).remaining = s.remaining := rfl
@[simp] theorem State.cellOr_byteIndex (i : Nat) (v : Word) : (s.cellOr i v).byteIndex = s.byteIndex := rfl
@[simp] theorem State.cellOr_aligned (i : Nat) (v : Word) : (s.cellOr i v).aligned = s.aligned := rfl
@[simp] theorem State.cellOr_exhausted (i : Nat) (v : Word) : (s.cellOr i v).exhausted = s.exhausted := rfl
@[simp] theorem State.cellOr_bufferId (i : Nat) (v : Word) : (s.cellOr i v).bufferId = s.bufferId := rfl

@[simp] theorem State.moveTo_capacity (p : Nat) : (s.moveTo p).capacity = s.capacity := rfl
@[simp] theorem State.setCursor_capacity (c : Word) (o : BitVec 6) : (s.setCursor c o).capacity = s.capacity := rfl
@[simp] theorem State.moveTo_bufferId (p : Nat) : (s.moveTo p).bufferId = s.bufferId := rfl
@[simp] theorem State.setCursor_bufferId (c : Word) (o : BitVec 6) : (s.setCursor c o).bufferId = s.bufferId := rfl

@[simp] theorem State.bufferId_wc : s.bufferId.wc = s.wc := rfl
@[simp] theorem State.bufferId_len : s.bufferId.len = s.len := rfl
@[simp] theorem State.bufferId_bits : s.bufferId.bits = s.capacity := rfl

@[simp] theorem State.setCursor_setCursor (c c' : Word) (o o' : BitVec 6) :
    (s.setCursor c o).setCursor c' o' = s.setCursor c' o' := rfl
@[simp] theorem State.moveTo_moveTo (p q : Nat) : (s.moveTo p).moveTo q = s.moveTo q := rfl
@[simp] theorem State.setMem_setMem (m m' : Memory) : (s.setMem m).setMem m' = s.setMem m' := rfl
@[simp] theorem State.setMem_moveTo (m : Memory) (p : Nat) : (s.setMem m).moveTo p = (s.moveTo p).setMem m := rfl
@[simp] theorem State.setMem_self : s.setMem s.mem = s := rfl

end Sys2Proof.Machine
end

