-- ==== Sys2Proof/Laws/Memory.lean ====
section
/-! SUPPORT. Memory: read after write, the canonical form, the buffers' address windows, and what a cell access does in
terms of the buffer's byte stream. -/

namespace Sys2Proof.Machine

/-! ## Bytes -/

theorem Memory.read_write_ne {a c : Nat} (h : c ≠ a) (x : Byte) (m : Memory) :
    (m.write a x).read c = m.read c := by
  induction m with
  | nil =>
    unfold Memory.write
    split <;> simp [Memory.read, h]
  | cons e rest ih =>
    obtain ⟨k, v⟩ := e
    unfold Memory.write
    split
    · split <;> simp [Memory.read, h]
    · split
      · next hk => subst hk; split <;> simp [Memory.read, h]
      · simp [Memory.read, ih]

theorem Memory.read_below {lo a : Nat} {m : Memory} (h : m.wfFrom lo = true) (ha : a < lo) :
    m.read a = Memory.unlisted := by
  induction m generalizing lo with
  | nil => rfl
  | cons e rest ih =>
    obtain ⟨k, v⟩ := e
    simp only [Memory.wfFrom, Bool.and_eq_true, decide_eq_true_eq] at h
    have hk : a ≠ k := by omega
    simp [Memory.read, hk, ih h.2 (by omega)]

theorem Memory.read_write_same_from {lo : Nat} {m : Memory} (h : m.wfFrom lo = true) (a : Nat) (x : Byte) :
    (m.write a x).read a = x := by
  induction m generalizing lo with
  | nil => unfold Memory.write; split <;> simp_all [Memory.read]
  | cons e rest ih =>
    obtain ⟨k, v⟩ := e
    simp only [Memory.wfFrom, Bool.and_eq_true, decide_eq_true_eq] at h
    unfold Memory.write
    split
    · next hlt =>
      split
      · next hx => simp [Memory.read, Nat.ne_of_lt hlt, Memory.read_below h.2 (by omega : a < k + 1), hx]
      · simp [Memory.read]
    · split
      · next hk =>
        split
        · next hx => rw [hx, Memory.read_below h.2 (by omega)]
        · simp [Memory.read]
      · next hk => simp [Memory.read, hk, ih h.2]

theorem Memory.read_write_same {m : Memory} (h : m.wf = true) (a : Nat) (x : Byte) : (m.write a x).read a = x :=
  Memory.read_write_same_from h a x

theorem Memory.wfFrom_mono {lo lo' : Nat} {m : Memory} (h : m.wfFrom lo = true) (hl : lo' ≤ lo) :
    m.wfFrom lo' = true := by
  cases m with
  | nil => rfl
  | cons e rest =>
    simp only [Memory.wfFrom, Bool.and_eq_true, decide_eq_true_eq] at h ⊢
    exact ⟨⟨by omega, h.1.2⟩, h.2⟩

theorem Memory.wfFrom_write {lo a : Nat} {m : Memory} (h : m.wfFrom lo = true) (ha : lo ≤ a) (x : Byte) :
    (m.write a x).wfFrom lo = true := by
  induction m generalizing lo with
  | nil =>
    unfold Memory.write
    split
    · rfl
    · next hx => simp [Memory.wfFrom, ha, hx]
  | cons e rest ih =>
    obtain ⟨k, v⟩ := e
    have h0 := h
    simp only [Memory.wfFrom, Bool.and_eq_true, decide_eq_true_eq] at h
    unfold Memory.write
    split
    · next hlt =>
      split
      · exact h0
      · next hx => simp [Memory.wfFrom, ha, hx, h.2]; exact ⟨hlt, by simpa using h.1.2⟩
    · split
      · next hk =>
        split
        · exact Memory.wfFrom_mono h.2 (by omega)
        · next hx => subst hk; simp [Memory.wfFrom, ha, hx, h.2]
      · next hk =>
        simp only [Memory.wfFrom, Bool.and_eq_true, decide_eq_true_eq]
        exact ⟨h.1, ih h.2 (by omega)⟩

/-- Every memory operation keeps the canonical form. -/
theorem Memory.wf_write {m : Memory} (h : m.wf = true) (a : Nat) (x : Byte) : (m.write a x).wf = true :=
  Memory.wfFrom_write h (Nat.zero_le a) x

theorem reset_mem_wf : State.reset.mem.wf = true := rfl

/-! ## Windows -/

theorem Width.index_inj {v w : Width} (h : Width.index v = Width.index w) : v = w := by
  cases v <;> cases w <;> simp_all [Width.index]

theorem Width.index_lt (w : Width) : Width.index w < 3 := by cases w <;> decide

theorem window_inj {bn bi bl cn ci cl j k : Nat} (hj : j < 17179869184) (hk : k < 17179869184)
    (hb : bl < 4294967296) (hc : cl < 4294967296) (ib : bi < 3) (ic : ci < 3)
    (h : ((bn * 3 + bi) * 4294967296 + bl) * 17179869184 + j
      = ((cn * 3 + ci) * 4294967296 + cl) * 17179869184 + k) :
    bn = cn ∧ bi = ci ∧ bl = cl ∧ j = k := by
  omega

/-- Two buffers share no address: a byte of one is never a byte of the other. -/
theorem BufferId.byteAddr_inj {b c : BufferId} {j k : Nat} (hj : j < 17179869184) (hk : k < 17179869184)
    (h : b.byteAddr j = c.byteAddr k) : b = c ∧ j = k := by
  obtain ⟨hn, hi, hl, hjk⟩ := window_inj hj hk b.len.isLt c.len.isLt (Width.index_lt b.wc) (Width.index_lt c.wc) h
  refine ⟨?_, hjk⟩
  have hw := Width.index_inj hi
  have hl' := BitVec.eq_of_toNat_eq hl
  cases b
  cases c
  simp only at hn hw hl'
  rw [hn, hw, hl']

/-- A byte of a buffer lies inside its window. -/
theorem BufferId.byte_lt_window {b : BufferId} {j : Nat} (h : j < b.len.toNat * b.wc.bytes) : j < 17179869184 := by
  have hb := b.len.isLt
  cases hw : b.wc <;> simp only [hw, Width.bytes] at h <;> omega

theorem BufferId.cellAddr_eq (b : BufferId) (i : Nat) : b.cellAddr i = b.byteAddr (i * b.wc.bytes) := rfl

/-! ## Cells in terms of bytes -/

/-- Each byte of four set side by side. -/
theorem byte_of_four (x y z w : Byte) :
    ((x ++ y ++ z ++ w : BitVec 32) >>> 24).setWidth 8 = x ∧ ((x ++ y ++ z ++ w : BitVec 32) >>> 16).setWidth 8 = y ∧
    ((x ++ y ++ z ++ w : BitVec 32) >>> 8).setWidth 8 = z ∧ ((x ++ y ++ z ++ w : BitVec 32) >>> 0).setWidth 8 = w := by
  refine ⟨?_, ?_, ?_, ?_⟩ <;>
  · apply BitVec.eq_of_getLsbD_eq
    intro i hi
    simp only [BitVec.getLsbD_setWidth, BitVec.getLsbD_ushiftRight, BitVec.getLsbD_append, hi, decide_true, Bool.true_and]
    repeat (first | rw [if_pos (by omega)] | rw [if_neg (by omega)])
    congr 1
    omega

/-- Each byte of two set side by side. -/
theorem byte_of_two (x y : Byte) :
    (((x ++ y).setWidth 32 : Word) >>> 8).setWidth 8 = x ∧ (((x ++ y).setWidth 32 : Word) >>> 0).setWidth 8 = y := by
  refine ⟨?_, ?_⟩ <;>
  · apply BitVec.eq_of_getLsbD_eq
    intro i hi
    simp only [BitVec.getLsbD_setWidth, BitVec.getLsbD_ushiftRight, BitVec.getLsbD_append, hi, decide_true, Bool.true_and]
    rw [decide_eq_true (by omega), Bool.true_and]
    repeat (first | rw [if_pos (by omega)] | rw [if_neg (by omega)])
    congr 1
    omega

theorem byte_of_one (x : Byte) : ((x.setWidth 32 : Word) >>> 0).setWidth 8 = x := by
  simp

/-- Byte `k` of a cell, counted from the most significant, is the byte at the cell's address and `k`. -/
theorem readCell_byte (m : Memory) (b : BufferId) (i : Nat) {k : Nat} (hk : k < b.wc.bytes) :
    (readCell m b i >>> ((b.wc.bytes - 1 - k) * 8)).setWidth 8 = m.read (b.cellAddr i + k) := by
  unfold readCell
  generalize b.cellAddr i = a
  cases hw : b.wc <;> simp only [hw, Width.bytes] at hk ⊢
  · have : k = 0 := by omega
    subst this
    exact byte_of_one _
  · have : k = 0 ∨ k = 1 := by omega
    rcases this with rfl | rfl
    · exact (byte_of_two _ _).1
    · exact (byte_of_two _ _).2
  · have : k = 0 ∨ k = 1 ∨ k = 2 ∨ k = 3 := by omega
    rcases this with rfl | rfl | rfl | rfl
    · exact (byte_of_four _ _ _ _).1
    · exact (byte_of_four _ _ _ _).2.1
    · exact (byte_of_four _ _ _ _).2.2.1
    · exact (byte_of_four _ _ _ _).2.2.2

theorem bytes_pos (w : Width) : 0 < w.bytes := by cases w <;> decide

theorem bits_eq (w : Width) : w.bits = 8 * w.bytes := by cases w <;> rfl

/-- A cell is decided by its bytes. -/
theorem readCell_congr {m m' : Memory} {b : BufferId} {i : Nat}
    (h : ∀ k, k < b.wc.bytes → m.read (b.cellAddr i + k) = m'.read (b.cellAddr i + k)) :
    readCell m b i = readCell m' b i := by
  unfold readCell
  have h0 := h 0 (bytes_pos b.wc)
  rw [Nat.add_zero] at h0
  cases hw : b.wc <;> simp only [hw, Width.bytes] at h ⊢
  · rw [h0]
  · rw [h0, h 1 (by decide)]
  · rw [h0, h 1 (by decide), h 2 (by decide), h 3 (by decide)]

/-- Byte `j` of a buffer's stream is the byte at its address. -/
theorem streamByte_eq (m : Memory) (b : BufferId) (j : Nat) : streamByte m b j = m.read (b.byteAddr j) := by
  unfold streamByte
  rw [readCell_byte m b _ (Nat.mod_lt j (bytes_pos b.wc)), BufferId.cellAddr_eq]
  unfold BufferId.byteAddr
  rw [Nat.add_assoc, Nat.div_add_mod']

/-- Bit `p` of a buffer's stream is a bit of the byte at its address. -/
theorem streamBit_eq (m : Memory) (b : BufferId) (p : Nat) :
    streamBit m b p = (m.read (b.byteAddr (p / 8))).getLsbD (7 - p % 8) := by
  rw [← streamByte_eq]
  unfold streamBit streamByte
  rw [BitVec.getLsbD_setWidth, BitVec.getLsbD_ushiftRight, BitVec.getLsbD_ushiftRight,
    show p / b.wc.bits = p / 8 / b.wc.bytes by rw [bits_eq b.wc, Nat.div_div_eq_div_mul],
    decide_eq_true (by omega), Bool.true_and]
  congr 1
  cases b.wc <;> simp only [Width.bits, Width.bytes] <;> omega

/-! ## Writing a cell -/

theorem writeCell_read_other (m : Memory) (b : BufferId) (i : Nat) (v : Word) {a : Nat}
    (h : a < b.cellAddr i ∨ b.cellAddr i + b.wc.bytes ≤ a) : (writeCell m b i v).read a = m.read a := by
  unfold writeCell
  generalize b.cellAddr i = c at h ⊢
  cases hw : b.wc <;> simp only [hw, Width.bytes] at h ⊢ <;>
    repeat rw [Memory.read_write_ne (by omega)]

theorem wf_writeCell {m : Memory} (h : m.wf = true) (b : BufferId) (i : Nat) (v : Word) :
    (writeCell m b i v).wf = true := by
  unfold writeCell
  cases b.wc
  · exact Memory.wf_write h _ _
  · exact Memory.wf_write (Memory.wf_write h _ _) _ _
  · exact Memory.wf_write (Memory.wf_write (Memory.wf_write (Memory.wf_write h _ _) _ _) _ _) _ _

theorem writeCell_read_byte {m : Memory} (h : m.wf = true) (b : BufferId) (i : Nat) (v : Word) {k : Nat}
    (hk : k < b.wc.bytes) :
    (writeCell m b i v).read (b.cellAddr i + k) = v.extractLsb' ((b.wc.bytes - 1 - k) * 8) 8 := by
  unfold writeCell
  generalize b.cellAddr i = a
  cases hw : b.wc <;> simp only [hw, Width.bytes] at hk ⊢
  · have : k = 0 := by omega
    subst this
    exact Memory.read_write_same h _ _
  · have : k = 0 ∨ k = 1 := by omega
    rcases this with rfl | rfl
    · rw [Memory.read_write_ne (by omega)]; exact Memory.read_write_same h _ _
    · exact Memory.read_write_same (Memory.wf_write h _ _) _ _
  · have h1 := Memory.wf_write h a (v.extractLsb' 24 8)
    have h2 := Memory.wf_write h1 (a + 1) (v.extractLsb' 16 8)
    have h3 := Memory.wf_write h2 (a + 2) (v.extractLsb' 8 8)
    have : k = 0 ∨ k = 1 ∨ k = 2 ∨ k = 3 := by omega
    rcases this with rfl | rfl | rfl | rfl
    · rw [Memory.read_write_ne (by omega), Memory.read_write_ne (by omega), Memory.read_write_ne (by omega)]
      exact Memory.read_write_same h _ _
    · rw [Memory.read_write_ne (by omega), Memory.read_write_ne (by omega)]
      exact Memory.read_write_same h1 _ _
    · rw [Memory.read_write_ne (by omega)]
      exact Memory.read_write_same h2 _ _
    · exact Memory.read_write_same h3 _ _

/-- A byte of a buffer in cell terms: cell `j / B`, byte `j % B` of it. -/
theorem BufferId.byteAddr_split (b : BufferId) (j : Nat) :
    b.byteAddr j = b.cellAddr (j / b.wc.bytes) + j % b.wc.bytes := by
  unfold BufferId.byteAddr BufferId.cellAddr
  rw [Nat.add_assoc, Nat.div_add_mod']

/-- A byte of any buffer that is not one of the cell's bytes is untouched by a write of the cell. -/
theorem writeCell_read_byteAddr (m : Memory) (b c : BufferId) (i : Nat) (v : Word) {j : Nat}
    (hi : i < b.len.toNat) (hj : j < c.len.toNat * c.wc.bytes) (hne : ¬(c = b ∧ j / b.wc.bytes = i)) :
    (writeCell m b i v).read (c.byteAddr j) = m.read (c.byteAddr j) := by
  apply writeCell_read_other
  by_contra hcon
  have hB := (bytes_pos b.wc)
  have hin : ∃ k, k < b.wc.bytes ∧ c.byteAddr j = b.byteAddr (i * b.wc.bytes + k) := by
    refine ⟨c.byteAddr j - b.cellAddr i, by omega, ?_⟩
    unfold BufferId.cellAddr at *
    unfold BufferId.byteAddr at *
    omega
  obtain ⟨k, hk, he⟩ := hin
  have hlt : i * b.wc.bytes + k < b.len.toNat * b.wc.bytes := by
    calc i * b.wc.bytes + k < i * b.wc.bytes + b.wc.bytes := by omega
      _ = (i + 1) * b.wc.bytes := by rw [Nat.add_mul, Nat.one_mul]
      _ ≤ b.len.toNat * b.wc.bytes := Nat.mul_le_mul_right _ hi
  obtain ⟨hcb, hjk⟩ := BufferId.byteAddr_inj (BufferId.byte_lt_window hj) (BufferId.byte_lt_window hlt) he
  refine hne ⟨hcb, ?_⟩
  rw [hjk, Nat.add_comm, Nat.add_mul_div_right _ _ hB, Nat.div_eq_of_lt hk, Nat.zero_add]

/-- The bits of every buffer after a write of one cell: the value's bits in that cell, and every other bit as it
was. -/
theorem writeCell_streamBit {m : Memory} (h : m.wf = true) (b c : BufferId) {i : Nat} (hi : i < b.len.toNat) (v : Word)
    {q : Nat} (hq : q < c.bits) :
    streamBit (writeCell m b i v) c q =
      if c = b ∧ q / b.wc.bits = i then v.getLsbD (b.wc.bits - 1 - q % b.wc.bits) else streamBit m c q := by
  have hj : q / 8 < c.len.toNat * c.wc.bytes := by
    unfold BufferId.bits at hq
    rw [bits_eq c.wc, ← Nat.mul_assoc, Nat.mul_comm _ 8, Nat.mul_assoc] at hq
    omega
  have hcell : q / 8 / b.wc.bytes = q / b.wc.bits := by rw [bits_eq b.wc, Nat.div_div_eq_div_mul]
  split
  · next hin =>
    obtain ⟨rfl, hqi⟩ := hin
    rw [streamBit_eq, BufferId.byteAddr_split, hcell, hqi,
      writeCell_read_byte h c i v (Nat.mod_lt _ (bytes_pos c.wc)), BitVec.getLsbD_extractLsb',
      decide_eq_true (by omega), Bool.true_and]
    congr 1
    cases c.wc <;> simp only [Width.bits, Width.bytes] <;> omega
  · next hout =>
    rw [streamBit_eq, streamBit_eq, writeCell_read_byteAddr m b c i v hi hj (by rwa [hcell])]

/-- A bit of a cell read back is a bit of the stream. -/
theorem readCell_getLsbD (m : Memory) (b : BufferId) (q : Nat) :
    (readCell m b (q / b.wc.bits)).getLsbD (b.wc.bits - 1 - q % b.wc.bits) = streamBit m b q := by
  unfold streamBit
  rw [BitVec.getLsbD_ushiftRight, Nat.add_zero]

/-- `CellOr` in terms of the buffers' bits (spec/20_memory.md R53). -/
theorem orCell_streamBit {m : Memory} (h : m.wf = true) (b c : BufferId) {i : Nat} (hi : i < b.len.toNat) (v : Word)
    {q : Nat} (hq : q < c.bits) :
    streamBit (writeCell m b i (readCell m b i ||| v)) c q =
      (streamBit m c q || (decide (c = b ∧ q / b.wc.bits = i) && v.getLsbD (b.wc.bits - 1 - q % b.wc.bits))) := by
  rw [writeCell_streamBit h b c hi _ hq]
  split
  · next hin =>
    obtain ⟨rfl, rfl⟩ := hin
    rw [BitVec.getLsbD_or, readCell_getLsbD]
    simp
  · next hout => simp [hout]

/-- `CellOr` never clears a bit of any byte, whatever the address (spec/20_memory.md R53). -/
theorem orCell_read_byte {m : Memory} (h : m.wf = true) (b : BufferId) (i : Nat) (v : Word) {k : Nat}
    (hk : k < b.wc.bytes) :
    (writeCell m b i (readCell m b i ||| v)).read (b.cellAddr i + k) =
      m.read (b.cellAddr i + k) ||| v.extractLsb' ((b.wc.bytes - 1 - k) * 8) 8 := by
  rw [writeCell_read_byte h b i _ hk, ← readCell_byte m b i hk]
  apply BitVec.eq_of_getLsbD_eq
  intro t ht
  simp only [BitVec.getLsbD_or, BitVec.getLsbD_extractLsb', BitVec.getLsbD_setWidth, BitVec.getLsbD_ushiftRight, ht,
    decide_true, Bool.true_and]

/-- A value that fits the cell reads back whole. -/
theorem readCell_writeCell_same {m : Memory} (h : m.wf = true) (b : BufferId) (i : Nat) {v : Word}
    (hv : v.toNat < 2 ^ b.wc.bits) : readCell (writeCell m b i v) b i = v := by
  have hb : ∀ k, k < b.wc.bytes → (writeCell m b i v).read (b.cellAddr i + k)
      = v.extractLsb' ((b.wc.bytes - 1 - k) * 8) 8 := fun k hk => writeCell_read_byte h b i v hk
  generalize writeCell m b i v = m' at hb
  have hz : ∀ t, b.wc.bits ≤ t → v.getLsbD t = false := by
    intro t ht
    exact Nat.testBit_lt_two_pow (Nat.lt_of_lt_of_le hv (Nat.pow_le_pow_right (by decide) ht))
  unfold readCell
  generalize b.cellAddr i = a at hb ⊢
  cases hw : b.wc <;> simp only [hw, Width.bytes, Width.bits] at hb hz ⊢
  · have h0 := hb 0 (by decide)
    simp only [Nat.add_zero] at h0
    rw [h0]
    apply BitVec.eq_of_getLsbD_eq
    intro t ht
    by_cases h8 : t < 8
    · simp [ht, h8]
    · rw [hz t (by omega)]; simp [BitVec.getLsbD_extractLsb', h8]
  · have h0 := hb 0 (by decide)
    have h1 := hb 1 (by decide)
    simp only [Nat.add_zero] at h0
    rw [h0, h1]
    apply BitVec.eq_of_getLsbD_eq
    intro t ht
    simp only [BitVec.getLsbD_setWidth, BitVec.getLsbD_append, BitVec.getLsbD_extractLsb', ht, decide_true,
      Bool.true_and]
    split
    · next h8 => simp [h8]
    · next h8 =>
      by_cases h16 : t < 16
      · rw [decide_eq_true (by omega), Bool.true_and]; congr 1; omega
      · rw [hz t (by omega), decide_eq_false (by omega), Bool.false_and]
  · have h0 := hb 0 (by decide)
    have h1 := hb 1 (by decide)
    have h2 := hb 2 (by decide)
    have h3 := hb 3 (by decide)
    simp only [Nat.add_zero] at h0
    rw [h0, h1, h2, h3]
    apply BitVec.eq_of_getLsbD_eq
    intro t ht
    simp only [BitVec.getLsbD_append, BitVec.getLsbD_extractLsb']
    repeat' split
    all_goals (rw [decide_eq_true (by omega), Bool.true_and]; congr 1; omega)

end Sys2Proof.Machine
end

