-- ==== Sys2Proof/Laws/Cursor.lean ====
section
/-! SUPPORT. The cursor as a stream position: under INV every derived quantity is a function of `consumed`, and Advance
moves the position by exactly its argument (spec/10_state.md R30 to R39, spec/40_cursor.md R110 to R112). -/

namespace Sys2Proof.Machine

variable {s : State}

/-- INV in terms of numbers. -/
theorem cursorInv_nat (h : s.CursorInv) :
    (s.cidx.toNat < s.len.toNat ∧ 1 ≤ s.boff.toNat ∧ s.boff.toNat ≤ s.wc.bits) ∨
      (s.cidx.toNat = s.len.toNat ∧ s.boff.toNat = 1) := by
  rcases h with h | ⟨h1, h2⟩
  · exact .inl h
  · exact .inr ⟨by rw [h1], by rw [h2]; rfl⟩

theorem cursorInv_of_nat
    (h : (s.cidx.toNat < s.len.toNat ∧ 1 ≤ s.boff.toNat ∧ s.boff.toNat ≤ s.wc.bits) ∨
      (s.cidx.toNat = s.len.toNat ∧ s.boff.toNat = 1)) : s.CursorInv := by
  rcases h with h | ⟨h1, h2⟩
  · exact .inl h
  · exact .inr ⟨BitVec.eq_of_toNat_eq h1, BitVec.eq_of_toNat_eq h2⟩

theorem consumed_le_capacity (h : s.CursorInv) : s.consumed ≤ s.capacity := by
  have := cursorInv_nat h
  unfold State.consumed State.capacity
  cases hw : s.wc <;> simp only [hw, Width.bits] at this ⊢ <;> omega

theorem exhausted_eq (h : s.CursorInv) : s.exhausted = decide (s.consumed = s.capacity) := by
  have := cursorInv_nat h
  unfold State.exhausted State.consumed State.capacity
  apply decide_eq_decide.mpr
  cases hw : s.wc <;> simp only [hw, Width.bits] at this ⊢ <;> omega

theorem remaining_eq (h : s.CursorInv) : s.remaining = (s.capacity : Int) - s.consumed := by
  have := cursorInv_nat h
  unfold State.remaining State.consumed State.capacity
  cases hw : s.wc <;> simp only [hw, Width.bits] at this ⊢ <;> omega

theorem remaining_toNat (h : s.CursorInv) : s.remaining.toNat = s.capacity - s.consumed := by
  have := consumed_le_capacity h
  rw [remaining_eq h]
  omega

theorem capacity_mod_eight (s : State) : s.capacity % 8 = 0 := by
  unfold State.capacity
  cases s.wc <;> simp only [Width.bits] <;> omega

theorem aligned_eq (h : s.CursorInv) : s.aligned = decide (s.consumed % 8 = 0) := by
  have h1 := consumed_le_capacity h
  have h2 := capacity_mod_eight s
  have h3 : (s.remaining % 8 = 0) ↔ s.consumed % 8 = 0 := by rw [remaining_eq h]; omega
  unfold State.aligned
  by_cases hc : s.consumed % 8 = 0
  · simp [hc, h3.mpr hc]
  · simp [hc, mt h3.mp hc]

theorem byteIndex_eq (h : s.CursorInv) : s.byteIndex = (s.consumed / 8 : Nat) := by
  have := cursorInv_nat h
  unfold State.byteIndex State.consumed
  cases hw : s.wc <;> simp only [hw, Width.bits, Width.bytes] at this ⊢ <;> omega

theorem cidx_eq (h : s.CursorInv) : s.cidx.toNat = s.consumed / s.wc.bits := by
  have := cursorInv_nat h
  unfold State.consumed
  cases hw : s.wc <;> simp only [hw, Width.bits] at this ⊢ <;> omega

theorem boff_eq (h : s.CursorInv) : s.boff.toNat = s.consumed % s.wc.bits + 1 := by
  have := cursorInv_nat h
  unfold State.consumed
  cases hw : s.wc <;> simp only [hw, Width.bits] at this ⊢ <;> omega

theorem bitShift_eq (h : s.CursorInv) : s.bitShift = s.wc.bits - 1 - s.consumed % s.wc.bits := by
  unfold State.bitShift
  rw [boff_eq h]
  omega

theorem byteShift_eq (h : s.CursorInv) : s.byteShift = (s.wc.bytes - 1 - s.consumed / 8 % s.wc.bytes) * 8 := by
  unfold State.byteShift
  rw [byteIndex_eq h]
  cases s.wc <;> simp only [Width.bytes] <;> omega

/-! ## Moving -/

theorem moveTo_consumed {p : Nat} (hc : s.capacity ≤ Config.maxBits) (hp : p ≤ s.capacity) :
    (s.moveTo p).consumed = p := by
  have hl := s.len.isLt
  unfold State.consumed
  simp only [State.moveTo_cidx, State.moveTo_boff, State.moveTo_wc, BitVec.toNat_ofNat]
  unfold State.capacity Config.maxBits at *
  cases hw : s.wc <;> simp only [hw, Width.bits] at hc hp ⊢ <;> omega

theorem moveTo_cursorInv {p : Nat} (hc : s.capacity ≤ Config.maxBits) (hp : p ≤ s.capacity) :
    (s.moveTo p).CursorInv := by
  have hl := s.len.isLt
  apply cursorInv_of_nat
  simp only [State.moveTo_cidx, State.moveTo_boff, State.moveTo_wc, State.moveTo_len, BitVec.toNat_ofNat]
  unfold State.capacity Config.maxBits at *
  cases hw : s.wc <;> simp only [hw, Width.bits] at hc hp ⊢ <;> omega

theorem moveTo_live {p : Nat} (h : s.Live) (hp : p ≤ s.capacity) : (s.moveTo p).Live :=
  ⟨h.1, moveTo_cursorInv h.2.2 hp, h.2.2⟩

theorem setMem_live {m : Memory} (h : s.Live) : (s.setMem m).Live := h

theorem moveTo_consumed_self (h : s.CursorInv) : s.moveTo s.consumed = s := by
  have h1 : BitVec.ofNat 32 (s.consumed / s.wc.bits) = s.cidx := by
    rw [← cidx_eq h, BitVec.ofNat_toNat, BitVec.setWidth_eq]
  have h2 : BitVec.ofNat 6 (s.consumed % s.wc.bits + 1) = s.boff := by
    rw [← boff_eq h, BitVec.ofNat_toNat, BitVec.setWidth_eq]
  unfold State.moveTo
  rw [h1, h2]
  rfl

/-- Advance moves the stream position by exactly `n`, in the two situations of spec/40_cursor.md R111. -/
theorem advance_eq (h : s.Live) {n : Nat} (hlt : s.consumed < s.capacity)
    (hn : n = 1 ∨ (n = 8 ∧ s.consumed % 8 = 0)) : s.advance n = s.moveTo (s.consumed + n) := by
  obtain ⟨-, hi, hc⟩ := h
  have hnat := cursorInv_nat hi
  have hcl := s.cidx.isLt
  unfold State.advance State.moveTo
  split
  · next hover =>
    congr 1
    · apply BitVec.eq_of_toNat_eq
      rw [BitVec.toNat_add, BitVec.toNat_ofNat]
      unfold State.consumed State.capacity at *
      show (s.cidx.toNat + 1) % 4294967296 = _
      cases hw : s.wc <;> simp only [hw, Width.bits] at hnat hlt hn hover ⊢ <;> omega
    · apply BitVec.eq_of_toNat_eq
      rw [BitVec.toNat_ofNat]
      unfold State.consumed State.capacity at *
      show 1 = _
      cases hw : s.wc <;> simp only [hw, Width.bits] at hnat hlt hn hover ⊢ <;> omega
  · next hin =>
    congr 1
    · apply BitVec.eq_of_toNat_eq
      rw [BitVec.toNat_ofNat]
      unfold State.consumed State.capacity at *
      cases hw : s.wc <;> simp only [hw, Width.bits] at hnat hlt hn hin ⊢ <;> omega
    · apply BitVec.eq_of_toNat_eq
      rw [BitVec.toNat_ofNat, BitVec.toNat_ofNat]
      unfold State.consumed State.capacity at *
      cases hw : s.wc <;> simp only [hw, Width.bits] at hnat hlt hn hin ⊢ <;> omega

end Sys2Proof.Machine
end

