-- ==== Sys2Proof/Laws/Reader.lean ====
section
/-! SUPPORT. The reader's internal steps in terms of the buffer's streams (spec/41_reader.md R140, R144). -/

namespace Sys2Proof.Machine

variable {s : State}

theorem streamBits_zero (m : Memory) (b : BufferId) (p : Nat) : streamBits m b p 0 = [] := rfl

theorem streamBits_succ (m : Memory) (b : BufferId) (p n : Nat) :
    streamBits m b p (n + 1) = streamBit m b p :: streamBits m b (p + 1) n := by
  unfold streamBits
  rw [List.range_succ_eq_map, List.map_cons, List.map_map]
  simp only [Nat.add_zero, List.cons.injEq, true_and]
  apply List.map_congr_left
  intro k _
  simp only [Function.comp, Nat.succ_eq_add_one]
  congr 1
  omega

theorem streamBits_length (m : Memory) (b : BufferId) (p n : Nat) : (streamBits m b p n).length = n := by
  simp [streamBits]

theorem streamBytes_zero (m : Memory) (b : BufferId) (j : Nat) : streamBytes m b j 0 = [] := rfl

theorem streamBytes_succ (m : Memory) (b : BufferId) (j n : Nat) :
    streamBytes m b j (n + 1) = streamByte m b j :: streamBytes m b (j + 1) n := by
  unfold streamBytes
  rw [List.range_succ_eq_map, List.map_cons, List.map_map]
  simp only [Nat.add_zero, List.cons.injEq, true_and]
  apply List.map_congr_left
  intro k _
  simp only [Function.comp, Nat.succ_eq_add_one]
  congr 1
  omega

/-- ReadOneBit at exhaustion is END. -/
theorem readOneBit_exhausted (h : s.CursorInv) (he : s.consumed = s.capacity) : readOneBit s = none := by
  unfold readOneBit
  rw [if_pos (by rw [exhausted_eq h]; simpa using he)]

/-- ReadOneBit before exhaustion: the bit at the stream position, one step on. -/
theorem readOneBit_some (h : s.Live) (hlt : s.consumed < s.capacity) :
    readOneBit s = some (streamBit s.mem s.bufferId s.consumed, s.moveTo (s.consumed + 1)) := by
  unfold readOneBit
  rw [if_neg (by rw [exhausted_eq h.2.1]; simpa using Nat.ne_of_lt hlt), advance_eq h hlt (.inl rfl)]
  unfold State.memRead
  rw [cidx_eq h.2.1, bitShift_eq h.2.1]
  rfl

/-- ReadOneByte at exhaustion is END. -/
theorem readOneByte_exhausted (h : s.CursorInv) (he : s.consumed = s.capacity) : readOneByte s = none := by
  unfold readOneByte
  rw [if_pos (by rw [exhausted_eq h]; simpa using he)]

/-- ReadOneByte at an aligned position before exhaustion: the byte there, eight bits on. -/
theorem readOneByte_some (h : s.Live) (hlt : s.consumed < s.capacity) (ha : s.consumed % 8 = 0) :
    readOneByte s = some (streamByte s.mem s.bufferId (s.consumed / 8), s.moveTo (s.consumed + 8)) := by
  unfold readOneByte
  rw [if_neg (by rw [exhausted_eq h.2.1]; simpa using Nat.ne_of_lt hlt), advance_eq h hlt (.inr ⟨rfl, ha⟩)]
  unfold State.memRead
  rw [cidx_eq h.2.1, byteShift_eq h.2.1, bits_eq s.wc, ← Nat.div_div_eq_div_mul]
  rfl

/-- `n` ReadOneBit steps: the bits that remain, then END; the position moves by as many as were read. -/
theorem readBitSeq_eq (n : Nat) (h : s.Live) :
    readBitSeq n s =
      ((streamBits s.mem s.bufferId s.consumed (min n (s.capacity - s.consumed))).map some ++
        List.replicate (n - (s.capacity - s.consumed)) none,
       s.moveTo (min (s.consumed + n) s.capacity)) := by
  induction n generalizing s with
  | zero =>
    have hle := consumed_le_capacity h.2.1
    simp only [readBitSeq, Nat.add_zero, Nat.min_eq_left hle, moveTo_consumed_self h.2.1, Nat.zero_min,
      streamBits_zero, Nat.zero_sub]
    rfl
  | succ n ih =>
    have hle := consumed_le_capacity h.2.1
    unfold readBitSeq
    by_cases hlt : s.consumed < s.capacity
    · rw [readOneBit_some h hlt]
      have hm := moveTo_consumed h.2.2 (show s.consumed + 1 ≤ s.capacity by omega)
      simp only [ih (moveTo_live h (show s.consumed + 1 ≤ s.capacity by omega)), State.moveTo_mem,
        State.moveTo_bufferId, State.moveTo_capacity, State.moveTo_moveTo, hm]
      rw [show min (n + 1) (s.capacity - s.consumed) = min n (s.capacity - (s.consumed + 1)) + 1 by omega,
        streamBits_succ, show n + 1 - (s.capacity - s.consumed) = n - (s.capacity - (s.consumed + 1)) by omega,
        show s.consumed + (n + 1) = s.consumed + 1 + n by omega]
      rfl
    · have he : s.consumed = s.capacity := by omega
      rw [readOneBit_exhausted h.2.1 he]
      simp only [ih h]
      rw [he, Nat.sub_self, Nat.min_zero, Nat.min_zero, show min (s.capacity + n) s.capacity = s.capacity by omega,
        show min (s.capacity + (n + 1)) s.capacity = s.capacity by omega, Nat.sub_zero, Nat.sub_zero,
        List.replicate_succ]
      rfl

/-- `n` ReadOneByte steps from an aligned position. -/
theorem readByteSeq_eq (n : Nat) (h : s.Live) (ha : s.consumed % 8 = 0) :
    readByteSeq n s =
      ((streamBytes s.mem s.bufferId (s.consumed / 8) (min n ((s.capacity - s.consumed) / 8))).map some ++
        List.replicate (n - (s.capacity - s.consumed) / 8) none,
       s.moveTo (min (s.consumed + 8 * n) s.capacity)) := by
  induction n generalizing s with
  | zero =>
    have hle := consumed_le_capacity h.2.1
    simp only [readByteSeq, Nat.mul_zero, Nat.add_zero, Nat.min_eq_left hle, moveTo_consumed_self h.2.1, Nat.zero_min,
      streamBytes_zero, Nat.zero_sub]
    rfl
  | succ n ih =>
    have hle := consumed_le_capacity h.2.1
    have hc8 := capacity_mod_eight s
    unfold readByteSeq
    by_cases hlt : s.consumed < s.capacity
    · rw [readOneByte_some h hlt ha]
      have hle8 : s.consumed + 8 ≤ s.capacity := by omega
      have hm := moveTo_consumed h.2.2 hle8
      simp only [ih (moveTo_live h hle8) (by rw [hm]; omega), State.moveTo_mem,
        State.moveTo_bufferId, State.moveTo_capacity, State.moveTo_moveTo, hm]
      rw [show min (n + 1) ((s.capacity - s.consumed) / 8) = min n ((s.capacity - (s.consumed + 8)) / 8) + 1 by omega,
        streamBytes_succ, show n + 1 - (s.capacity - s.consumed) / 8 = n - (s.capacity - (s.consumed + 8)) / 8 by omega,
        show s.consumed + 8 * (n + 1) = s.consumed + 8 + 8 * n by omega,
        show (s.consumed + 8) / 8 = s.consumed / 8 + 1 by omega]
      rfl
    · have he : s.consumed = s.capacity := by omega
      rw [readOneByte_exhausted h.2.1 he]
      simp only [ih h ha]
      rw [he, Nat.sub_self, Nat.zero_div, Nat.min_zero, Nat.min_zero,
        show min (s.capacity + 8 * n) s.capacity = s.capacity by omega,
        show min (s.capacity + 8 * (n + 1)) s.capacity = s.capacity by omega, Nat.sub_zero, Nat.sub_zero,
        List.replicate_succ]
      rfl

theorem filterMap_some_none {α : Type} (l : List α) (k : Nat) :
    (l.map some ++ List.replicate k none).filterMap id = l := by
  induction l with
  | nil => induction k with
    | zero => rfl
    | succ k ih => simp [List.replicate_succ]
  | cons a l ih => simp

/-- What a command that folds `n` bits leaves. -/
theorem readFolded_eq (n : Nat) (h : s.Live) (hn : n ≤ s.capacity - s.consumed) :
    readFolded n s =
      (s.moveTo (s.consumed + n)).respond .ok (fold (streamBits s.mem s.bufferId s.consumed n)) [] := by
  have hle := consumed_le_capacity h.2.1
  unfold readFolded
  simp only [readBitSeq_eq n h, filterMap_some_none]
  rw [Nat.min_eq_left hn, Nat.min_eq_left (by omega)]

end Sys2Proof.Machine
end

