-- ==== Sys2Proof/Laws/Writer.lean ====
section
/-! SUPPORT. The writer's internal steps: each ORs the bits it is given into the stream at the cursor and moves on
(spec/42_writer.md R180, R184, R188). -/

namespace Sys2Proof.Machine

variable {s : State}

/-! ## ORing bits into a stream -/

theorem orsBits_nil (m : Memory) (b : BufferId) (p : Nat) : OrsBits m m b p [] := by
  refine ⟨fun c q _ => ?_, fun a _ => rfl⟩
  simp

theorem orsBits_append {m m' m'' : Memory} {b : BufferId} {p : Nat} {l l' : List Bool}
    (h : OrsBits m m' b p l) (h' : OrsBits m' m'' b (p + l.length) l') : OrsBits m m'' b p (l ++ l') := by
  refine ⟨fun c q hq => ?_, fun a ha => ?_⟩
  · rw [h'.1 c q hq, h.1 c q hq, Bool.or_assoc]
    congr 1
    by_cases hc : c = b
    · by_cases h1 : p ≤ q
      · by_cases h2 : p + l.length ≤ q
        · simp only [hc, h1, h2, List.getD_eq_getElem?_getD,
            List.getElem?_append_right (show l.length ≤ q - p by omega),
            List.getElem?_eq_none (show l.length ≤ q - p by omega), show q - (p + l.length) = q - p - l.length by omega]
          simp
        · simp only [hc, h1, h2, List.getD_eq_getElem?_getD,
            List.getElem?_append_left (show q - p < l.length by omega)]
          simp
      · simp only [hc, h1, show ¬(p + l.length ≤ q) by omega]
        simp
    · simp [hc]
  · rw [List.length_append] at ha
    unfold BufferId.byteAddr at ha
    rw [h'.2 a (by unfold BufferId.byteAddr; omega), h.2 a (by unfold BufferId.byteAddr; omega)]

/-- `CellOr` of a value whose bits are `bits` at their places ORs them into the stream. -/
theorem orCell_orsBits {m : Memory} (hm : m.wf = true) {b : BufferId} {i p : Nat} {v : Word} {bits : List Bool}
    (hi : i < b.len.toNat) (hlo : i * b.wc.bits ≤ p) (hhi : p + bits.length ≤ i * b.wc.bits + b.wc.bits)
    (hv : ∀ x, x < b.wc.bits → v.getLsbD x =
      (decide (p ≤ i * b.wc.bits + (b.wc.bits - 1 - x)) && bits.getD (i * b.wc.bits + (b.wc.bits - 1 - x) - p) false)) :
    OrsBits m (writeCell m b i (readCell m b i ||| v)) b p bits := by
  have hW := bits_eq b.wc
  have hB := bytes_pos b.wc
  refine ⟨fun c q hq => ?_, fun a ha => ?_⟩
  · rw [orCell_streamBit hm b c hi v hq]
    congr 1
    by_cases hc : c = b
    · subst hc
      have hqm := Nat.div_add_mod' q c.wc.bits
      have hql := Nat.mod_lt q (show 0 < c.wc.bits by omega)
      by_cases hqi : q / c.wc.bits = i
      · rw [hv _ (by omega)]
        rw [hqi] at hqm
        rw [show i * c.wc.bits + (c.wc.bits - 1 - (c.wc.bits - 1 - q % c.wc.bits)) = q by omega]
        simp [hqi]
      · have hout : q < i * c.wc.bits ∨ i * c.wc.bits + c.wc.bits ≤ q := by
          rcases Nat.lt_or_gt_of_ne hqi with h | h
          · left
            have := Nat.mul_le_mul_right c.wc.bits (show q / c.wc.bits + 1 ≤ i from h)
            rw [Nat.add_mul, Nat.one_mul] at this
            omega
          · right
            have := Nat.mul_le_mul_right c.wc.bits (show i + 1 ≤ q / c.wc.bits from h)
            rw [Nat.add_mul, Nat.one_mul] at this
            omega
        rcases hout with h | h
        · simp [hqi, show ¬(p ≤ q) by omega]
        · simp [hqi, List.getElem?_eq_none (show bits.length ≤ q - p by omega)]
    · simp [hc]
  · by_cases hin : a < b.cellAddr i ∨ b.cellAddr i + b.wc.bytes ≤ a
    · exact writeCell_read_other m b i _ hin
    · obtain ⟨k, hk, rfl⟩ : ∃ k, k < b.wc.bytes ∧ a = b.cellAddr i + k :=
        ⟨a - b.cellAddr i, by omega, by omega⟩
      rw [orCell_read_byte hm b i v hk]
      have hz : v.extractLsb' ((b.wc.bytes - 1 - k) * 8) 8 = 0 := by
        apply BitVec.eq_of_getLsbD_eq
        intro t ht
        rw [BitVec.getLsbD_extractLsb', hv _ (by omega)]
        have hpos : i * b.wc.bits + (b.wc.bits - 1 - ((b.wc.bytes - 1 - k) * 8 + t))
            = (i * b.wc.bytes + k) * 8 + (7 - t) := by
          rw [hW, show i * (8 * b.wc.bytes) = i * b.wc.bytes * 8 by
            rw [Nat.mul_left_comm, Nat.mul_comm 8]]
          omega
        rw [hpos]
        unfold BufferId.cellAddr BufferId.byteAddr at ha
        rw [Nat.add_assoc] at ha
        generalize i * b.wc.bytes + k = j at *
        rcases ha with h | h
        · simp [show ¬(p ≤ j * 8 + (7 - t)) by omega]
        · simp [List.getElem?_eq_none (show bits.length ≤ j * 8 + (7 - t) - p by omega)]
      rw [hz]
      simp

/-! ## What a value operand gives -/

/-- The bits of R183, by position. -/
theorem valueBits_eq (value : Word) (n : Nat) :
    valueBits value n = (List.range n).map fun j => valueBit value (n - 1 - j) := by
  induction n with
  | zero => rfl
  | succ n ih =>
    rw [List.range_succ_eq_map, List.map_cons, List.map_map, valueBits, ih]
    congr 1
    apply List.map_congr_left
    intro j _
    simp only [Function.comp, Nat.succ_eq_add_one]
    rw [show n + 1 - 1 - (j + 1) = n - 1 - j by omega]

/-- The bytes of R187, by position. -/
theorem valueBytes_eq (value : Word) (n : Nat) :
    valueBytes value n = (List.range n).map fun j => valueByte value (n - 1 - j) := by
  induction n with
  | zero => rfl
  | succ n ih =>
    rw [List.range_succ_eq_map, List.map_cons, List.map_map, valueBytes, ih]
    congr 1
    apply List.map_congr_left
    intro j _
    simp only [Function.comp, Nat.succ_eq_add_one]
    rw [show n + 1 - 1 - (j + 1) = n - 1 - j by omega]

theorem valueBits_length (value : Word) (n : Nat) : (valueBits value n).length = n := by simp [valueBits_eq]

theorem valueBytes_length (value : Word) (n : Nat) : (valueBytes value n).length = n := by simp [valueBytes_eq]

theorem flatMap_byteBits_length (l : List Byte) : (l.flatMap byteBits).length = 8 * l.length := by
  induction l with
  | nil => rfl
  | cons b l ih =>
    rw [List.flatMap_cons, List.length_append, ih]
    simp [byteBits]
    omega

theorem flatMap_byteBits_take (l : List Byte) (n : Nat) :
    (l.take n).flatMap byteBits = (l.flatMap byteBits).take (8 * n) := by
  induction l generalizing n with
  | nil => simp
  | cons b l ih =>
    cases n with
    | zero => rfl
    | succ n =>
      rw [List.take_succ_cons, List.flatMap_cons, List.flatMap_cons, ih,
        show 8 * (n + 1) = (byteBits b).length + 8 * n by simp [byteBits]; omega, List.take_length_add_append]

/-! ## One step -/

theorem bitWord_getLsbD (bit : Bool) (x : Nat) : (bitWord bit).getLsbD x = (decide (x = 0) && bit) := by
  unfold bitWord
  cases bit
  · simp
  · by_cases h : x = 0 <;> simp [h, BitVec.getLsbD_one]

theorem byteBits_getD (x : Byte) (t : Nat) (ht : t < 8) : (byteBits x).getD t false = x.getLsbD (7 - t) := by
  have : t = 0 ∨ t = 1 ∨ t = 2 ∨ t = 3 ∨ t = 4 ∨ t = 5 ∨ t = 6 ∨ t = 7 := by omega
  rcases this with rfl | rfl | rfl | rfl | rfl | rfl | rfl | rfl <;> rfl

theorem cidx_lt_len (h : s.CursorInv) (hlt : s.consumed < s.capacity) : s.cidx.toNat < s.len.toNat := by
  have := cursorInv_nat h
  unfold State.consumed State.capacity at hlt
  cases hw : s.wc <;> simp only [hw, Width.bits] at this hlt <;> omega

theorem writeOneBit_exhausted (bit : Bool) (h : s.CursorInv) (he : s.consumed = s.capacity) :
    writeOneBit bit s = none := by
  unfold writeOneBit
  rw [if_pos (by rw [exhausted_eq h]; simpa using he)]

theorem writeOneByte_exhausted (x : Byte) (h : s.CursorInv) (he : s.consumed = s.capacity) :
    writeOneByte x s = none := by
  unfold writeOneByte
  rw [if_pos (by rw [exhausted_eq h]; simpa using he)]

theorem advance_setMem (s : State) (m : Memory) (n : Nat) : (s.setMem m).advance n = (s.advance n).setMem m := by
  unfold State.advance
  rw [apply_ite (fun t : State => t.setMem m)]
  rfl

theorem cellOr_eq (s : State) (i : Nat) (v : Word) :
    s.cellOr i v = s.setMem (writeCell s.mem s.bufferId i (readCell s.mem s.bufferId i ||| v)) := rfl

/-- WriteOneBit with room: the bit is ORed in at the stream position, one step on. -/
theorem writeOneBit_some (bit : Bool) (h : s.Live) (hm : s.mem.wf = true) (hlt : s.consumed < s.capacity) :
    ∃ m', writeOneBit bit s = some ((s.moveTo (s.consumed + 1)).setMem m') ∧ m'.wf = true ∧
      OrsBits s.mem m' s.bufferId s.consumed [bit] := by
  refine ⟨_, ?_, wf_writeCell hm s.bufferId s.cidx.toNat _, orCell_orsBits (v := bitWord bit <<< s.bitShift) hm
    (cidx_lt_len h.2.1 hlt) ?_ ?_ ?_⟩
  · unfold writeOneBit
    rw [if_neg (by rw [exhausted_eq h.2.1]; simpa using Nat.ne_of_lt hlt), cellOr_eq,
      advance_setMem, advance_eq h hlt (.inl rfl)]
  · rw [cidx_eq h.2.1]
    exact Nat.div_mul_le_self _ _
  · have := Nat.div_add_mod' s.consumed s.wc.bits
    have := Nat.mod_lt s.consumed (show 0 < s.wc.bits by cases s.wc <;> decide)
    rw [cidx_eq h.2.1]
    simp only [State.bufferId_wc, List.length_singleton]
    omega
  · intro x hx
    have h1 := Nat.div_add_mod' s.consumed s.wc.bits
    have h2 := Nat.mod_lt s.consumed (show 0 < s.wc.bits by cases s.wc <;> decide)
    have h3 : s.wc.bits ≤ 32 := by cases s.wc <;> decide
    rw [cidx_eq h.2.1, bitShift_eq h.2.1]
    change x < s.wc.bits at hx
    change _ = (decide (s.consumed ≤ s.consumed / s.wc.bits * s.wc.bits + (s.wc.bits - 1 - x)) &&
      List.getD [bit] (s.consumed / s.wc.bits * s.wc.bits + (s.wc.bits - 1 - x) - s.consumed) false)
    rw [BitVec.getLsbD_shiftLeft, bitWord_getLsbD, decide_eq_true (show x < 32 by omega), Bool.true_and]
    by_cases hxr : x = s.wc.bits - 1 - s.consumed % s.wc.bits
    · rw [show s.consumed / s.wc.bits * s.wc.bits + (s.wc.bits - 1 - x) - s.consumed = 0 by omega,
        decide_eq_true (show s.consumed ≤ s.consumed / s.wc.bits * s.wc.bits + (s.wc.bits - 1 - x) by omega),
        decide_eq_true (show x - (s.wc.bits - 1 - s.consumed % s.wc.bits) = 0 by omega),
        decide_eq_false (show ¬(x < s.wc.bits - 1 - s.consumed % s.wc.bits) by omega)]
      simp
    · by_cases hlo : x < s.wc.bits - 1 - s.consumed % s.wc.bits
      · rw [decide_eq_true hlo]
        obtain ⟨d, hd⟩ : ∃ d, s.consumed / s.wc.bits * s.wc.bits + (s.wc.bits - 1 - x) - s.consumed = d + 1 :=
          ⟨s.consumed / s.wc.bits * s.wc.bits + (s.wc.bits - 1 - x) - s.consumed - 1, by omega⟩
        rw [hd]
        simp
      · rw [decide_eq_false (show ¬(s.consumed ≤ s.consumed / s.wc.bits * s.wc.bits + (s.wc.bits - 1 - x)) by omega),
          decide_eq_false (show ¬(x - (s.wc.bits - 1 - s.consumed % s.wc.bits) = 0) by omega)]
        simp

/-- WriteOneByte with room at an aligned position: the byte's bits are ORed in, eight bits on. -/
theorem writeOneByte_some (b : Byte) (h : s.Live) (hm : s.mem.wf = true) (hlt : s.consumed < s.capacity)
    (ha : s.consumed % 8 = 0) :
    ∃ m', writeOneByte b s = some ((s.moveTo (s.consumed + 8)).setMem m') ∧ m'.wf = true ∧
      OrsBits s.mem m' s.bufferId s.consumed (byteBits b) := by
  have h1 := Nat.div_add_mod' s.consumed s.wc.bits
  have h2 := Nat.mod_lt s.consumed (show 0 < s.wc.bits by cases s.wc <;> decide)
  have h3 : s.wc.bits ≤ 32 := by cases s.wc <;> decide
  have h4 : s.consumed % s.wc.bits + 8 ≤ s.wc.bits ∧ s.byteShift = s.wc.bits - 8 - s.consumed % s.wc.bits := by
    rw [byteShift_eq h.2.1]
    cases hw : s.wc <;> simp only [Width.bits, Width.bytes] <;> omega
  refine ⟨_, ?_, wf_writeCell hm s.bufferId s.cidx.toNat _, orCell_orsBits (v := b.setWidth 32 <<< s.byteShift) hm
    (cidx_lt_len h.2.1 hlt) ?_ ?_ ?_⟩
  · unfold writeOneByte
    rw [if_neg (by rw [exhausted_eq h.2.1]; simpa using Nat.ne_of_lt hlt), cellOr_eq,
      advance_setMem, advance_eq h hlt (.inr ⟨rfl, ha⟩)]
  · rw [cidx_eq h.2.1]
    exact Nat.div_mul_le_self _ _
  · rw [cidx_eq h.2.1]
    simp only [State.bufferId_wc, show (byteBits b).length = 8 from rfl]
    omega
  · intro x hx
    rw [cidx_eq h.2.1, h4.2]
    change x < s.wc.bits at hx
    change _ = (decide (s.consumed ≤ s.consumed / s.wc.bits * s.wc.bits + (s.wc.bits - 1 - x)) &&
      List.getD (byteBits b) (s.consumed / s.wc.bits * s.wc.bits + (s.wc.bits - 1 - x) - s.consumed) false)
    rw [BitVec.getLsbD_shiftLeft, BitVec.getLsbD_setWidth, decide_eq_true (show x < 32 by omega), Bool.true_and]
    by_cases hlo : x < s.wc.bits - 8 - s.consumed % s.wc.bits
    · rw [decide_eq_true hlo, List.getD_eq_default _ _ (by simp only [show (byteBits b).length = 8 from rfl]; omega)]
      simp
    · rw [decide_eq_false hlo]
      by_cases hhi : x < s.wc.bits - s.consumed % s.wc.bits
      · rw [byteBits_getD b _ (by omega), decide_eq_true (show s.consumed ≤ s.consumed / s.wc.bits * s.wc.bits + (s.wc.bits - 1 - x) by omega),
          decide_eq_true (show x - (s.wc.bits - 8 - s.consumed % s.wc.bits) < 32 by omega)]
        simp only [Bool.not_false, Bool.true_and]
        congr 1
        omega
      · rw [decide_eq_false (show ¬(s.consumed ≤ s.consumed / s.wc.bits * s.wc.bits + (s.wc.bits - 1 - x)) by omega),
          BitVec.getLsbD_of_ge _ _ (show 8 ≤ x - (s.wc.bits - 8 - s.consumed % s.wc.bits) by omega)]
        simp

/-! ## Many steps -/

/-- Writing bits in order: as many as fit, ORed in at the stream position (spec/42_writer.md R188). -/
theorem writeBitSeq_eq (bits : List Bool) (h : s.Live) (hm : s.mem.wf = true) :
    ∃ m', writeBitSeq bits s =
        (min bits.length (s.capacity - s.consumed),
         (s.moveTo (s.consumed + min bits.length (s.capacity - s.consumed))).setMem m') ∧
      m'.wf = true ∧
      OrsBits s.mem m' s.bufferId s.consumed (bits.take (s.capacity - s.consumed)) := by
  induction bits generalizing s with
  | nil =>
    refine ⟨s.mem, ?_, hm, ?_⟩
    · simp only [writeBitSeq, List.length_nil, Nat.zero_min, Nat.add_zero, moveTo_consumed_self h.2.1]
      rfl
    · rw [List.take_nil]
      exact orsBits_nil _ _ _
  | cons b bits ih =>
    by_cases hlt : s.consumed < s.capacity
    · obtain ⟨m1, hw, hm1, ho1⟩ := writeOneBit_some b h hm hlt
      have hle : s.consumed + 1 ≤ s.capacity := hlt
      have hc := moveTo_consumed h.2.2 hle
      obtain ⟨m2, hw2, hm2, ho2⟩ := ih (s := (s.moveTo (s.consumed + 1)).setMem m1)
        (setMem_live (moveTo_live h hle)) hm1
      refine ⟨m2, ?_, hm2, ?_⟩
      · unfold writeBitSeq
        rw [hw]
        simp only [hw2, State.setMem_consumed, State.setMem_capacity, State.moveTo_capacity, hc,
          State.setMem_moveTo, State.moveTo_moveTo, State.setMem_setMem, List.length_cons]
        rw [show min (bits.length + 1) (s.capacity - s.consumed) = min bits.length (s.capacity - (s.consumed + 1)) + 1
          by omega]
        congr 3
        omega
      · simp only [State.setMem_consumed, State.setMem_capacity, State.moveTo_capacity, hc, State.setMem_mem,
          State.setMem_bufferId, State.moveTo_bufferId] at ho2
        have := orsBits_append ho1 ho2
        rw [show s.capacity - s.consumed = s.capacity - (s.consumed + 1) + 1 by omega, List.take_succ_cons]
        exact this
    · have hle := consumed_le_capacity h.2.1
      have he : s.consumed = s.capacity := by omega
      refine ⟨s.mem, ?_, hm, ?_⟩
      · unfold writeBitSeq
        rw [writeOneBit_exhausted b h.2.1 he]
        simp only [← he, Nat.sub_self, Nat.min_zero, Nat.add_zero, moveTo_consumed_self h.2.1]
        rfl
      · rw [← he, Nat.sub_self, List.take_zero]
        exact orsBits_nil _ _ _

/-- Writing bytes in order from an aligned position. -/
theorem writeByteSeq_eq (bytes : List Byte) (h : s.Live) (hm : s.mem.wf = true) (ha : s.consumed % 8 = 0) :
    ∃ m', writeByteSeq bytes s =
        (min bytes.length ((s.capacity - s.consumed) / 8),
         (s.moveTo (s.consumed + 8 * min bytes.length ((s.capacity - s.consumed) / 8))).setMem m') ∧
      m'.wf = true ∧
      OrsBits s.mem m' s.bufferId s.consumed ((bytes.take ((s.capacity - s.consumed) / 8)).flatMap byteBits) := by
  induction bytes generalizing s with
  | nil =>
    refine ⟨s.mem, ?_, hm, ?_⟩
    · simp only [writeByteSeq, List.length_nil, Nat.zero_min, Nat.mul_zero, Nat.add_zero, moveTo_consumed_self h.2.1]
      rfl
    · rw [List.take_nil]
      exact orsBits_nil _ _ _
  | cons b bytes ih =>
    have hc8 := capacity_mod_eight s
    by_cases hlt : s.consumed < s.capacity
    · obtain ⟨m1, hw, hm1, ho1⟩ := writeOneByte_some b h hm hlt ha
      have hle : s.consumed + 8 ≤ s.capacity := by omega
      have hc := moveTo_consumed h.2.2 hle
      obtain ⟨m2, hw2, hm2, ho2⟩ := ih (s := (s.moveTo (s.consumed + 8)).setMem m1)
        (setMem_live (moveTo_live h hle)) hm1
        (by simp only [State.setMem_consumed, hc]; omega)
      refine ⟨m2, ?_, hm2, ?_⟩
      · unfold writeByteSeq
        rw [hw]
        simp only [hw2, State.setMem_consumed, State.setMem_capacity, State.moveTo_capacity, hc,
          State.setMem_moveTo, State.moveTo_moveTo, State.setMem_setMem, List.length_cons]
        rw [show min (bytes.length + 1) ((s.capacity - s.consumed) / 8)
          = min bytes.length ((s.capacity - (s.consumed + 8)) / 8) + 1 by omega]
        congr 3
        omega
      · simp only [State.setMem_consumed, State.setMem_capacity, State.moveTo_capacity, hc, State.setMem_mem,
          State.setMem_bufferId, State.moveTo_bufferId] at ho2
        have := orsBits_append ho1 (l' := ((bytes.take ((s.capacity - (s.consumed + 8)) / 8)).flatMap byteBits)) ho2
        rw [show (s.capacity - s.consumed) / 8 = (s.capacity - (s.consumed + 8)) / 8 + 1 by omega,
          List.take_succ_cons, List.flatMap_cons]
        exact this
    · have hle := consumed_le_capacity h.2.1
      have he : s.consumed = s.capacity := by omega
      refine ⟨s.mem, ?_, hm, ?_⟩
      · unfold writeByteSeq
        rw [writeOneByte_exhausted b h.2.1 he]
        simp only [← he, Nat.sub_self, Nat.zero_div, Nat.min_zero, Nat.mul_zero, Nat.add_zero,
          moveTo_consumed_self h.2.1]
        rfl
      · rw [← he, Nat.sub_self, Nat.zero_div, List.take_zero]
        exact orsBits_nil _ _ _

end Sys2Proof.Machine
end

