-- ==== Sys2Proof/Laws/Command.lean ====
section
/-! SUPPORT. The frame of a command: which branch it takes, and what every shared step leaves unchanged in every state
(spec/30_encoding.md R90, spec/60_exceptions.md R228). -/

namespace Sys2Proof.Machine

variable {s t : State}

/-! ## The branch a command takes -/

/-- Everything `command` can do. -/
theorem command_cases {op : Opcode} {f : State → State} (h : command op f s = .next t) :
    (s.admits op.cls = true ∧ t = f s) ∨ (s.admits op.cls = false ∧ t = s.respond .illegalCommand 0 []) := by
  unfold command at h
  split at h
  · next ha => exact .inl ⟨ha, by injection h with h; exact h.symm⟩
  · next ha => exact .inr ⟨by simpa using ha, by injection h with h; exact h.symm⟩

theorem command_admitted {op : Opcode} {f : State → State} (h : s.admits op.cls = true) :
    command op f s = .next (f s) := by
  unfold command
  rw [if_pos h]

theorem command_refused {op : Opcode} {f : State → State} (h : s.admits op.cls = false) :
    command op f s = .next (s.respond .illegalCommand 0 []) := by
  unfold command
  rw [if_neg (by simp [h])]
  rfl

theorem admits_reader (h : s.bound = true) (hm : s.mode = .reader) : s.admits .reader = true := by
  simp [State.admits, h, hm]

theorem admits_writer (h : s.bound = true) (hm : s.mode = .writer) : s.admits .writer = true := by
  simp [State.admits, h, hm]

theorem admits_query (h : s.bound = true) : s.admits .query = true := by
  simp [State.admits, h]

/-! ## What each command does once it is admitted (spec/30_encoding.md R89) -/

/-- A command the block does not admit, whichever it is. -/
theorem exec_refused {i : Instr} (h : s.admits i.opcode.cls = false) :
    exec i s = .next (s.respond .illegalCommand 0 []) := by
  obtain ⟨f, hf⟩ : ∃ f, exec i s = command i.opcode f s := by
    cases i <;>
    · simp only [exec, execBind, execQbpe, execQbitpe, execQrem, execQaln, execQbidx, execRdbit, execRdbits, execRdbitss,
        execCollect, execRdbyte, execRdbytes, execRdall, execNext, execWrbit, execWrbits, execWrbitsv, execWrbyte,
        execWrbytes, execWrbytesv]
      exact ⟨_, rfl⟩
  rw [hf, command_refused h]

theorem exec_bind {mode : Mode} {wc : Width} {len : Word} : exec (.bind mode wc len) s = .next
    (if Config.maxBits < len.toNat * wc.bits then s.respond .invalidArgument 0 []
      else (s.rebind mode wc len).respond .ok 0 []) := by
  unfold exec execBind
  exact command_admitted rfl

theorem exec_qbpe (h : s.admits .query = true) : exec .qbpe s = .next
    (s.respond .ok (BitVec.ofNat 32 s.wc.bytes) []) := by
  unfold exec execQbpe
  exact command_admitted h

theorem exec_qbitpe (h : s.admits .query = true) : exec .qbitpe s = .next
    (s.respond .ok (BitVec.ofNat 32 s.wc.bits) []) := by
  unfold exec execQbitpe
  exact command_admitted h

theorem exec_qrem (h : s.admits .query = true) : exec .qrem s = .next
    (s.respond .ok (BitVec.ofInt 32 s.remaining) []) := by
  unfold exec execQrem
  exact command_admitted h

theorem exec_qaln (h : s.admits .query = true) : exec .qaln s = .next
    (s.respond .ok (if s.aligned then 1 else 0) []) := by
  unfold exec execQaln
  exact command_admitted h

theorem exec_qbidx (h : s.admits .query = true) : exec .qbidx s = .next
    (s.respond .ok (BitVec.ofInt 32 s.byteIndex) []) := by
  unfold exec execQbidx
  exact command_admitted h

theorem exec_rdbit (h : s.admits .reader = true) : exec .rdbit s = .next
    (match readOneBit s with
      | none => s.respond .endOfData 0 []
      | some (b, s') => s'.respond .ok (bitWord b) []) := by
  unfold exec execRdbit
  exact command_admitted h

theorem exec_rdbits {n : Int} (h : s.admits .reader = true) : exec (.rdbits n) s = .next
    (if n < 0 then s.respond .invalidArgument 0 []
      else if s.remaining < n then s.respond .insufficientData 0 []
      else readFolded n.toNat s) := by
  unfold exec execRdbits
  exact command_admitted h

theorem exec_rdbitss {n : Int} (h : s.admits .reader = true) : exec (.rdbitss n) s = .next
    (if n < 0 then s.respond .invalidArgument 0 []
      else (readBitSeq n.toNat s).2.respond .ok 0 ((readBitSeq n.toNat s).1.map bitElement)) := by
  unfold exec execRdbitss
  exact command_admitted h

theorem exec_collect {bits : List Bool} (h : s.admits .reader = true) : exec (.collect bits) s = .next
    (s.respond .ok (fold bits) []) := by
  unfold exec execCollect
  exact command_admitted h

theorem exec_rdbyte (h : s.admits .reader = true) : exec .rdbyte s = .next
    (if !s.aligned then s.respond .misalignedAccess 0 []
      else
        match readOneByte s with
        | none => s.respond .endOfData 0 []
        | some (b, s') => s'.respond .ok (b.setWidth 32) []) := by
  unfold exec execRdbyte
  exact command_admitted h

theorem exec_rdbytes {n : Int} (h : s.admits .reader = true) : exec (.rdbytes n) s = .next
    (if n < 0 then s.respond .invalidArgument 0 []
      else if !s.aligned then s.respond .misalignedAccess 0 []
      else (readByteSeq n.toNat s).2.respond .ok 0 ((readByteSeq n.toNat s).1.map byteElement)) := by
  unfold exec execRdbytes
  exact command_admitted h

theorem exec_rdall (h : s.admits .reader = true) : exec .rdall s = .next
    (readFolded s.remaining.toNat s) := by
  unfold exec execRdall
  exact command_admitted h

theorem exec_next (h : s.admits .reader = true) : exec .next s = .next
    (match readOneBit s with
      | none => s.respond .endOfData s.iter []
      | some (b, s') => (s'.setIter (s'.iter + 1)).respond .ok (bitWord b) []) := by
  unfold exec execNext
  exact command_admitted h

theorem exec_wrbit {bit : Bool} (h : s.admits .writer = true) : exec (.wrbit bit) s = .next
    (respondWritten s (writeOneBit bit s)) := by
  unfold exec execWrbit
  exact command_admitted h

theorem exec_wrbits {bits : List Bool} (h : s.admits .writer = true) : exec (.wrbits bits) s = .next
    ((writeBitSeq (bits.take (min bits.length s.remaining.toNat)) s).2.respond .ok
      (BitVec.ofNat 32 (min bits.length s.remaining.toNat)) []) := by
  unfold exec execWrbits
  exact command_admitted h

theorem exec_wrbitsv {value : Word} {n : Int} (h : s.admits .writer = true) : exec (.wrbitsv value n) s = .next
    (if n < 0 then s.respond .invalidArgument 0 []
      else respondCount (writeBitSeq (valueBits value n.toNat) s)) := by
  unfold exec execWrbitsv
  exact command_admitted h

theorem exec_wrbyte {b : Word} (h : s.admits .writer = true) : exec (.wrbyte b) s = .next
    (if 256 ≤ b.toNat then s.respond .invalidArgument 0 []
      else if !s.aligned then s.respond .misalignedAccess 0 []
      else respondWritten s (writeOneByte (b.setWidth 8) s)) := by
  unfold exec execWrbyte
  exact command_admitted h

theorem exec_wrbytes {bytes : List Byte} (h : s.admits .writer = true) : exec (.wrbytes bytes) s = .next
    (if !s.aligned then s.respond .misalignedAccess 0 []
      else (writeByteSeq (bytes.take (min bytes.length (s.remaining / 8).toNat)) s).2.respond .ok
        (BitVec.ofNat 32 (min bytes.length (s.remaining / 8).toNat)) []) := by
  unfold exec execWrbytes
  exact command_admitted h

theorem exec_wrbytesv {value : Word} {n : Int} (h : s.admits .writer = true) : exec (.wrbytesv value n) s = .next
    (if n < 0 then s.respond .invalidArgument 0 []
      else if !s.aligned then s.respond .misalignedAccess 0 []
      else respondCount (writeByteSeq (valueBytes value n.toNat) s)) := by
  unfold exec execWrbytesv
  exact command_admitted h

/-! ## What the shared steps leave unchanged -/

/-- `t` is `s` but for the cursor. -/
def SameButCursor (s t : State) : Prop := t = { s with cidx := t.cidx, boff := t.boff }

/-- `t` is `s` but for the cursor and the buffers' contents. -/
def SameButCursorAndMem (s t : State) : Prop := t = { s with cidx := t.cidx, boff := t.boff, mem := t.mem }

theorem SameButCursor.refl (s : State) : SameButCursor s s := rfl

theorem SameButCursor.trans {u : State} (h : SameButCursor s t) (h' : SameButCursor t u) : SameButCursor s u := by
  unfold SameButCursor at *
  rw [h', h]

theorem SameButCursorAndMem.refl (s : State) : SameButCursorAndMem s s := rfl

theorem SameButCursorAndMem.trans {u : State} (h : SameButCursorAndMem s t) (h' : SameButCursorAndMem t u) :
    SameButCursorAndMem s u := by
  unfold SameButCursorAndMem at *
  rw [h', h]

/-- Advance writes only the cursor, in every state. -/
theorem advance_sameButCursor (s : State) (n : Nat) : SameButCursor s (s.advance n) := by
  unfold State.advance
  split <;> rfl

theorem readOneBit_sameButCursor {b : Bool} (h : readOneBit s = some (b, t)) : SameButCursor s t := by
  unfold readOneBit at h
  split at h
  · cases h
  · injection h with h
    injection h with _ h
    exact h ▸ advance_sameButCursor s 1

theorem readOneByte_sameButCursor {b : Byte} (h : readOneByte s = some (b, t)) : SameButCursor s t := by
  unfold readOneByte at h
  split at h
  · cases h
  · injection h with h
    injection h with _ h
    exact h ▸ advance_sameButCursor s 8

theorem readBitSeq_sameButCursor (n : Nat) (s : State) : SameButCursor s (readBitSeq n s).2 := by
  induction n generalizing s with
  | zero => exact .refl s
  | succ n ih =>
    unfold readBitSeq
    split
    · exact ih s
    · next heq => exact (readOneBit_sameButCursor heq).trans (ih _)

theorem readByteSeq_sameButCursor (n : Nat) (s : State) : SameButCursor s (readByteSeq n s).2 := by
  induction n generalizing s with
  | zero => exact .refl s
  | succ n ih =>
    unfold readByteSeq
    split
    · exact ih s
    · next heq => exact (readOneByte_sameButCursor heq).trans (ih _)

theorem readBitSeq_length (n : Nat) (s : State) : (readBitSeq n s).1.length = n := by
  induction n generalizing s with
  | zero => rfl
  | succ n ih =>
    unfold readBitSeq
    split <;> simp [ih]

theorem readByteSeq_length (n : Nat) (s : State) : (readByteSeq n s).1.length = n := by
  induction n generalizing s with
  | zero => rfl
  | succ n ih =>
    unfold readByteSeq
    split <;> simp [ih]

/-- Advance of a cursor inside the buffer moves CIDX by at most 1. -/
theorem advance_cidx (n : Nat) (h : s.exhausted = false) :
    s.cidx.toNat ≤ (s.advance n).cidx.toNat ∧ (s.advance n).cidx.toNat ≤ s.cidx.toNat + 1 := by
  have hl := s.len.isLt
  have hx : s.cidx.toNat < s.len.toNat := by simpa [State.exhausted] using h
  unfold State.advance
  split
  · rw [State.setCursor_cidx, BitVec.toNat_add]
    show s.cidx.toNat ≤ (s.cidx.toNat + 1) % 4294967296 ∧ (s.cidx.toNat + 1) % 4294967296 ≤ s.cidx.toNat + 1
    omega
  · rw [State.setCursor_cidx]
    omega

/-- What one store of the writer does in every state: nothing but the cursor and the cell at it changes, the cursor does
not go back, and no bit is cleared. -/
structure Stores (s t : State) : Prop where
  same : SameButCursorAndMem s t
  forward : s.cidx.toNat ≤ t.cidx.toNat
  outside : ∀ a, (a < s.bufferId.cellAddr s.cidx.toNat ∨ s.bufferId.cellAddr t.cidx.toNat + s.wc.bytes ≤ a) →
    t.mem.read a = s.mem.read a
  wf : s.mem.wf = true → t.mem.wf = true
  keeps : s.mem.wf = true → ∀ a, s.mem.read a &&& t.mem.read a = s.mem.read a

theorem Stores.refl (s : State) : Stores s s :=
  ⟨.refl s, Nat.le_refl _, fun _ _ => rfl, id, fun _ _ => BitVec.and_self⟩

theorem cellAddr_mono (b : BufferId) {i j : Nat} (h : i ≤ j) : b.cellAddr i ≤ b.cellAddr j := by
  unfold BufferId.cellAddr
  exact Nat.add_le_add_left (Nat.mul_le_mul_right _ h) _

theorem SameButCursorAndMem.bufferId (h : SameButCursorAndMem s t) : t.bufferId = s.bufferId := by
  rw [h]
  rfl

theorem SameButCursorAndMem.wc (h : SameButCursorAndMem s t) : t.wc = s.wc := by
  rw [h]

theorem and_and_keeps {x y z : Byte} (h1 : x &&& y = x) (h2 : y &&& z = y) : x &&& z = x := by
  rw [← h1, BitVec.and_assoc, h2]

theorem Stores.trans {u : State} (h : Stores s t) (h' : Stores t u) : Stores s u := by
  have hb := h.same.bufferId
  have hw := h.same.wc
  refine ⟨h.same.trans h'.same, Nat.le_trans h.forward h'.forward, fun a ha => ?_, fun w => h'.wf (h.wf w),
    fun w a => and_and_keeps (h.keeps w a) (h'.keeps (h.wf w) a)⟩
  have m1 := cellAddr_mono s.bufferId h.forward
  have m2 := cellAddr_mono s.bufferId h'.forward
  rw [h'.outside a (by rw [hb, hw]; omega), h.outside a (by omega)]

theorem or_keeps (x y : Byte) : x &&& (x ||| y) = x := by
  apply BitVec.eq_of_getLsbD_eq
  intro i _
  simp only [BitVec.getLsbD_and, BitVec.getLsbD_or]
  cases x.getLsbD i <;> simp

/-- `CellOr` at the cursor and then Advance. -/
theorem cellOr_advance_stores (v : Word) (n : Nat) (h : s.exhausted = false) :
    Stores s ((s.cellOr s.cidx.toNat v).advance n) := by
  have hc := advance_cidx n (s := s.cellOr s.cidx.toNat v) h
  have hsame : ((s.cellOr s.cidx.toNat v).advance n).mem = (s.cellOr s.cidx.toNat v).mem := by
    unfold State.advance
    split <;> rfl
  have hout : ∀ a, (a < s.bufferId.cellAddr s.cidx.toNat ∨ s.bufferId.cellAddr s.cidx.toNat + s.wc.bytes ≤ a) →
      (s.cellOr s.cidx.toNat v).mem.read a = s.mem.read a :=
    fun a ha => writeCell_read_other s.mem s.bufferId s.cidx.toNat _ ha
  refine ⟨?_, hc.1, fun a ha => ?_, fun w => ?_, fun w a => ?_⟩
  · unfold State.advance
    split <;> rfl
  · have m := cellAddr_mono s.bufferId (show s.cidx.toNat ≤ _ from hc.1)
    rw [hsame, hout a (by omega)]
  · rw [hsame]
    exact wf_writeCell w s.bufferId _ _
  · rw [hsame]
    by_cases hin : a < s.bufferId.cellAddr s.cidx.toNat ∨ s.bufferId.cellAddr s.cidx.toNat + s.wc.bytes ≤ a
    · rw [hout a hin, BitVec.and_self]
    · obtain ⟨k, hk, rfl⟩ : ∃ k, k < s.bufferId.wc.bytes ∧ a = s.bufferId.cellAddr s.cidx.toNat + k :=
        ⟨a - s.bufferId.cellAddr s.cidx.toNat, by simp only [State.bufferId_wc]; omega, by omega⟩
      rw [State.cellOr_mem]
      unfold State.memRead
      rw [orCell_read_byte w s.bufferId _ _ hk]
      exact or_keeps _ _

theorem writeOneBit_stores {bit : Bool} (h : writeOneBit bit s = some t) : Stores s t := by
  unfold writeOneBit at h
  split at h
  · cases h
  · next hx =>
    injection h with h
    exact h ▸ cellOr_advance_stores _ 1 (by simpa using hx)

theorem writeOneByte_stores {b : Byte} (h : writeOneByte b s = some t) : Stores s t := by
  unfold writeOneByte at h
  split at h
  · cases h
  · next hx =>
    injection h with h
    exact h ▸ cellOr_advance_stores _ 8 (by simpa using hx)

theorem writeBitSeq_stores (bits : List Bool) (s : State) : Stores s (writeBitSeq bits s).2 := by
  induction bits generalizing s with
  | nil => exact .refl s
  | cons b bits ih =>
    unfold writeBitSeq
    split
    · exact .refl s
    · next heq => exact (writeOneBit_stores heq).trans (ih _)

theorem writeByteSeq_stores (bytes : List Byte) (s : State) : Stores s (writeByteSeq bytes s).2 := by
  induction bytes generalizing s with
  | nil => exact .refl s
  | cons b bytes ih =>
    unfold writeByteSeq
    split
    · exact .refl s
    · next heq => exact (writeOneByte_stores heq).trans (ih _)

/-- Everything a command can do, in every state: the state before its response, which the reader's steps, the writer's
steps or BIND reach, and the one response. -/
inductive Reaches (i : Instr) (s : State) : State → Prop where
  | same : Reaches i s s
  | bind (mode : Mode) (wc : Width) (len : Word) (h : len.toNat * wc.bits ≤ Config.maxBits)
      (hi : i = .bind mode wc len) : Reaches i s (s.rebind mode wc len)
  | reads {t : State} (h : SameButCursor s t) (hi : i.opcode.cls = .reader) : Reaches i s t
  | counts {t : State} (h : SameButCursor s t) (n : Word) (hi : i = .next) : Reaches i s (t.setIter n)
  | stores {t : State} (h : Stores s t) (hi : i.opcode.cls = .writer) : Reaches i s t

/-- Every command answers a next state: a state it reaches, with one response added. -/
theorem exec_reaches (i : Instr) (s : State) :
    ∃ u st v q, Reaches i s u ∧ exec i s = .next (u.respond st v q) := by
  have key : ∀ (op : Opcode) (f : State → State), (∃ u st v q, Reaches i s u ∧ f s = u.respond st v q) →
      ∃ u st v q, Reaches i s u ∧ command op f s = .next (u.respond st v q) := by
    intro op f ⟨u, st, v, q, hr, hf⟩
    unfold command
    split
    · exact ⟨u, st, v, q, hr, by rw [hf]⟩
    · exact ⟨s, .illegalCommand, 0, [], .same, rfl⟩
  cases i with
  | bind mode wc len =>
    unfold exec execBind
    refine key _ _ ?_
    by_cases hl : Config.maxBits < len.toNat * wc.bits
    · exact ⟨s, _, _, _, .same, by rw [if_pos hl]; rfl⟩
    · exact ⟨_, _, _, _, .bind mode wc len (by omega) rfl, by rw [if_neg hl]⟩
  | qbpe =>
    unfold exec execQbpe
    exact key _ _ ⟨s, _, _, _, .same, rfl⟩
  | qbitpe =>
    unfold exec execQbitpe
    exact key _ _ ⟨s, _, _, _, .same, rfl⟩
  | qrem =>
    unfold exec execQrem
    exact key _ _ ⟨s, _, _, _, .same, rfl⟩
  | qaln =>
    unfold exec execQaln
    exact key _ _ ⟨s, _, _, _, .same, rfl⟩
  | qbidx =>
    unfold exec execQbidx
    exact key _ _ ⟨s, _, _, _, .same, rfl⟩
  | rdbit =>
    unfold exec execRdbit
    refine key _ _ ?_
    cases hr : readOneBit s with
    | none => exact ⟨s, _, _, _, .same, rfl⟩
    | some r => exact ⟨r.2, _, _, _, .reads (readOneBit_sameButCursor (b := r.1) hr) rfl, rfl⟩
  | rdbits n =>
    unfold exec execRdbits
    refine key _ _ ?_
    by_cases h1 : n < 0
    · exact ⟨s, _, _, _, .same, by rw [if_pos h1]; rfl⟩
    · by_cases h2 : s.remaining < n
      · exact ⟨s, _, _, _, .same, by rw [if_neg h1, if_pos h2]; rfl⟩
      · exact ⟨_, _, _, _, .reads (readBitSeq_sameButCursor n.toNat s) rfl, by rw [if_neg h1, if_neg h2]; rfl⟩
  | rdbitss n =>
    unfold exec execRdbitss
    refine key _ _ ?_
    by_cases h1 : n < 0
    · exact ⟨s, _, _, _, .same, by rw [if_pos h1]; rfl⟩
    · exact ⟨_, _, _, _, .reads (readBitSeq_sameButCursor n.toNat s) rfl, by rw [if_neg h1]⟩
  | collect bits =>
    unfold exec execCollect
    exact key _ _ ⟨s, _, _, _, .same, rfl⟩
  | rdbyte =>
    unfold exec execRdbyte
    refine key _ _ ?_
    by_cases h1 : (!s.aligned) = true
    · exact ⟨s, _, _, _, .same, by rw [if_pos h1]; rfl⟩
    · rw [if_neg h1]
      cases hr : readOneByte s with
      | none => exact ⟨s, _, _, _, .same, rfl⟩
      | some r => exact ⟨r.2, _, _, _, .reads (readOneByte_sameButCursor (b := r.1) hr) rfl, rfl⟩
  | rdbytes n =>
    unfold exec execRdbytes
    refine key _ _ ?_
    by_cases h1 : n < 0
    · exact ⟨s, _, _, _, .same, by rw [if_pos h1]; rfl⟩
    · by_cases h2 : (!s.aligned) = true
      · exact ⟨s, _, _, _, .same, by rw [if_neg h1, if_pos h2]; rfl⟩
      · exact ⟨_, _, _, _, .reads (readByteSeq_sameButCursor n.toNat s) rfl, by rw [if_neg h1, if_neg h2]⟩
  | rdall =>
    unfold exec execRdall
    exact key _ _ ⟨_, _, _, _, .reads (readBitSeq_sameButCursor s.remaining.toNat s) rfl, rfl⟩
  | next =>
    unfold exec execNext
    refine key _ _ ?_
    cases hr : readOneBit s with
    | none => exact ⟨s, _, _, _, .same, rfl⟩
    | some r => exact ⟨r.2.setIter (r.2.iter + 1), _, _, _, .counts (readOneBit_sameButCursor (b := r.1) hr) _ rfl, rfl⟩
  | wrbit bit =>
    unfold exec execWrbit
    refine key _ _ ?_
    cases hr : writeOneBit bit s with
    | none => exact ⟨s, _, _, _, .same, rfl⟩
    | some t => exact ⟨t, _, _, _, .stores (writeOneBit_stores hr) rfl, rfl⟩
  | wrbits bits =>
    unfold exec execWrbits
    exact key _ _ ⟨_, _, _, _, .stores (writeBitSeq_stores _ s) rfl, rfl⟩
  | wrbitsv value n =>
    unfold exec execWrbitsv
    refine key _ _ ?_
    by_cases h1 : n < 0
    · exact ⟨s, _, _, _, .same, by rw [if_pos h1]; rfl⟩
    · exact ⟨_, _, _, _, .stores (writeBitSeq_stores _ s) rfl, by rw [if_neg h1]; rfl⟩
  | wrbyte b =>
    unfold exec execWrbyte
    refine key _ _ ?_
    by_cases h1 : 256 ≤ b.toNat
    · exact ⟨s, _, _, _, .same, by rw [if_pos h1]; rfl⟩
    · by_cases h2 : (!s.aligned) = true
      · exact ⟨s, _, _, _, .same, by rw [if_neg h1, if_pos h2]; rfl⟩
      · rw [if_neg h1, if_neg h2]
        cases hr : writeOneByte (b.setWidth 8) s with
        | none => exact ⟨s, _, _, _, .same, rfl⟩
        | some t => exact ⟨t, _, _, _, .stores (writeOneByte_stores hr) rfl, rfl⟩
  | wrbytes bytes =>
    unfold exec execWrbytes
    refine key _ _ ?_
    by_cases h2 : (!s.aligned) = true
    · exact ⟨s, _, _, _, .same, by rw [if_pos h2]; rfl⟩
    · exact ⟨_, _, _, _, .stores (writeByteSeq_stores _ s) rfl, by rw [if_neg h2]⟩
  | wrbytesv value n =>
    unfold exec execWrbytesv
    refine key _ _ ?_
    by_cases h1 : n < 0
    · exact ⟨s, _, _, _, .same, by rw [if_pos h1]; rfl⟩
    · by_cases h2 : (!s.aligned) = true
      · exact ⟨s, _, _, _, .same, by rw [if_neg h1, if_pos h2]; rfl⟩
      · exact ⟨_, _, _, _, .stores (writeByteSeq_stores _ s) rfl, by rw [if_neg h1, if_neg h2]; rfl⟩

/-- The state a command reaches holds the responses the state before it held. -/
theorem Reaches.responses {i : Instr} {u : State} (h : Reaches i s u) : u.responses = s.responses := by
  cases h with
  | same => rfl
  | bind => rfl
  | reads h => rw [h]
  | counts h n =>
    unfold SameButCursor at h
    rw [State.setIter_responses, h]
  | stores h => rw [h.same]

/-- A command that is not BIND leaves the binding and the host's side as they were. -/
theorem Reaches.binding {i : Instr} {u : State} (h : Reaches i s u) (hi : i.opcode ≠ .bind) :
    u.bound = s.bound ∧ u.mode = s.mode ∧ u.wc = s.wc ∧ u.len = s.len ∧ u.buf = s.buf ∧
      u.designated = s.designated ∧ u.pending = s.pending := by
  cases h with
  | same => exact ⟨rfl, rfl, rfl, rfl, rfl, rfl, rfl⟩
  | bind mode wc len h hb => exact absurd (by rw [hb]; rfl) hi
  | reads h => rw [h]; exact ⟨rfl, rfl, rfl, rfl, rfl, rfl, rfl⟩
  | counts h n =>
    unfold SameButCursor at h
    rw [h]
    exact ⟨rfl, rfl, rfl, rfl, rfl, rfl, rfl⟩
  | stores h => rw [h.same]; exact ⟨rfl, rfl, rfl, rfl, rfl, rfl, rfl⟩

end Sys2Proof.Machine
end

