-- ==== Sys2Proof/Laws/PerInstr.lean ====
section
/-! SUPPORT. One fact per command about its spelling: its command word carries its own opcode, and no bit that its format
reserves (spec/30_encoding.md R81 to R84, R89). -/

namespace Sys2Proof.Laws.CommandWord

/-- The command word of `i` is read as the opcode of `i`, and its reserved bits are 0. -/
def Statement (i : Instr) : Prop :=
  Opcode.ofCode (opcField i.commandWord) = some i.opcode ∧ i.commandWord &&& i.opcode.format.reservedMask = 0

theorem plain (op : Opcode) : Opcode.ofCode (opcField (op.code ++ (0 : BitVec 16) ++ (0 : BitVec 8))) = some op ∧
    (op.code ++ (0 : BitVec 16) ++ (0 : BitVec 8) : Word) &&& op.format.reservedMask = 0 := by
  cases op <;> decide

theorem bind (mode : Mode) (wc : Width) (len : Word) : Statement (.bind mode wc len) := by
  cases mode <;> cases wc <;>
  · simp only [Statement, Instr.commandWord, Instr.fnField, Instr.opcode, Mode.bit, Width.code]
    decide

theorem qbpe : Statement .qbpe := plain .qbpe
theorem qbitpe : Statement .qbitpe := plain .qbitpe
theorem qrem : Statement .qrem := plain .qrem
theorem qaln : Statement .qaln := plain .qaln
theorem qbidx : Statement .qbidx := plain .qbidx
theorem rdbit : Statement .rdbit := plain .rdbit
theorem rdbits (n : Int) : Statement (.rdbits n) := plain .rdbits
theorem rdbitss (n : Int) : Statement (.rdbitss n) := plain .rdbitss
theorem collect (bits : List Bool) : Statement (.collect bits) := plain .collect
theorem rdbyte : Statement .rdbyte := plain .rdbyte
theorem rdbytes (n : Int) : Statement (.rdbytes n) := plain .rdbytes
theorem rdall : Statement .rdall := plain .rdall
theorem next : Statement .next := plain .next

theorem wrbit (bit : Bool) : Statement (.wrbit bit) := by
  cases bit <;>
  · simp only [Statement, Instr.commandWord, Instr.fnField, Instr.opcode]
    decide

theorem wrbits (bits : List Bool) : Statement (.wrbits bits) := plain .wrbits
theorem wrbitsv (value : Word) (n : Int) : Statement (.wrbitsv value n) := plain .wrbitsv
theorem wrbyte (b : Word) : Statement (.wrbyte b) := plain .wrbyte
theorem wrbytes (bytes : List Byte) : Statement (.wrbytes bytes) := plain .wrbytes
theorem wrbytesv (value : Word) (n : Int) : Statement (.wrbytesv value n) := plain .wrbytesv

end Sys2Proof.Laws.CommandWord
end

