-- ==== Sys2Proof/Laws/Decode.lean ====
section
/-! SUPPORT. The decoder in two directions: what it does with a word whose opcode and reserved bits are known, and what is
known of a word it accepts (spec/30_encoding.md R90). -/

namespace Sys2Proof

theorem Opcode.ofCode_code (o : Opcode) : Opcode.ofCode o.code = some o := by cases o <;> rfl

theorem Opcode.code_of_ofCode {c : BitVec 8} {o : Opcode} (h : Opcode.ofCode c = some o) : o.code = c := by
  simpa using List.find?_some h

/-- A word of a known opcode whose reserved bits are 0 goes on to its operands. -/
theorem decode_of_opcode {t : Transaction} {op : Opcode} (h : Opcode.ofCode (opcField t.cmd) = some op)
    (hz : t.cmd &&& op.format.reservedMask = 0) : decode t = assemble op t := by
  unfold decode
  rw [h]
  simp only [hz, ↓reduceIte]

/-- The same of a word written out as a numeral: with `c` and `op` given, both hypotheses are closed. -/
theorem decode_word (c : Word) (op : Opcode) (a n : Word) (q : List Byte) (h : Opcode.ofCode (opcField c) = some op)
    (hz : c &&& op.format.reservedMask = 0) : decode ⟨c, a, n, q⟩ = assemble op ⟨c, a, n, q⟩ :=
  decode_of_opcode h hz

/-- Everything the decoder has checked of a transaction it accepts. -/
theorem decode_ok {t : Transaction} {i : Instr} (h : decode t = .ok i) :
    Opcode.ofCode (opcField t.cmd) = some i.opcode ∧ t.cmd &&& i.opcode.format.reservedMask = 0 ∧
      assemble i.opcode t = .ok i := by
  unfold decode at h
  cases ho : Opcode.ofCode (opcField t.cmd) with
  | none => rw [ho] at h; cases h
  | some op =>
    rw [ho] at h
    by_cases hz : t.cmd &&& op.format.reservedMask = 0
    · simp only [hz, ↓reduceIte] at h
      have hop : i.opcode = op := by
        cases op <;> simp only [assemble, Except.ok.injEq] at h
        case bind =>
          split at h
          · injection h with h; rw [← h]; rfl
          · cases h
        all_goals (rw [← h]; rfl)
      rw [hop]
      exact ⟨rfl, hz, h⟩
    · simp only [hz, ↓reduceIte] at h
      cases h

/-! ## Operands and fields -/

/-- A count that fits OPN survives it (R86). -/
theorem sint32_countWord {n : Int} (hn : countFits n = true) : sint32 (countWord n) = n := by
  simp only [countFits, Bool.and_eq_true, decide_eq_true_eq] at hn
  unfold sint32 countWord
  rw [BitVec.toInt_ofInt, Int.bmod_def]
  norm_num
  omega

theorem countFits_sint32 (x : Word) : countFits (sint32 x) = true := by
  have h1 := BitVec.le_two_mul_toInt (x := x)
  have h2 := BitVec.two_mul_toInt_lt (x := x)
  norm_num at h1 h2
  unfold countFits sint32
  rw [decide_eq_true (by omega), decide_eq_true (by omega)]
  rfl

theorem countWord_sint32 (x : Word) : countWord (sint32 x) = x := by
  simp [countWord, sint32]

/-- A bit sequence survives its lanes (R87). -/
theorem map_laneBit_map_bitLane (l : List Bool) : (l.map bitLane).map laneBit = l := by
  induction l with
  | nil => rfl
  | cons b l ih => cases b <;> simpa [bitLane, laneBit] using ih

/-- OPC as a number (R81). -/
theorem opcField_toNat (c : Word) : (opcField c).toNat = c.toNat / 2 ^ 24 := by
  have := c.isLt
  simp only [opcField, BitVec.extractLsb'_toNat, Nat.shiftRight_eq_div_pow]
  omega

/-- A mask of the bits `k` to 23 is clear of `c` exactly when those bits are 0. -/
theorem and_mask_eq_zero_iff (c m : Word) (k : Nat)
    (hm : ∀ j, j < 32 → m.getLsbD j = (decide (k ≤ j) && decide (j < 24))) :
    c &&& m = 0 ↔ c.toNat / 2 ^ k % 2 ^ (24 - k) = 0 := by
  constructor
  · intro h
    apply Nat.eq_of_testBit_eq
    intro i
    rw [Nat.testBit_mod_two_pow, Nat.testBit_div_two_pow, Nat.zero_testBit]
    by_cases hi : i < 24 - k
    · have := congrArg (fun x => BitVec.getLsbD x (i + k)) h
      simp only [BitVec.getLsbD_and, hm (i + k) (by omega)] at this
      rw [decide_eq_true (by omega), decide_eq_true (by omega)] at this
      simp only [Bool.and_true] at this
      have h2 : c.toNat.testBit (i + k) = false := this.trans (by simp)
      simp [h2]
    · simp [hi]
  · intro h
    apply BitVec.eq_of_getLsbD_eq
    intro j hj
    rw [BitVec.getLsbD_and, hm j hj]
    by_cases h1 : k ≤ j ∧ j < 24
    · have := congrArg (fun x => Nat.testBit x (j - k)) h
      simp only [Nat.testBit_mod_two_pow, Nat.testBit_div_two_pow, Nat.zero_testBit] at this
      rw [decide_eq_true (by omega), Bool.true_and, show j - k + k = j by omega] at this
      have h2 : c.getLsbD j = false := this
      simp [h2]
    · have : (decide (k ≤ j) && decide (j < 24)) = false := by
        rw [Bool.and_eq_false_iff, decide_eq_false_iff_not, decide_eq_false_iff_not]
        omega
      rw [this]
      simp

theorem below_32 (P : Nat → Prop) [DecidablePred P] (h : (List.range 32).all (fun i => decide (P i)) = true) :
    ∀ i, i < 32 → P i := by
  intro i hi
  simpa using List.all_eq_true.mp h i (List.mem_range.mpr hi)

/-- The reserved bits of each format, as a number (R82, R83, R84). -/
theorem reserved_n (c : Word) : c &&& Format.n.reservedMask = 0 ↔ c.toNat % 2 ^ 24 = 0 := by
  simpa using and_mask_eq_zero_iff c Format.n.reservedMask 0 (below_32 _ (by decide))

theorem reserved_b (c : Word) : c &&& Format.b.reservedMask = 0 ↔ c.toNat / 8 % 2 ^ 21 = 0 := by
  simpa using and_mask_eq_zero_iff c Format.b.reservedMask 3 (below_32 _ (by decide))

theorem reserved_w (c : Word) : c &&& Format.w.reservedMask = 0 ↔ c.toNat / 2 % 2 ^ 23 = 0 := by
  simpa using and_mask_eq_zero_iff c Format.w.reservedMask 1 (below_32 _ (by decide))

/-- OPC of a transaction that decodes is its command's. -/
theorem opcode_code_toNat {t : Transaction} {i : Instr} (h : decode t = .ok i) :
    i.opcode.code.toNat = t.cmd.toNat / 2 ^ 24 := by
  rw [Opcode.code_of_ofCode (decode_ok h).1, opcField_toNat]

end Sys2Proof
end

