-- ==== Sys2Proof/Tests/Slice0.lean ====
section
/-! SUPPORT. Tests of one step or one definition each, with expected results from spec/95_test_vectors.md (the vector is
named at each), the words of spec/30_encoding.md written out bit by bit, a smoke test of WellFormed, and a witness for
every statement that has hypotheses. -/

namespace Sys2Proof.Tests

open Sys2Proof Sys2Proof.Machine

/-! ## Small states and what is read from an outcome -/

/-- The cells of a buffer from index `i` on. -/
def fill (m : Memory) (b : BufferId) : Nat → List Word → Memory
  | _, [] => m
  | i, c :: cells => fill (writeCell m b i c) b (i + 1) cells

/-- A block bound to buffer 0 holding `cells`, with the cursor at `{cidx, boff}`. -/
def boundTo (mode : Mode) (w : Width) (cells : List Word) (cidx : Nat) (boff : Nat) : State :=
  { State.reset with
    bound := true, mode := mode, wc := w, len := BitVec.ofNat 32 cells.length, cidx := BitVec.ofNat 32 cidx,
    boff := BitVec.ofNat 6 boff
    mem := fill [] { num := 0, wc := w, len := BitVec.ofNat 32 cells.length } 0 cells }

/-- The last response, with the cursor it leaves as `{CIDX, BOFF, rem}`. -/
def seen (o : Host.Outcome State Fault Refusal) : Option (Response × Nat × Nat × Int) :=
  match o with
  | .next t => t.responses.getLast?.map fun r => (r, t.cidx.toNat, t.boff.toNat, t.remaining)
  | .fault _ => none
  | .refused _ => none

/-- The bound buffer's cells, from index 0. -/
def cells (o : Host.Outcome State Fault Refusal) : Option (List Word) :=
  match o with
  | .next t => some ((List.range t.len.toNat).map t.memRead)
  | .fault _ => none
  | .refused _ => none

/-- A response of STATUS, RVAL and an empty RSEQ. -/
def resp (status : Status) (v : Word) : Response := { status := status, rval := v, rseq := [] }

/-! ## Well-formedness: each count out of its port's range is refused (R86) -/

theorem test_wf_rdbits : (Instr.rdbits 2147483648).wellFormed = false ∧ (Instr.rdbits (-2147483649)).wellFormed = false ∧
    (Instr.rdbits (-2147483648)).wellFormed = true := by decide
theorem test_wf_rdbitss : (Instr.rdbitss 2147483648).wellFormed = false ∧
    (Instr.rdbitss (-2147483649)).wellFormed = false := by decide
theorem test_wf_rdbytes : (Instr.rdbytes 2147483648).wellFormed = false ∧
    (Instr.rdbytes (-2147483649)).wellFormed = false := by decide
theorem test_wf_wrbitsv : (Instr.wrbitsv 0 2147483648).wellFormed = false ∧
    (Instr.wrbitsv 0 (-2147483649)).wellFormed = false := by decide
theorem test_wf_wrbytesv : (Instr.wrbytesv 0 2147483648).wellFormed = false ∧
    (Instr.wrbytesv 0 (-2147483649)).wellFormed = false := by decide

/-! ## Decoding: OPC CMD[31:24], RSV CMD[23:8], FN CMD[7:0], from the table of R89 -/

theorem test_decode_bind : decode ⟨0b00000001000000000000000000000101, 2, 0, []⟩ = .ok (.bind .writer .w16 2) := by decide
theorem test_decode_qbpe : decode ⟨0b00000010000000000000000000000000, 0, 0, []⟩ = .ok .qbpe := by decide
theorem test_decode_qbitpe : decode ⟨0b00000011000000000000000000000000, 0, 0, []⟩ = .ok .qbitpe := by decide
theorem test_decode_qrem : decode ⟨0b00000100000000000000000000000000, 0, 0, []⟩ = .ok .qrem := by decide
theorem test_decode_qaln : decode ⟨0b00000101000000000000000000000000, 0, 0, []⟩ = .ok .qaln := by decide
theorem test_decode_qbidx : decode ⟨0b00000110000000000000000000000000, 0, 0, []⟩ = .ok .qbidx := by decide
theorem test_decode_rdbit : decode ⟨0b00010000000000000000000000000000, 0, 0, []⟩ = .ok .rdbit := by decide
theorem test_decode_rdbits :
    decode ⟨0b00010001000000000000000000000000, 0, 0b11111111111111111111111111111111, []⟩ = .ok (.rdbits (-1)) := by decide
theorem test_decode_rdbitss :
    decode ⟨0b00010010000000000000000000000000, 0, 0b100, []⟩ = .ok (.rdbitss 4) := by decide
theorem test_decode_collect :
    decode ⟨0b00010011000000000000000000000000, 0, 0, [0, 0, 0, 1]⟩ = .ok (.collect [false, false, false, true]) := by decide
theorem test_decode_rdbyte : decode ⟨0b00010100000000000000000000000000, 0, 0, []⟩ = .ok .rdbyte := by decide
theorem test_decode_rdbytes :
    decode ⟨0b00010101000000000000000000000000, 0, 0b11, []⟩ = .ok (.rdbytes 3) := by decide
theorem test_decode_rdall : decode ⟨0b00010110000000000000000000000000, 0, 0, []⟩ = .ok .rdall := by decide
theorem test_decode_next : decode ⟨0b00010111000000000000000000000000, 0, 0, []⟩ = .ok .next := by decide
theorem test_decode_wrbit : decode ⟨0b00100000000000000000000000000001, 0, 0, []⟩ = .ok (.wrbit true) := by decide
theorem test_decode_wrbits :
    decode ⟨0b00100001000000000000000000000000, 0, 0, [1, 0, 1]⟩ = .ok (.wrbits [true, false, true]) := by decide
theorem test_decode_wrbitsv :
    decode ⟨0b00100010000000000000000000000000, 0b00110101, 0b1001, []⟩ = .ok (.wrbitsv 0x35 9) := by decide
theorem test_decode_wrbyte :
    decode ⟨0b00100011000000000000000000000000, 0b100000000, 0, []⟩ = .ok (.wrbyte 256) := by decide
theorem test_decode_wrbytes :
    decode ⟨0b00100100000000000000000000000000, 0, 0, [0xAB, 0xCD]⟩ = .ok (.wrbytes [0xAB, 0xCD]) := by decide
theorem test_decode_wrbytesv :
    decode ⟨0b00100101000000000000000000000000, 0x00ABCDEF, 0b11, []⟩ = .ok (.wrbytesv 0x00ABCDEF 3) := by decide

/-- The first reserved opcode on each side of each group of R89 (T-D1, T-D2). -/
theorem test_decode_reserved_opcodes :
    [0x00000000, 0x07000000, 0x0F000000, 0x18000000, 0x1F000000, 0x26000000, 0xFF000000].all
      (fun c => decode ⟨c, 0, 0, []⟩ == .error .reservedOpcode) = true := by decide

/-- T-D3, T-D4, T-C13, T-C12, and bit 23 of each format. -/
theorem test_decode_reserved_bits :
    [0x11000001, 0x20000002, 0x01000008, 0x11800000, 0x20800000, 0x01800000].all
      (fun c => decode ⟨c, 0, 0, []⟩ == .error .reservedField) = true ∧
    decode ⟨0x01000003, 0, 0, []⟩ = .error .reservedWidth := by decide

/-- A row's word as the host gives it: 32 bits alone, or with OPA and OPN above them. -/
theorem test_decode_table_word :
    decodeTableWord 32 0x04000000 = some .qrem ∧ decodeTableWord 32 0x01000007 = none ∧
    decodeTableWord 32 0x00000003_01000004 = some (.bind .writer .w8 0) ∧
    decodeTableWord 96 0x00000009_00000035_22000000 = some (.wrbitsv 0x35 9) := by decide

/-- The host's transaction runs as the first step after reset: BIND has its effect (T-C7), QREM is refused (T-C1). -/
theorem test_first_step :
    seen (step (State.reset.withFetchWord 32 0x01000000)) = some (resp .ok 0, 0, 1, 0) ∧
    seen (step (State.reset.withFetchWord 32 0x04000000)) = some (resp .illegalCommand 0, 0, 1, 0) := by decide

/-! ## One command, from a state of spec/95_test_vectors.md -/

/-- Buffer A of its section 4. -/
def bufA : List Word := [0xAB, 0xCD, 0xEF]

/-- Buffer Q of its section 4. -/
def bufQ : List Word := [0x12345678, 0x9ABCDEF0]

/-- Buffer H of its section 4. -/
def bufH : List Word := [0xABCD]

/-- T-C8 and T-C9: the largest LEN of 8-bit cells, and one more, which keeps the previous binding. -/
theorem test_bind_largest :
    seen (execBind .reader .w8 536870911 State.reset) = some (resp .ok 0, 0, 1, 4294967288) ∧
    seen (execBind .reader .w8 536870912 (boundTo .reader .w16 bufH 0 1)) = some (resp .invalidArgument 0, 0, 1, 16) := by
  decide
/-- T-C11 and T-C10. -/
theorem test_bind_widths :
    seen (execBind .reader .w16 268435455 State.reset) = some (resp .ok 0, 0, 1, 4294967280) ∧
    seen (execBind .reader .w32 134217728 State.reset) = some (resp .invalidArgument 0, 0, 1, 0) := by decide

/-- T-C3. -/
theorem test_qbpe : seen (execQbpe (boundTo .reader .w16 bufH 0 1)) = some (resp .ok 2, 0, 1, 16) := by decide
/-- T-C3. -/
theorem test_qbitpe : seen (execQbitpe (boundTo .reader .w16 bufH 0 1)) = some (resp .ok 16, 0, 1, 16) := by decide
/-- T-C4 and T-D8, a query in WRITER mode. -/
theorem test_qrem :
    seen (execQrem (boundTo .reader .w16 bufH 0 13)) = some (resp .ok 4, 0, 13, 4) ∧
    seen (execQrem (boundTo .writer .w8 [0x80] 0 2)) = some (resp .ok 7, 0, 2, 7) := by decide
/-- T-C4 and T-C5. -/
theorem test_qaln :
    seen (execQaln (boundTo .reader .w16 bufH 0 13)) = some (resp .ok 0, 0, 13, 4) ∧
    seen (execQaln (boundTo .reader .w16 bufH 1 1)) = some (resp .ok 1, 1, 1, 0) := by decide
/-- T-C4 and T-C14. -/
theorem test_qbidx :
    seen (execQbidx (boundTo .reader .w16 bufH 0 13)) = some (resp .ok 1, 0, 13, 4) ∧
    seen (execQbidx (boundTo .reader .w32 bufQ 1 5)) = some (resp .ok 4, 1, 5, 28) := by decide

/-- R110 and R34 by hand, at the last bit of a byte, with a carry (`0*1 + 7 div 8` to `1*1 + 0 div 8`) and without one
(`0*2 + 7 div 8` to `0*2 + 8 div 8`): byteIndex goes from 0 to 1, where R112's last sentence has it stay (log entry 11). -/
theorem test_advance_over_the_last_bit_of_a_byte :
    (boundTo .reader .w8 bufA 0 8).byteIndex = 0 ∧ ((boundTo .reader .w8 bufA 0 8).advance 1).byteIndex = 1 ∧
    (boundTo .reader .w16 bufH 0 8).byteIndex = 0 ∧ ((boundTo .reader .w16 bufH 0 8).advance 1).byteIndex = 1 := by
  decide

/-- T-R4, T-R6 and T-D5, in WRITER mode. -/
theorem test_rdbit :
    seen (execRdbit (boundTo .reader .w8 bufA 0 1)) = some (resp .ok 1, 0, 2, 23) ∧
    seen (execRdbit (boundTo .reader .w8 bufA 3 1)) = some (resp .endOfData 0, 3, 1, 0) ∧
    seen (execRdbit (boundTo .writer .w8 bufA 0 1)) = some (resp .illegalCommand 0, 0, 1, 24) := by decide
set_option maxRecDepth 8000 in
/-- T-S1, T-R5, T-R7: across cells, to the end, and more than 32 bits. -/
theorem test_rdbits :
    seen (execRdbits 12 (boundTo .reader .w8 bufA 0 1)) = some (resp .ok 0xABC, 1, 5, 12) ∧
    seen (execRdbits 23 (boundTo .reader .w8 bufA 0 2)) = some (resp .ok 0x2BCDEF, 3, 1, 0) ∧
    seen (execRdbits 36 (boundTo .reader .w32 bufQ 0 1)) = some (resp .ok 0x23456789, 1, 5, 28) := by decide
/-- T-R1, T-R2, T-R6. -/
theorem test_rdbits_errors :
    seen (execRdbits (-1) (boundTo .reader .w8 bufA 0 1)) = some (resp .invalidArgument 0, 0, 1, 24) ∧
    seen (execRdbits 25 (boundTo .reader .w8 bufA 0 1)) = some (resp .insufficientData 0, 0, 1, 24) ∧
    seen (execRdbits 0 (boundTo .reader .w8 bufA 3 1)) = some (resp .ok 0, 3, 1, 0) := by decide
/-- T-R10 and T-R9. -/
theorem test_rdbitss :
    seen (execRdbitss 4 (boundTo .reader .w8 [0xA0] 0 7)) =
      some ({ status := .ok, rval := 0, rseq := [.two 0b00, .two 0b00, .two 0b10, .two 0b10] }, 1, 1, 0) ∧
    seen (execRdbitss (-5) (boundTo .reader .w8 [0xA0] 0 7)) = some (resp .invalidArgument 0, 0, 7, 2) := by decide
/-- T-R13, T-R12, T-R16. -/
theorem test_collect :
    seen (execCollect [true, false, true, false, true, false, true, true, true, true, false, false]
      (boundTo .reader .w8 bufA 0 1)) = some (resp .ok 0xABC, 0, 1, 24) ∧
    seen (execCollect [] (boundTo .reader .w8 bufA 0 1)) = some (resp .ok 0, 0, 1, 24) ∧
    seen (execCollect [false, false, false, true] (boundTo .reader .w8 bufA 0 1)) = some (resp .ok 1, 0, 1, 24) := by decide
/-- T-R14, T-R15: the last 32 of 33 bits. -/
theorem test_collect_long :
    seen (execCollect (List.replicate 33 true) (boundTo .reader .w8 bufA 0 1)) = some (resp .ok 0xFFFFFFFF, 0, 1, 24) ∧
    seen (execCollect (true :: List.replicate 32 false) (boundTo .reader .w8 bufA 0 1)) = some (resp .ok 0, 0, 1, 24) := by
  decide
/-- T-R17, its first and last byte, T-R21 and T-R23. -/
theorem test_rdbyte :
    seen (execRdbyte (boundTo .reader .w32 [0x12345678] 0 1)) = some (resp .ok 0x12, 0, 9, 24) ∧
    seen (execRdbyte (boundTo .reader .w32 [0x12345678] 0 25)) = some (resp .ok 0x78, 1, 1, 0) ∧
    seen (execRdbyte (boundTo .reader .w16 bufH 0 2)) = some (resp .misalignedAccess 0, 0, 2, 15) ∧
    seen (execRdbyte (boundTo .reader .w16 bufH 1 1)) = some (resp .endOfData 0, 1, 1, 0) := by decide
/-- T-R18, and P2 step 8, which crosses into cell 1. -/
theorem test_rdbytes :
    seen (execRdbytes 3 (boundTo .reader .w16 bufH 0 1)) =
      some ({ status := .ok, rval := 0, rseq := [.nine 0b010101011, .nine 0b011001101, .nine 0b100000000] }, 1, 1, 0) ∧
    seen (execRdbytes 3 (boundTo .reader .w32 bufQ 0 17)) =
      some ({ status := .ok, rval := 0, rseq := [.nine 0x56, .nine 0x78, .nine 0x9A] }, 1, 9, 24) := by decide
/-- T-R19, T-R20. -/
theorem test_rdbytes_errors :
    seen (execRdbytes 0 (boundTo .reader .w16 bufH 0 2)) = some (resp .misalignedAccess 0, 0, 2, 15) ∧
    seen (execRdbytes (-1) (boundTo .reader .w16 bufH 0 2)) = some (resp .invalidArgument 0, 0, 2, 15) := by decide
set_option maxRecDepth 8000 in
/-- T-R24, T-R25, T-R26. -/
theorem test_rdall :
    seen (execRdall (boundTo .reader .w8 bufA 1 5)) = some (resp .ok 0xDEF, 3, 1, 0) ∧
    seen (execRdall (boundTo .reader .w32 bufQ 0 1)) = some (resp .ok 0x9ABCDEF0, 2, 1, 0) ∧
    seen (execRdall (boundTo .reader .w32 bufQ 2 1)) = some (resp .ok 0, 2, 1, 0) := by decide
/-- T-R28: its first call, and its ninth with ITER 8. -/
theorem test_next :
    seen (execNext (boundTo .reader .w8 [0xF1] 0 1)) = some (resp .ok 1, 0, 2, 7) ∧
    seen (execNext ((boundTo .reader .w8 [0xF1] 1 1).setIter 8)) = some (resp .endOfData 8, 1, 1, 0) := by decide

/-- T-W2, T-W1 and T-D6, in READER mode. -/
theorem test_wrbit :
    cells (execWrbit true (boundTo .writer .w8 [0x80] 0 2)) = some [0xC0] ∧
    seen (execWrbit true (boundTo .writer .w8 [0x80] 0 2)) = some (resp .ok 1, 0, 3, 6) ∧
    seen (execWrbit true (boundTo .writer .w8 [0xF1] 1 1)) = some (resp .ok 0, 1, 1, 0) ∧
    seen (execWrbit true (boundTo .reader .w8 [0xF1] 0 1)) = some (resp .illegalCommand 0, 0, 1, 8) := by decide
/-- T-W2: a 0 leaves a set bit set. -/
theorem test_wrbit_zero : cells (execWrbit false (boundTo .writer .w8 [0x80] 0 1)) = some [0x80] := by decide
/-- T-W3: nine bits, of which seven fit. -/
theorem test_wrbits :
    cells (execWrbits [false, true, false, true, false, true, false, true, true] (boundTo .writer .w8 [0x80] 0 2)) =
      some [0xAA] ∧
    seen (execWrbits [false, true, false, true, false, true, false, true, true] (boundTo .writer .w8 [0x80] 0 2)) =
      some (resp .ok 7, 1, 1, 0) := by decide
/-- T-W6: across two cells. -/
theorem test_wrbits_cells :
    cells (execWrbits [true, false, false, false, false, false, false, false, false, false, false, true]
      (boundTo .writer .w8 [0, 0] 0 1)) = some [0x80, 0x10] := by decide
set_option maxRecDepth 8000 in
/-- T-S4 and T-W10. -/
theorem test_wrbitsv :
    cells (execWrbitsv 0b00110101 9 (boundTo .writer .w8 [0] 0 1)) = some [0x1A] ∧
    seen (execWrbitsv 0b00110101 9 (boundTo .writer .w8 [0] 0 1)) = some (resp .ok 8, 1, 1, 0) ∧
    cells (execWrbitsv 0xFFFFFFFF 40 (boundTo .writer .w32 [0, 0] 0 1)) = some [0x00FFFFFF, 0xFF000000] ∧
    seen (execWrbitsv 0xFFFFFFFF 40 (boundTo .writer .w32 [0, 0] 0 1)) = some (resp .ok 40, 1, 9, 24) := by decide
/-- T-W7, T-W24. -/
theorem test_wrbitsv_or :
    seen (execWrbitsv 5 (-1) (boundTo .writer .w8 [0] 0 1)) = some (resp .invalidArgument 0, 0, 1, 8) ∧
    cells (execWrbitsv 0b11 2 (boundTo .writer .w8 [0x0F] 0 4)) = some [0x1F] := by decide
/-- T-W13, its second byte, and P1 step 9. -/
theorem test_wrbyte :
    cells (execWrbyte 0xAD (boundTo .writer .w32 [0xDE000000] 0 9)) = some [0xDEAD0000] ∧
    seen (execWrbyte 0x7E (boundTo .writer .w16 [0xABCD, 0xA000] 1 9)) = some (resp .ok 1, 2, 1, 0) ∧
    cells (execWrbyte 0x7E (boundTo .writer .w16 [0xABCD, 0xA000] 1 9)) = some [0xABCD, 0xA07E] := by decide
/-- T-W11, T-W12, T-S6. -/
theorem test_wrbyte_errors :
    seen (execWrbyte 0xFFFFFFFF (boundTo .writer .w8 [0] 0 1)) = some (resp .invalidArgument 0, 0, 1, 8) ∧
    seen (execWrbyte 256 (boundTo .writer .w8 [0x80] 0 2)) = some (resp .invalidArgument 0, 0, 2, 7) ∧
    seen (execWrbyte 0 (boundTo .writer .w8 [0x80] 0 2)) = some (resp .misalignedAccess 0, 0, 2, 7) := by decide
/-- T-W14: two of three bytes fit. -/
theorem test_wrbytes :
    cells (execWrbytes [0xAB, 0xCD, 0xEF] (boundTo .writer .w16 [0] 0 1)) = some [0xABCD] ∧
    seen (execWrbytes [0xAB, 0xCD, 0xEF] (boundTo .writer .w16 [0] 0 1)) = some (resp .ok 2, 1, 1, 0) := by decide
/-- T-W16: misaligned even when empty. -/
theorem test_wrbytes_empty :
    seen (execWrbytes [] (boundTo .writer .w8 [0x80, 0] 0 2)) = some (resp .misalignedAccess 0, 0, 2, 15) := by decide
/-- T-W18 and T-W20. -/
theorem test_wrbytesv :
    cells (execWrbytesv 0x00ABCDEF 3 (boundTo .writer .w32 [0] 0 1)) = some [0xABCDEF00] ∧
    seen (execWrbytesv 0x00ABCDEF 3 (boundTo .writer .w32 [0] 0 1)) = some (resp .ok 3, 0, 25, 8) ∧
    cells (execWrbytesv 0x11223344 6 (boundTo .writer .w32 [0, 0] 0 1)) = some [0x00001122, 0x33440000] := by decide
/-- T-W19 and T-W21. -/
theorem test_wrbytesv_stops :
    seen (execWrbytesv 0x12 2 (boundTo .writer .w32 [0xABCDEF00] 0 25)) = some (resp .ok 1, 1, 1, 0) ∧
    seen (execWrbytesv 0 (-1) (boundTo .writer .w8 [0] 0 2)) = some (resp .invalidArgument 0, 0, 2, 7) ∧
    seen (execWrbytesv 0 0 (boundTo .writer .w8 [0] 0 2)) = some (resp .misalignedAccess 0, 0, 2, 7) := by decide

/-- T-W24: the host's write replaces the cell and leaves the cursor. -/
theorem test_host_write :
    cells (hostWriteCell { num := 0, wc := .w8, len := 1 } 0 0x0F (boundTo .writer .w8 [0xA0] 0 4)) = some [0x0F] ∧
    hostWriteCell { num := 0, wc := .w8, len := 1 } 1 0 State.reset = .fault .noSuchCell ∧
    hostWriteCell { num := 0, wc := .w8, len := 1 } 0 256 State.reset = .refused .notACellValue :=
  ⟨by decide, rfl, rfl⟩

/-- R69 (T-R30): one byte image, two cell widths, one stream. -/
theorem test_stream :
    (List.range 16).map (streamBit (boundTo .reader .w16 bufH 0 1).mem { num := 0, wc := .w16, len := 1 }) =
      [true, false, true, false, true, false, true, true, true, true, false, false, true, true, false, true] ∧
    (List.range 16).map (streamBit (boundTo .reader .w8 [0xAB, 0xCD] 0 1).mem { num := 0, wc := .w8, len := 2 }) =
      [true, false, true, false, true, false, true, true, true, true, false, false, true, true, false, true] := by decide

/-! ## A witness for the hypotheses of each statement, clause by clause -/

/-- A reader over A, not yet moved, and the same exhausted. -/
def rStart : State := boundTo .reader .w8 bufA 0 1
def rEnd : State := boundTo .reader .w8 bufA 3 1
/-- A reader over H one bit on, and one byte on. -/
def rOdd : State := boundTo .reader .w16 bufH 0 2
def rByte : State := boundTo .reader .w16 bufH 0 9
/-- A writer over two zero 16-bit cells: not yet moved, one bit on, at the last bit, and exhausted. -/
def wStart : State := boundTo .writer .w16 [0, 0] 0 1
def wOdd : State := boundTo .writer .w16 [0, 0] 0 2
def wLast : State := boundTo .writer .w16 [0, 0] 1 16
def wEnd : State := boundTo .writer .w16 [0, 0] 2 1

theorem test_witness_DecodeOfEncodeIsTheCommand :
    (Instr.rdbits 2147483647).wellFormed = true ∧ (Instr.wrbytesv 1 (-2147483648)).wellFormed = true ∧
    (Instr.bind .writer .w32 0xFFFFFFFF).wellFormed = true := by decide

theorem test_witness_DecodedCommandSpellsItsTransaction :
    decode ⟨0x01000006, 7, 9, [3]⟩ = .ok (.bind .writer .w32 7) ∧ usesOpa .bind = true ∧
    decode ⟨0x25000000, 7, 0x80000000, []⟩ = .ok (.wrbytesv 7 (-2147483648)) ∧ usesOpn .wrbytesv = true ∧
    decode ⟨0x24000000, 0, 0, [255]⟩ = .ok (.wrbytes [255]) ∧
    decode ⟨0x13000000, 0, 0, [0xFE, 0x03]⟩ = .ok (.collect [false, true]) ∧
    decode ⟨0x21000000, 0, 0, [1, 0]⟩ = .ok (.wrbits [true, false]) := by decide

/-- T-D10. -/
theorem test_witness_UnusedOperandsAreIgnored :
    Opcode.ofCode (opcField 0x11000000) = some .rdbits ∧ usesOpa .rdbits = false ∧ usesSeq .rdbits = false ∧
    usesOpn .rdbits = true ∧
    decode ⟨0x11000000, 0xFFFFFFFF, 3, [1, 1]⟩ = decode ⟨0x11000000, 0, 3, []⟩ := by decide

theorem test_witness_StepRunsTheDecodedCommand :
    (rStart.withFetchWord 32 0x10000000).pending = .command ⟨0x10000000, 0, 0, []⟩ :: [] ∧
    decode ⟨0x10000000, 0, 0, []⟩ = .ok .rdbit := by decide

/-- The first and last word of each reserved group (T-D1, T-D2). -/
theorem test_witness_IllegalCommand_opcode :
    (IllegalWord rStart 0x00000000 ∧ IllegalWord rStart 0x07000000 ∧ IllegalWord rStart 0x0F000000) ∧
    IllegalWord rStart 0x18000000 ∧ IllegalWord rStart 0x1F000000 ∧ IllegalWord rStart 0x26000000 ∧
    IllegalWord rStart 0xFF000000 :=
  ⟨⟨by decide, by decide, by decide⟩, by decide, by decide, by decide, by decide⟩

/-- A reserved bit of each format, and WC = 3 (T-D3, T-D4, T-C13, T-C12). -/
theorem test_witness_IllegalCommand_reserved :
    IllegalWord rStart 0x11000001 ∧ IllegalWord wStart 0x20000002 ∧ IllegalWord rStart 0x01000008 ∧
    IllegalWord rStart 0x01000003 := ⟨by decide, by decide, by decide, by decide⟩

/-- Unbound, and each class in the other MODE at the ends of its opcodes (T-D9, T-D5, T-D6). -/
theorem test_witness_IllegalCommand_state :
    IllegalWord State.reset 0x02000000 ∧ IllegalWord wStart 0x10000000 ∧ IllegalWord wStart 0x17000000 ∧
    IllegalWord rStart 0x20000001 ∧ IllegalWord rStart 0x25000000 :=
  ⟨by decide, by decide, by decide, by decide, by decide⟩

/-- The words next to those that are legal (T-D8). -/
theorem test_witness_IllegalCommand_none :
    ¬IllegalWord wStart 0x04000000 ∧ ¬IllegalWord State.reset 0x01000006 ∧ ¬IllegalWord rStart 0x17000000 ∧
    ¬IllegalWord wStart 0x20000001 ∧ ¬IllegalWord wStart 0x25000000 :=
  ⟨by decide, by decide, by decide, by decide, by decide⟩

theorem test_witness_PowerOnResetUnbinds : (rStart.setPending [.reset]).pending = .reset :: [] := by decide

/-- The last cell and the largest value of a 16-bit cell. -/
theorem test_witness_HostWriteSetsOneCell :
    wStart.mem.wf = true ∧
    (wStart.setPending [.hostWrite wStart.bufferId 1 0xFFFF]).pending = .hostWrite wStart.bufferId 1 0xFFFF :: [] ∧
    1 < wStart.bufferId.len.toNat ∧ (0xFFFF : Word).toNat < 2 ^ wStart.bufferId.wc.bits := by decide

/-- The first cell beyond the buffer, and the first value too wide for a cell. -/
theorem test_witness_HostWriteSetsOneCell_stops :
    (wStart.setPending [.hostWrite wStart.bufferId 2 0]).pending = .hostWrite wStart.bufferId 2 0 :: [] ∧
    wStart.bufferId.len.toNat ≤ 2 ∧
    (wStart.setPending [.hostWrite wStart.bufferId 1 0x10000]).pending = .hostWrite wStart.bufferId 1 0x10000 :: [] ∧
    1 < wStart.bufferId.len.toNat ∧ 2 ^ wStart.bufferId.wc.bits ≤ (0x10000 : Word).toNat := by decide

theorem test_witness_StepKeepsTheInvariant :
    (wStart.withFetchWord 32 0x20000001).Inv ∧ ∃ t, step (wStart.withFetchWord 32 0x20000001) = .next t ∧
      t.mem ≠ wStart.mem :=
  ⟨by decide, _, rfl, by decide⟩

theorem test_witness_ErrorLeavesNoTrace :
    ∃ t, exec (.rdbits 25) rStart = .next t ∧ t.responses = rStart.responses ++ [resp .insufficientData 0] ∧
      (resp .insufficientData 0).status.isError = true := ⟨_, rfl, by decide, rfl⟩

theorem test_witness_EndChangesNothing :
    ∃ t, exec .next rEnd = .next t ∧ t.responses = rEnd.responses ++ [resp .endOfData 0] ∧
      (resp .endOfData 0).status = .endOfData := ⟨_, rfl, by decide, rfl⟩

/-- Each error, the pair that can meet (T-W12), and none. -/
theorem test_witness_FirstErrorThatAppliesIsReported :
    firstError .qrem State.reset = some .illegalCommand ∧ firstError (.rdbits (-1)) rStart = some .invalidArgument ∧
    firstError (.wrbyte 256) wOdd = some .invalidArgument ∧ firstError .rdbyte rOdd = some .misalignedAccess ∧
    firstError (.rdbits 25) rStart = some .insufficientData ∧ firstError (.rdbits 24) rStart = none ∧
    malformed (.wrbyte 256) = true ∧ needsAlignment (.wrbyte 256) = true ∧ lacksData rStart (.rdbits 25) = true ∧
    rStart.CursorInv ∧ rEnd.CursorInv ∧ rEnd.exhausted = true := by decide

/-- Both sides, at `n = 0` and `b = 255`, for the five commands. -/
theorem test_witness_MisalignedAccessIsForFiveByteCommands :
    rOdd.admits .reader = true ∧ rOdd.remaining % 8 ≠ 0 ∧ wOdd.admits .writer = true ∧ wOdd.remaining % 8 ≠ 0 ∧
    (255 : Word).toNat < 256 ∧
    seen (exec (.rdbytes 0) rOdd) = some (resp .misalignedAccess 0, 0, 2, 15) ∧
    seen (exec (.wrbyte 255) wOdd) = some (resp .misalignedAccess 0, 0, 2, 31) ∧
    seen (exec (.wrbytesv 0 0) wOdd) = some (resp .misalignedAccess 0, 0, 2, 31) := by decide

/-- The three cases at their first value. -/
theorem test_witness_InvalidArgumentHasThreeCases :
    seen (exec (.rdbitss (-1)) rStart) = some (resp .invalidArgument 0, 0, 1, 24) ∧
    seen (exec (.wrbyte 256) wStart) = some (resp .invalidArgument 0, 0, 1, 32) ∧
    seen (exec (.bind .reader .w8 0x20000000) rStart) = some (resp .invalidArgument 0, 0, 1, 24) := by decide

theorem test_witness_InsufficientDataIsForRdbitsOnly :
    rStart.admits .reader = true ∧ rStart.remaining < 25 ∧
    seen (exec (.rdbits 25) rStart) = some (resp .insufficientData 0, 0, 1, 24) := by decide

theorem test_witness_UnboundRefusesAllButBind :
    (∃ t, Answers (exec (.bind .reader .w8 3) State.reset) State.reset t (resp .ok 0)) ∧
    (∃ t, exec .rdbit rStart = .next t) ∧ rStart.bound = true ∧ State.reset.bound = false ∧
    Instr.rdbit.opcode ≠ .bind ∧ (∃ t, step (rStart.withFetchWord 32 0x10000000) = .next t) ∧
    (rStart.withFetchWord 32 0x10000000).bound = true :=
  ⟨⟨_, rfl, rfl⟩, ⟨_, rfl⟩, by decide, by decide, by decide, ⟨_, rfl⟩, by decide⟩

theorem test_witness_ModeDecidesWhichCommandsRun :
    decode ⟨0x01000004, 3, 0, []⟩ = .ok (.bind .writer .w8 3) ∧
    (∃ t, Answers (exec (.bind .writer .w8 3) rStart) rStart t (resp .ok 0)) ∧ (∃ t, exec .rdbit rStart = .next t) ∧
    rStart.bound = true ∧ wStart.bound = true ∧ rStart.mode = .reader ∧ wStart.mode = .writer ∧
    Instr.rdbit.opcode.cls = .reader ∧ (Instr.wrbit true).opcode.cls = .writer ∧ Instr.qrem.opcode.cls = .query :=
  ⟨by decide, ⟨_, rfl, rfl⟩, ⟨_, rfl⟩, by decide⟩

/-- T-C8 to T-C13. -/
theorem test_witness_BindStartsAFreshCursor :
    (536870911 : Word).toNat * Width.w8.bits ≤ 2 ^ 32 - 1 ∧ 2 ^ 32 - 1 < (536870912 : Word).toNat * Width.w8.bits ∧
    (268435455 : Word).toNat * Width.w16.bits ≤ 2 ^ 32 - 1 ∧ 2 ^ 32 - 1 < (134217728 : Word).toNat * Width.w32.bits ∧
    (0x01000003 : Word).toNat / 2 ^ 24 = 0x01 ∧ (0x01000003 : Word).toNat % 4 = 3 ∧
    (0x01000008 : Word).toNat / 2 ^ 24 = 0x01 ∧ (0x01000008 : Word).toNat / 8 % 2 ^ 21 ≠ 0 ∧
    (rStart.withFetchWord 32 0x01000003).pending = .command ⟨0x01000003, 0, 0, []⟩ :: [] := by decide

/-- Not yet moved, moved, and exhausted. -/
theorem test_witness_Live : rStart.Live ∧ rOdd.Live ∧ rEnd.Live ∧ wLast.Live ∧ wEnd.Live := by decide

theorem test_witness_QueriesAreIdempotent :
    (∀ i ∈ [Instr.qrem, .rdbyte, .qbpe, .rdbits (-1), .qaln], i.opcode.cls = .query ∨ firstError i rOdd ≠ none) ∧
    ∃ t u v, execAll [.qrem, .rdbyte, .qbpe, .rdbits (-1), .qaln] rOdd = .next t ∧
      Answers (exec .qrem rOdd) rOdd u (resp .ok 15) ∧ Answers (exec .qrem t) t v (resp .ok 15) :=
  ⟨by decide, _, _, _, rfl, ⟨rfl, by decide⟩, rfl, by decide⟩

theorem test_witness_CursorInv :
    rStart.CursorInv ∧ rStart.cidx.toNat < rStart.len.toNat ∧ rEnd.CursorInv ∧ rEnd.cidx = rEnd.len ∧
    rEnd.exhausted = true ∧ rByte.CursorInv ∧ rByte.aligned = true := by decide

/-- One bit and one byte, each with a carry and without. -/
theorem test_witness_AdvanceMovesByExactlyItsArgument :
    wLast.Live ∧ wLast.cidx.toNat < wLast.len.toNat ∧ wLast.boff.toNat + 1 = wLast.wc.bits + 1 ∧
    rByte.Live ∧ rByte.cidx.toNat < rByte.len.toNat ∧ rByte.aligned = true ∧ rByte.boff.toNat + 8 = rByte.wc.bits + 1 ∧
    wStart.Live ∧ wStart.aligned = true ∧ wStart.boff.toNat + 8 ≠ wStart.wc.bits + 1 := by decide

theorem test_witness_RemainingFallsByTheBitsConsumed :
    rStart.Live ∧ (Instr.rdbits 12).opcode ≠ .bind ∧ (∃ t, exec (.rdbits 12) rStart = .next t) ∧
    ∃ t, Answers (exec (.bind .reader .w8 3) State.reset) State.reset t (resp .ok 0) :=
  ⟨by decide, by decide, ⟨_, rfl⟩, _, rfl, rfl⟩

theorem test_witness_EveryCountFitsItsPort :
    wLast.Inv ∧ wLast.bound = true ∧ (Instr.wrbit true).opcode ≠ .bind ∧ ∃ t, exec (.wrbit true) wLast = .next t :=
  ⟨by decide, by decide, by decide, _, rfl⟩

/-- Every reader result: a position before the end, the end, an odd one, an aligned one. -/
theorem test_witness_reader_results :
    rStart.Live ∧ rStart.mode = .reader ∧ rStart.consumed < rStart.capacity ∧ rStart.consumed % 8 = 0 ∧
    rEnd.Live ∧ rEnd.mode = .reader ∧ rEnd.consumed = rEnd.capacity ∧
    rOdd.Live ∧ rOdd.mode = .reader ∧ rOdd.consumed % 8 ≠ 0 ∧
    (25 : Int) > rStart.remaining ∧ (24 : Int) ≤ rStart.remaining := by decide

theorem test_witness_FoldPacksMostSignificantFirst :
    (List.replicate 32 true).length ≤ 32 ∧ 32 < (List.replicate 33 true).length := by decide

theorem test_witness_NextReadsAndCountsOneBit :
    ∃ t, exec .rdall rStart = .next t ∧ Instr.rdall.opcode ≠ .next ∧ Instr.rdall.opcode ≠ .bind :=
  ⟨_, rfl, by decide, by decide⟩

theorem test_witness_IterationIsNotRestartable :
    rEnd.Live ∧ rEnd.mode = .reader ∧ rEnd.consumed = rEnd.capacity ∧
    (∀ i ∈ [Instr.next, .rdall, .wrbit true], i.opcode ≠ .bind) ∧
    ∃ t, execAll [.next, .rdall, .wrbit true] rEnd = .next t :=
  ⟨by decide, by decide, by decide, by decide, _, rfl⟩

theorem test_witness_RdbitsAgreesWithCollectOfRdbit :
    rOdd.Live ∧ rOdd.mode = .reader ∧ ((3 : Nat) : Int) ≤ rOdd.remaining ∧
    ∃ t, execAll (List.replicate 3 .rdbit) rOdd = .next t := ⟨by decide, by decide, by decide, _, rfl⟩

theorem test_witness_ReaderCommandsChangeOnlyTheCursor :
    Instr.next.opcode.cls = .reader ∧ ∃ t, exec .next rStart = .next t := ⟨by decide, _, rfl⟩

/-- Every writer result: the last bit, the end, an odd position, an aligned one, and the argument's bounds. -/
theorem test_witness_writer_results :
    wLast.Live ∧ wLast.mem.wf = true ∧ wLast.mode = .writer ∧ wLast.consumed < wLast.capacity ∧
    wEnd.Live ∧ wEnd.mem.wf = true ∧ wEnd.mode = .writer ∧ wEnd.consumed = wEnd.capacity ∧
    wOdd.Live ∧ wOdd.mem.wf = true ∧ wOdd.mode = .writer ∧ wOdd.consumed % 8 ≠ 0 ∧
    wStart.Live ∧ wStart.mem.wf = true ∧ wStart.mode = .writer ∧ wStart.consumed % 8 = 0 ∧
    wStart.consumed < wStart.capacity ∧ (255 : Word).toNat < 256 ∧ 256 ≤ (256 : Word).toNat := by decide

theorem test_witness_WriterCommandsFrame :
    (Instr.wrbytes [1, 2, 3]).opcode.cls = .writer ∧ (∃ t, exec (.wrbytes [1, 2, 3]) wStart = .next t ∧ t.mem ≠ wStart.mem) ∧
    (Instr.wrbyte 1).opcode = .wrbyte := ⟨by decide, ⟨_, rfl, by decide⟩, by decide⟩

theorem test_witness_BindQueriesAndCollectFrame :
    (∃ t, exec (.bind .writer .w16 2) rStart = .next t) ∧ Instr.qbidx.opcode.cls = .query ∧
    (∃ t, exec .qbidx rStart = .next t) ∧ ∃ t, exec (.collect [true]) rStart = .next t :=
  ⟨⟨_, rfl⟩, by decide, ⟨_, rfl⟩, _, rfl⟩

theorem test_witness_CommandsNeverClearABit :
    wStart.mem.wf = true ∧ ∃ t, exec (.wrbitsv 0x35 9) wStart = .next t ∧ t.mem ≠ wStart.mem := ⟨by decide, _, rfl, by decide⟩

theorem test_witness_AFullBufferTakesNothingMore :
    wEnd.Live ∧ wEnd.mode = .writer ∧ wEnd.consumed = wEnd.capacity ∧ malformed (.wrbitsv 0 (-1)) = true ∧
    malformed (.wrbitsv 0 0) = false ∧ malformed (.wrbyte 256) = true ∧ malformed (.wrbyte 255) = false := by decide

/-- A write of two bits where one remains. -/
theorem test_witness_AFullBufferTakesNothingMore_cut_short :
    ∃ t, Answers (exec (.wrbits [true, true]) wLast) wLast t (resp .ok 1) ∧ wLast.Live ∧ wLast.mem.wf = true ∧
      t.consumed < wLast.consumed + (requestedBits (.wrbits [true, true])).length :=
  ⟨_, ⟨rfl, by decide⟩, by decide, by decide, by decide⟩

theorem test_witness_WritersWriteALeadingPart :
    ∃ t, Answers (exec (.wrbits [true, true]) wLast) wLast t (resp .ok 1) ∧ wLast.Live ∧ wLast.mem.wf = true ∧
      (resp .ok 1).status.isError = false := ⟨_, ⟨rfl, by decide⟩, by decide, by decide, rfl⟩

/-- The writes of P4, over one zero 8-bit cell. -/
theorem test_witness_WrittenBitsAreReadBack :
    ∃ s1 s2 s3, State.reset.mem.wf = true ∧ (1 : Word).toNat * Width.w8.bits ≤ 2 ^ 32 - 1 ∧
      (∀ p, p < (1 : Word).toNat * Width.w8.bits → streamBit State.reset.mem ⟨State.reset.designated, .w8, 1⟩ p = false) ∧
      exec (.bind .writer .w8 1) State.reset = .next s1 ∧
      (∀ i ∈ [Instr.wrbits [true, false, true], .wrbitsv 0x1F 5], i.opcode.cls = .writer) ∧
      ([Instr.wrbits [true, false, true], .wrbitsv 0x1F 5].flatMap requestedBits).length ≤
        (1 : Word).toNat * Width.w8.bits ∧
      execAll [.wrbits [true, false, true], .wrbitsv 0x1F 5] s1 = .next s2 ∧
      (∀ r ∈ s2.responses.drop s1.responses.length, r.status = .ok) ∧
      exec (.bind .reader .w8 1) s2 = .next s3 :=
  ⟨_, _, _, by decide, by decide, by decide, rfl, by decide, by decide, rfl, by decide, rfl⟩

theorem test_witness_ALaterCommandSeesAHostWrite :
    rByte.Live ∧ rByte.mem.wf = true ∧ rByte.mode = .reader ∧ rByte.consumed < rByte.capacity ∧
    (0xFFFF : Word).toNat < 2 ^ rByte.wc.bits ∧
    ∃ t, step (rByte.setPending
      [.hostWrite rByte.bufferId rByte.cidx.toNat 0xFFFF, .command ⟨0x10000000, 0, 0, []⟩]) = .next t :=
  ⟨by decide, by decide, by decide, by decide, by decide, _, rfl⟩

theorem test_witness_WritersNeverReportContents :
    (Instr.wrbit true).opcode.cls = .writer ∧ ∃ t, exec (.wrbit true) wStart = .next t := ⟨by decide, _, rfl⟩

theorem test_witness_EarlierResponsesAreNeverRead :
    ∃ t, exec .rdbit rStart = .next t ∧ t.responses = rStart.responses ++ [resp .ok 1] := ⟨_, rfl, by decide⟩

/-- R69's own example. -/
theorem test_witness_StreamsDependOnlyOnTheByteImage :
    (BufferId.mk 0 .w16 1).bits = (BufferId.mk 0 .w8 2).bits ∧
    ((List.range (BufferId.mk 0 .w16 1).len.toNat).flatMap fun i => (List.range Width.w16.bytes).map fun k =>
      (readCell (boundTo .reader .w16 bufH 0 1).mem ⟨0, .w16, 1⟩ i).extractLsb' (8 * (Width.w16.bytes - 1 - k)) 8) =
    ((List.range (BufferId.mk 0 .w8 2).len.toNat).flatMap fun i => (List.range Width.w8.bytes).map fun k =>
      (readCell (boundTo .reader .w8 [0xAB, 0xCD] 0 1).mem ⟨0, .w8, 2⟩ i).extractLsb' (8 * (Width.w8.bytes - 1 - k)) 8) := by
  decide

theorem test_witness_SequenceElementsAreLegal :
    ∃ t, Answers (exec (.rdbitss 1) rEnd) rEnd t { status := .ok, rval := 0, rseq := [.two 0b10] } ∧
      ∃ u, Answers (exec (.rdbytes 1) rEnd) rEnd u { status := .ok, rval := 0, rseq := [.nine 0b100000000] } :=
  ⟨_, ⟨rfl, by decide⟩, _, rfl, by decide⟩

end Sys2Proof.Tests
end

section
/-! SUPPORT. The registers and the cursor between commands (spec/10_state.md): what one step can do, what a command keeps,
and the derived quantities under INV. -/

namespace Sys2Proof.Machine

variable {s t : State}

/-! ## What one step can do -/

/-- Everything a step that answers a next state has done: the oldest host action, if any, and its effect
(spec/70_reset_and_hazards.md R255). -/
inductive StepCase (s : State) : State → Prop where
  | idle : StepCase s s
  | runs {t : State} (i : Instr) (rest : List HostAction) (h : exec i (s.setPending rest) = .next t) : StepCase s t
  | illegal (rest : List HostAction) : StepCase s ((s.setPending rest).raise .illegalCommand)
  | designates (num : Nat) (rest : List HostAction) : StepCase s ((s.setPending rest).setDesignated num)
  | hostWrites (b : BufferId) (i : Nat) (v : Word) (rest : List HostAction) :
      StepCase s ((s.setPending rest).setMem (writeCell s.mem b i v))
  | resets (rest : List HostAction) (h : s.pending = .reset :: rest) : StepCase s (s.setPending rest).powerOn

theorem illegalWord_eq (r : Reject) (s : State) : illegalWord r s = .next (s.raise .illegalCommand) := by
  cases r <;> rfl

theorem hostWriteCell_next {b : BufferId} {i : Nat} {v : Word} (h : hostWriteCell b i v s = .next t) :
    t = s.setMem (writeCell s.mem b i v) := by
  unfold hostWriteCell at h
  split at h
  · cases h
  · split at h
    · cases h
    · injection h with h
      exact h.symm

theorem step_cases (h : step s = .next t) : StepCase s t := by
  unfold step at h
  split at h
  · injection h with h
    exact h ▸ .idle
  · split at h
    · exact .runs _ _ h
    · rw [illegalWord_eq] at h
      injection h with h
      exact h ▸ .illegal _
  · injection h with h
    exact h ▸ .designates _ _
  · exact hostWriteCell_next h ▸ .hostWrites _ _ _ _
  · next hp =>
    injection h with h
    exact h ▸ .resets _ hp

/-! ## Every command keeps the invariant -/

theorem admits_bound {c : CommandClass} (h : s.admits c = true) (hc : c ≠ .bind) : s.bound = true := by
  cases c with
  | bind => exact absurd rfl hc
  | query => exact h
  | reader | writer => exact (Bool.and_eq_true_iff.mp h).1

theorem State.Inv.live (h : s.Inv) (hb : s.bound = true) : s.Live :=
  ⟨hb, (h.2 hb).1, (h.2 hb).2.1⟩

/-- A binding starts with nothing consumed and nothing delivered by NEXT. -/
theorem rebind_inv {wc : Width} {len : Word} (mode : Mode) (h : s.mem.wf = true)
    (hl : len.toNat * wc.bits ≤ Config.maxBits) : (s.rebind mode wc len).Inv := by
  refine ⟨h, fun _ => ⟨cursorInv_of_nat ?_, hl, Nat.zero_le _⟩⟩
  have hW : 1 ≤ wc.bits := by cases wc <;> decide
  change 0 < len.toNat ∧ 1 ≤ 1 ∧ 1 ≤ wc.bits ∨ 0 = len.toNat ∧ 1 = 1
  omega

/-- A cursor that moves on within a bound buffer keeps the invariant, and ITER may grow by as many bits. -/
theorem moveTo_inv {p : Nat} {n : Word} {m : Memory} (h : s.Inv) (hb : s.bound = true) (hm : m.wf = true)
    (hlo : s.consumed ≤ p) (hhi : p ≤ s.capacity) (hn : n.toNat ≤ s.iter.toNat + (p - s.consumed)) :
    (((s.moveTo p).setMem m).setIter n).Inv := by
  obtain ⟨-, hbound⟩ := h
  obtain ⟨-, hcap, hiter⟩ := hbound hb
  refine ⟨hm, fun _ => ⟨moveTo_cursorInv hcap hhi, hcap, ?_⟩⟩
  rw [State.setIter_iter, State.setIter_consumed, State.setMem_consumed, moveTo_consumed hcap hhi]
  omega

/-- The reader's and the writer's steps leave ITER as it is. -/
theorem moveTo_setMem_inv {p : Nat} {m : Memory} (h : s.Inv) (hb : s.bound = true) (hm : m.wf = true)
    (hlo : s.consumed ≤ p) (hhi : p ≤ s.capacity) : ((s.moveTo p).setMem m).Inv :=
  moveTo_inv (n := s.iter) h hb hm hlo hhi (Nat.le_add_right _ _)

theorem readBitSeq_inv (n : Nat) (h : s.Inv) (hb : s.bound = true) : (readBitSeq n s).2.Inv := by
  have hle := consumed_le_capacity (h.live hb).2.1
  rw [readBitSeq_eq n (h.live hb)]
  exact moveTo_setMem_inv h hb h.1 (by omega) (by omega)

theorem aligned_consumed (h : s.Inv) (hb : s.bound = true) (ha : s.aligned = true) : s.consumed % 8 = 0 := by
  rw [aligned_eq (h.live hb).2.1] at ha
  exact of_decide_eq_true ha

theorem readByteSeq_inv (n : Nat) (h : s.Inv) (hb : s.bound = true) (ha : s.aligned = true) :
    (readByteSeq n s).2.Inv := by
  have hle := consumed_le_capacity (h.live hb).2.1
  rw [readByteSeq_eq n (h.live hb) (aligned_consumed h hb ha)]
  exact moveTo_setMem_inv h hb h.1 (by omega) (by omega)

theorem writeBitSeq_inv (bits : List Bool) (h : s.Inv) (hb : s.bound = true) : (writeBitSeq bits s).2.Inv := by
  have hle := consumed_le_capacity (h.live hb).2.1
  obtain ⟨m, heq, hm, -⟩ := writeBitSeq_eq bits (h.live hb) h.1
  rw [heq]
  exact moveTo_setMem_inv h hb hm (by omega) (by omega)

theorem writeByteSeq_inv (bytes : List Byte) (h : s.Inv) (hb : s.bound = true) (ha : s.aligned = true) :
    (writeByteSeq bytes s).2.Inv := by
  have hle := consumed_le_capacity (h.live hb).2.1
  obtain ⟨m, heq, hm, -⟩ := writeByteSeq_eq bytes (h.live hb) h.1 (aligned_consumed h hb ha)
  rw [heq]
  exact moveTo_setMem_inv h hb hm (by omega) (by omega)

/-- A single access is a sequence of one. -/
theorem readOneBit_seq {b : Bool} (h : readOneBit s = some (b, t)) : (readBitSeq 1 s).2 = t := by
  simp only [readBitSeq, h]

theorem readOneByte_seq {b : Byte} (h : readOneByte s = some (b, t)) : (readByteSeq 1 s).2 = t := by
  simp only [readByteSeq, h]

theorem writeOneBit_seq {bit : Bool} (h : writeOneBit bit s = some t) : (writeBitSeq [bit] s).2 = t := by
  simp only [writeBitSeq, h]

theorem writeOneByte_seq {b : Byte} (h : writeOneByte b s = some t) : (writeByteSeq [b] s).2 = t := by
  simp only [writeByteSeq, h]

/-- NEXT delivers the one bit it consumes, so ITER stays at most the bits consumed (R31). -/
theorem next_inv {b : Bool} (h : s.Inv) (hb : s.bound = true) (hr : readOneBit s = some (b, t)) :
    (t.setIter (t.iter + 1)).Inv := by
  have hL := h.live hb
  have hle := consumed_le_capacity hL.2.1
  have hlt : s.consumed < s.capacity := by
    by_contra hge
    rw [readOneBit_exhausted hL.2.1 (by omega)] at hr
    cases hr
  rw [readOneBit_some hL hlt] at hr
  obtain ⟨-, rfl⟩ := Prod.mk.inj (Option.some.inj hr)
  refine moveTo_inv h hb h.1 (by omega) hlt ?_
  rw [State.moveTo_iter, BitVec.toNat_add]
  exact (Nat.mod_le _ _).trans (by simp)

/-- Every command answers a state that meets the invariant, from every state that does. -/
theorem exec_inv (i : Instr) (h : s.Inv) : ∃ t, exec i s = .next t ∧ t.Inv := by
  cases ha : s.admits i.opcode.cls with
  | false => exact ⟨_, exec_refused ha, h⟩
  | true =>
    have hb := admits_bound ha
    cases i with
    | bind mode wc len =>
      refine ⟨_, exec_bind, ?_⟩
      split
      · exact h
      · next hl => exact rebind_inv mode h.1 (Nat.le_of_not_lt hl)
    | qbpe => exact ⟨_, exec_qbpe ha, h⟩
    | qbitpe => exact ⟨_, exec_qbitpe ha, h⟩
    | qrem => exact ⟨_, exec_qrem ha, h⟩
    | qaln => exact ⟨_, exec_qaln ha, h⟩
    | qbidx => exact ⟨_, exec_qbidx ha, h⟩
    | collect bits => exact ⟨_, exec_collect ha, h⟩
    | rdbit =>
      refine ⟨_, exec_rdbit ha, ?_⟩
      split
      · exact h
      · next hr => exact readOneBit_seq hr ▸ readBitSeq_inv 1 h (hb nofun)
    | rdbits n =>
      refine ⟨_, exec_rdbits ha, ?_⟩
      split
      · exact h
      · split
        · exact h
        · exact readBitSeq_inv n.toNat h (hb nofun)
    | rdbitss n =>
      refine ⟨_, exec_rdbitss ha, ?_⟩
      split
      · exact h
      · exact readBitSeq_inv n.toNat h (hb nofun)
    | rdbyte =>
      refine ⟨_, exec_rdbyte ha, ?_⟩
      split
      · exact h
      · next hal =>
        split
        · exact h
        · next hr => exact readOneByte_seq hr ▸ readByteSeq_inv 1 h (hb nofun) (by simpa using hal)
    | rdbytes n =>
      refine ⟨_, exec_rdbytes ha, ?_⟩
      split
      · exact h
      · split
        · exact h
        · next hal => exact readByteSeq_inv n.toNat h (hb nofun) (by simpa using hal)
    | rdall => exact ⟨_, exec_rdall ha, readBitSeq_inv s.remaining.toNat h (hb nofun)⟩
    | next =>
      refine ⟨_, exec_next ha, ?_⟩
      split
      · exact h
      · next hr => exact next_inv h (hb nofun) hr
    | wrbit bit =>
      refine ⟨_, exec_wrbit ha, ?_⟩
      cases hw : writeOneBit bit s with
      | none => exact h
      | some t => exact writeOneBit_seq hw ▸ writeBitSeq_inv [bit] h (hb nofun)
    | wrbits bits => exact ⟨_, exec_wrbits ha, writeBitSeq_inv _ h (hb nofun)⟩
    | wrbitsv value n =>
      refine ⟨_, exec_wrbitsv ha, ?_⟩
      split
      · exact h
      · exact writeBitSeq_inv _ h (hb nofun)
    | wrbyte b =>
      refine ⟨_, exec_wrbyte ha, ?_⟩
      split
      · exact h
      · split
        · exact h
        · next hal =>
          cases hw : writeOneByte (b.setWidth 8) s with
          | none => exact h
          | some t => exact writeOneByte_seq hw ▸ writeByteSeq_inv [_] h (hb nofun) (by simpa using hal)
    | wrbytes bytes =>
      refine ⟨_, exec_wrbytes ha, ?_⟩
      split
      · exact h
      · next hal => exact writeByteSeq_inv _ h (hb nofun) (by simpa using hal)
    | wrbytesv value n =>
      refine ⟨_, exec_wrbytesv ha, ?_⟩
      split
      · exact h
      · split
        · exact h
        · next hal => exact writeByteSeq_inv _ h (hb nofun) (by simpa using hal)

/-- Settles O11: each case of a step keeps the invariant. -/
theorem stepKeepsTheInvariant : Obligations.StepKeepsTheInvariant := by
  intro s t h hstep
  cases step_cases hstep with
  | idle | illegal | designates => exact h
  | runs i rest hexec =>
    obtain ⟨u, hu, hinv⟩ := exec_inv (s := s.setPending rest) i h
    rw [hu] at hexec
    injection hexec with hexec
    exact hexec ▸ hinv
  | hostWrites b i v rest => exact ⟨wf_writeCell h.1 b i v, h.2⟩
  | resets rest => exact ⟨h.1, nofun⟩

/-- Settles O10: no register of an unbound block is constrained, and the empty memory is canonical. -/
theorem resetMeetsTheInvariant : Obligations.ResetMeetsTheInvariant :=
  ⟨rfl, reset_mem_wf, nofun⟩

end Sys2Proof.Machine
end

section
/-! SUPPORT. The derived quantities under INV and what Advance does to them (spec/10_state.md R33 to R39,
spec/40_cursor.md R110 to R112). -/

namespace Sys2Proof.Machine

variable {s : State}

theorem exhausted_iff (s : State) : s.exhausted = true ↔ s.len.toNat ≤ s.cidx.toNat := decide_eq_true_iff

theorem remaining_nonneg (h : s.CursorInv) : 0 ≤ s.remaining := by
  have hle := consumed_le_capacity h
  rw [remaining_eq h]
  omega

theorem remaining_eq_zero_iff (h : s.CursorInv) : s.remaining = 0 ↔ s.exhausted = true := by
  rw [remaining_eq h, exhausted_eq h, decide_eq_true_iff]
  omega

/-- Settles O24: a bit remains exactly while the cursor stands inside the buffer. -/
theorem remainingIsZeroExactlyAtExhaustion : Obligations.RemainingIsZeroExactlyAtExhaustion := by
  intro s h
  have h0 := remaining_nonneg h
  have hz := (remaining_eq_zero_iff h).trans (exhausted_iff s)
  refine ⟨h0, remaining_eq_zero_iff h, fun hlt => by omega, fun heq => ⟨?_, hz.mpr (by rw [heq])⟩⟩
  rcases h with ⟨hlt, -⟩ | ⟨-, hb⟩
  · exact absurd (congrArg BitVec.toNat heq) (Nat.ne_of_lt hlt)
  · exact hb

/-- A cell holds whole bytes, so the position in the stream and the offset in the cell agree modulo 8. -/
theorem consumed_mod_eight (h : s.CursorInv) : s.consumed % 8 = (s.boff.toNat - 1) % 8 := by
  rw [boff_eq h, Nat.add_sub_cancel, bits_eq, Nat.mod_mul_right_mod]

theorem aligned_iff (h : s.CursorInv) : s.aligned = true ↔ (s.boff.toNat - 1) % 8 = 0 := by
  rw [aligned_eq h, decide_eq_true_iff, consumed_mod_eight h]

theorem boff_bounds (h : s.CursorInv) : 1 ≤ s.boff.toNat ∧ s.boff.toNat ≤ s.wc.bits := by
  have hmod := Nat.mod_lt s.consumed (show 0 < s.wc.bits by cases s.wc <;> decide)
  rw [boff_eq h]
  omega

theorem exhausted_aligned (h : s.CursorInv) (he : s.exhausted = true) : s.aligned = true := by
  have hz := (remaining_eq_zero_iff h).mpr he
  unfold State.aligned
  rw [hz]
  rfl

/-- Settles O25: a cell has at most four byte boundaries, and an exhausted cursor stands at offset 1. -/
theorem alignmentIsDecidedByTheOffset : Obligations.AlignmentIsDecidedByTheOffset := by
  intro s h
  refine ⟨aligned_iff h, (aligned_iff h).trans ?_, exhausted_aligned h⟩
  obtain ⟨hlo, hhi⟩ := boff_bounds h
  have hW : s.wc.bits ≤ 32 := by cases s.wc <;> decide
  omega

theorem capacity_sub_remaining (h : s.CursorInv) : (s.capacity : Int) - s.remaining = s.consumed := by
  rw [remaining_eq h]
  omega

/-- Settles O26, by `byteIndex_eq`. -/
theorem byteIndexCountsWholeBytesConsumed : Obligations.ByteIndexCountsWholeBytesConsumed := by
  intro s h
  rw [capacity_sub_remaining h, byteIndex_eq h]
  refine ⟨rfl, rfl, fun ha => ?_⟩
  rw [aligned_iff h, ← consumed_mod_eight h] at ha
  omega

theorem consumed_lt_capacity (h : s.CursorInv) (hlt : s.cidx.toNat < s.len.toNat) : s.consumed < s.capacity := by
  have hle := consumed_le_capacity h
  have hne : ¬ s.consumed = s.capacity := by
    rw [← decide_eq_true_iff (p := s.consumed = s.capacity), ← exhausted_eq h, exhausted_iff]
    omega
  omega

/-- What Advance consumes is still in the cell: for `n = 8` because the cell's last byte boundary leaves a whole byte. -/
theorem advance_within_cell {n : Nat} (hn : n = 1 ∨ (n = 8 ∧ s.consumed % 8 = 0)) :
    s.consumed % s.wc.bits + n ≤ s.wc.bits := by
  cases hw : s.wc <;> simp only [Width.bits] <;> omega

/-- Moving on by `n` bits that lie in the cell carries into the next cell exactly at the cell's end. -/
theorem div_mod_of_within {c n W : Nat} (hn : 0 < n) (hin : c % W + n ≤ W) :
    (c % W + n = W → (c + n) / W = c / W + 1 ∧ (c + n) % W = 0) ∧
    (c % W + n ≠ W → (c + n) / W = c / W ∧ (c + n) % W = c % W + n) := by
  have hsplit := Nat.div_add_mod c W
  refine ⟨fun heq => ?_, fun hne => ?_⟩
  · have hsum : c + n = W * (c / W + 1) := by rw [Nat.mul_add, Nat.mul_one]; omega
    rw [hsum]
    exact ⟨Nat.mul_div_cancel_left _ (by omega), Nat.mul_mod_right _ _⟩
  · have hsum : c + n = c % W + n + W * (c / W) := by omega
    have hlt : c % W + n < W := by omega
    rw [hsum, Nat.add_mul_div_left _ _ (by omega), Nat.add_mul_mod_self_left, Nat.div_eq_of_lt hlt, Nat.mod_eq_of_lt hlt]
    omega

/-- Settles O27: under R111's precondition Advance moves to the position `n` on, and every clause is read off there. -/
theorem advanceMovesByExactlyItsArgument : Obligations.AdvanceMovesByExactlyItsArgument := by
  intro s n hL hlt hn
  have ⟨_, hI, hcap⟩ := hL
  have hn8 : n = 1 ∨ (n = 8 ∧ s.consumed % 8 = 0) := by
    rwa [aligned_eq hI, decide_eq_true_iff] at hn
  have hroom := consumed_lt_capacity hI hlt
  have hle : s.consumed + n ≤ s.capacity := by
    have hc8 := capacity_mod_eight s
    omega
  rw [advance_eq hL hroom hn8]
  have hI' := moveTo_cursorInv hcap hle
  have hc' := moveTo_consumed hcap hle
  have hin := advance_within_cell hn8
  obtain ⟨hcarry, hstay⟩ := div_mod_of_within (by omega) hin
  have hboff := boff_eq hI
  have hcidx' := cidx_eq hI'
  have hboff' := boff_eq hI'
  rw [hc', State.moveTo_wc] at hcidx' hboff'
  refine ⟨?_, hc', hI', by omega, fun heq => ?_, fun hne => ?_, ?_⟩
  · rw [remaining_eq hI', remaining_eq hI, hc', State.moveTo_capacity]
    omega
  · obtain ⟨hdiv, hmod⟩ := hcarry (by omega)
    rw [hmod] at hboff'
    exact ⟨by rw [hcidx', hdiv, cidx_eq hI], BitVec.eq_of_toNat_eq hboff'⟩
  · obtain ⟨hdiv, hmod⟩ := hstay (by omega)
    exact ⟨BitVec.eq_of_toNat_eq (by rw [hcidx', hdiv, cidx_eq hI]), by omega⟩
  · have hmod8 := consumed_mod_eight hI
    rw [byteIndex_eq hI', byteIndex_eq hI, hc']
    split <;> omega

end Sys2Proof.Machine
end

section
/-! SUPPORT. What decides whether a command runs, BOUND and MODE (spec/10_state.md R24, R25), and what it never looks at,
the responses before it (R22). -/

namespace Sys2Proof.Machine

variable {s t : State}

/-! ## Earlier responses -/

/-- Replace the responses returned so far. -/
def State.setResponses (s : State) (rs : List Response) : State := { s with responses := rs }

theorem advance_setResponses (n : Nat) (s : State) (rs : List Response) :
    (s.setResponses rs).advance n = (s.advance n).setResponses rs := by
  unfold State.advance
  rw [apply_ite (fun t : State => t.setResponses rs)]
  rfl

theorem cellOr_setResponses (i : Nat) (v : Word) (s : State) (rs : List Response) :
    (s.setResponses rs).cellOr i v = (s.cellOr i v).setResponses rs := rfl

@[simp] theorem readOneBit_setResponses (s : State) (rs : List Response) :
    readOneBit (s.setResponses rs) = (readOneBit s).map fun r => (r.1, r.2.setResponses rs) := by
  unfold readOneBit
  rw [advance_setResponses, apply_ite (Option.map _)]
  rfl

@[simp] theorem readOneByte_setResponses (s : State) (rs : List Response) :
    readOneByte (s.setResponses rs) = (readOneByte s).map fun r => (r.1, r.2.setResponses rs) := by
  unfold readOneByte
  rw [advance_setResponses, apply_ite (Option.map _)]
  rfl

@[simp] theorem writeOneBit_setResponses (bit : Bool) (s : State) (rs : List Response) :
    writeOneBit bit (s.setResponses rs) = (writeOneBit bit s).map (·.setResponses rs) := by
  unfold writeOneBit
  rw [cellOr_setResponses, advance_setResponses, apply_ite (Option.map _)]
  rfl

@[simp] theorem writeOneByte_setResponses (b : Byte) (s : State) (rs : List Response) :
    writeOneByte b (s.setResponses rs) = (writeOneByte b s).map (·.setResponses rs) := by
  unfold writeOneByte
  rw [cellOr_setResponses, advance_setResponses, apply_ite (Option.map _)]
  rfl

@[simp] theorem readBitSeq_setResponses (n : Nat) (s : State) (rs : List Response) :
    readBitSeq n (s.setResponses rs) = ((readBitSeq n s).1, (readBitSeq n s).2.setResponses rs) := by
  induction n generalizing s with
  | zero => rfl
  | succ n ih =>
    simp only [readBitSeq, readOneBit_setResponses]
    cases readOneBit s <;> simp only [Option.map_none, Option.map_some, ih]

@[simp] theorem readByteSeq_setResponses (n : Nat) (s : State) (rs : List Response) :
    readByteSeq n (s.setResponses rs) = ((readByteSeq n s).1, (readByteSeq n s).2.setResponses rs) := by
  induction n generalizing s with
  | zero => rfl
  | succ n ih =>
    simp only [readByteSeq, readOneByte_setResponses]
    cases readOneByte s <;> simp only [Option.map_none, Option.map_some, ih]

@[simp] theorem writeBitSeq_setResponses (bits : List Bool) (s : State) (rs : List Response) :
    writeBitSeq bits (s.setResponses rs) = ((writeBitSeq bits s).1, (writeBitSeq bits s).2.setResponses rs) := by
  induction bits generalizing s with
  | nil => rfl
  | cons b bits ih =>
    simp only [writeBitSeq, writeOneBit_setResponses]
    cases writeOneBit b s <;> simp only [Option.map_none, Option.map_some, ih]

@[simp] theorem writeByteSeq_setResponses (bytes : List Byte) (s : State) (rs : List Response) :
    writeByteSeq bytes (s.setResponses rs) =
      ((writeByteSeq bytes s).1, (writeByteSeq bytes s).2.setResponses rs) := by
  induction bytes generalizing s with
  | nil => rfl
  | cons b bytes ih =>
    simp only [writeByteSeq, writeOneByte_setResponses]
    cases writeOneByte b s <;> simp only [Option.map_none, Option.map_some, ih]

/-- Two answers that differ only in the responses before them: from states alike but for those, with one response, whose
STATUS is not ILLEGAL_COMMAND. The second has `rs` before it. -/
inductive Alike (rs : List Response) : State → State → Prop where
  | respond (u : State) (st : Status) (v : Word) (q : List SeqElement) (h : st ≠ .illegalCommand) :
      Alike rs (u.respond st v q) ((u.setResponses rs).respond st v q)

theorem Alike.ite {rs : List Response} {c : Prop} [Decidable c] {a a' b b' : State} (ha : Alike rs a a')
    (hb : Alike rs b b') : Alike rs (if c then a else b) (if c then a' else b') := by
  split
  · exact ha
  · exact hb

theorem readFolded_alike (n : Nat) (s : State) (rs : List Response) :
    Alike rs (readFolded n s) (readFolded n (s.setResponses rs)) := by
  simp only [readFolded, readBitSeq_setResponses]
  exact .respond _ _ _ _ nofun

theorem respondCount_alike (r : Nat × State) (rs : List Response) :
    Alike rs (respondCount r) (respondCount (r.1, r.2.setResponses rs)) :=
  .respond r.2 _ _ _ nofun

theorem respondWritten_alike (s : State) (w : Option State) (rs : List Response) :
    Alike rs (respondWritten s w) (respondWritten (s.setResponses rs) (w.map (·.setResponses rs))) := by
  cases w <;> exact .respond _ _ _ _ nofun

/-- What an admitted command answers, and what it answers with `rs` in the place of the responses before it. -/
theorem exec_alike {i : Instr} (h : s.admits i.opcode.cls = true) (rs : List Response) :
    ∃ t t', exec i s = .next t ∧ exec i (s.setResponses rs) = .next t' ∧ Alike rs t t' := by
  cases i with
  | bind mode wc len => exact ⟨_, _, exec_bind, exec_bind,
      .ite (.respond _ _ _ _ nofun) (.respond (s.rebind mode wc len) _ _ _ nofun)⟩
  | qbpe => exact ⟨_, _, exec_qbpe h, exec_qbpe h, .respond _ _ _ _ nofun⟩
  | qbitpe => exact ⟨_, _, exec_qbitpe h, exec_qbitpe h, .respond _ _ _ _ nofun⟩
  | qrem => exact ⟨_, _, exec_qrem h, exec_qrem h, .respond _ _ _ _ nofun⟩
  | qaln => exact ⟨_, _, exec_qaln h, exec_qaln h, .respond _ _ _ _ nofun⟩
  | qbidx => exact ⟨_, _, exec_qbidx h, exec_qbidx h, .respond _ _ _ _ nofun⟩
  | collect bits => exact ⟨_, _, exec_collect h, exec_collect h, .respond _ _ _ _ nofun⟩
  | rdbit =>
    refine ⟨_, _, exec_rdbit h, exec_rdbit h, ?_⟩
    rw [readOneBit_setResponses]
    cases readOneBit s <;> exact .respond _ _ _ _ nofun
  | rdbits n =>
    exact ⟨_, _, exec_rdbits h, exec_rdbits h,
      .ite (.respond _ _ _ _ nofun) (.ite (.respond _ _ _ _ nofun) (readFolded_alike n.toNat s rs))⟩
  | rdbitss n =>
    refine ⟨_, _, exec_rdbitss h, exec_rdbitss h, .ite (.respond _ _ _ _ nofun) ?_⟩
    rw [readBitSeq_setResponses]
    exact .respond _ _ _ _ nofun
  | rdbyte =>
    refine ⟨_, _, exec_rdbyte h, exec_rdbyte h, .ite (.respond _ _ _ _ nofun) ?_⟩
    rw [readOneByte_setResponses]
    cases readOneByte s <;> exact .respond _ _ _ _ nofun
  | rdbytes n =>
    refine ⟨_, _, exec_rdbytes h, exec_rdbytes h, .ite (.respond _ _ _ _ nofun) (.ite (.respond _ _ _ _ nofun) ?_)⟩
    rw [readByteSeq_setResponses]
    exact .respond _ _ _ _ nofun
  | rdall => exact ⟨_, _, exec_rdall h, exec_rdall h, readFolded_alike s.remaining.toNat s rs⟩
  | next =>
    refine ⟨_, _, exec_next h, exec_next h, ?_⟩
    rw [readOneBit_setResponses]
    cases readOneBit s with
    | none => exact .respond _ _ _ _ nofun
    | some r => exact .respond (r.2.setIter (r.2.iter + 1)) _ _ _ nofun
  | wrbit bit =>
    refine ⟨_, _, exec_wrbit h, exec_wrbit h, ?_⟩
    rw [writeOneBit_setResponses]
    exact respondWritten_alike s _ rs
  | wrbits bits =>
    refine ⟨_, _, exec_wrbits h, exec_wrbits h, ?_⟩
    rw [writeBitSeq_setResponses]
    exact .respond _ _ _ _ nofun
  | wrbitsv value n =>
    refine ⟨_, _, exec_wrbitsv h, exec_wrbitsv h, .ite (.respond _ _ _ _ nofun) ?_⟩
    rw [writeBitSeq_setResponses]
    exact respondCount_alike _ rs
  | wrbyte b =>
    refine ⟨_, _, exec_wrbyte h, exec_wrbyte h, .ite (.respond _ _ _ _ nofun) (.ite (.respond _ _ _ _ nofun) ?_)⟩
    rw [writeOneByte_setResponses]
    exact respondWritten_alike s _ rs
  | wrbytes bytes =>
    refine ⟨_, _, exec_wrbytes h, exec_wrbytes h, .ite (.respond _ _ _ _ nofun) ?_⟩
    rw [writeByteSeq_setResponses]
    exact .respond _ _ _ _ nofun
  | wrbytesv value n =>
    refine ⟨_, _, exec_wrbytesv h, exec_wrbytesv h, .ite (.respond _ _ _ _ nofun) (.ite (.respond _ _ _ _ nofun) ?_)⟩
    rw [writeByteSeq_setResponses]
    exact respondCount_alike _ rs

/-- The one response that an answer adds, put after `rs`. -/
theorem setResponses_respond {u : State} {st : Status} {v : Word} {q : List SeqElement} {l : List Response} {r : Response}
    (h : (u.respond st v q).responses = l ++ [r]) (rs : List Response) :
    (u.setResponses rs).respond st v q = { u.respond st v q with responses := rs ++ [r] } := by
  obtain ⟨-, hr⟩ := List.append_inj' h rfl
  rw [← hr]
  rfl

/-- Settles O57: a refused command looks at BOUND and MODE only, and an admitted one answers alike. -/
theorem earlierResponsesAreNeverRead : Obligations.EarlierResponsesAreNeverRead := by
  intro i s t rs r hexec hresp
  change exec i (s.setResponses rs) = _
  cases ha : s.admits i.opcode.cls with
  | false =>
    rw [exec_refused ha] at hexec
    injection hexec with hexec
    subst hexec
    rw [exec_refused (s := s.setResponses rs) ha, setResponses_respond hresp]
  | true =>
    obtain ⟨u, u', hu, hu', halike⟩ := exec_alike ha rs
    rw [hu] at hexec
    injection hexec with hexec
    subst hexec
    cases halike with
    | respond u st v q h => rw [hu', setResponses_respond hresp]

/-! ## BOUND and MODE -/

/-- An admitted command answers with a STATUS other than ILLEGAL_COMMAND. -/
theorem admitted_answers {i : Instr} (h : s.admits i.opcode.cls = true) :
    ∃ t r, Answers (exec i s) s t r ∧ r.status ≠ .illegalCommand := by
  obtain ⟨t, t', ht, ht', halike⟩ := exec_alike h s.responses
  cases halike with
  | respond u st v q hst => exact ⟨_, ⟨st, v, q⟩, ⟨ht', rfl⟩, hst⟩

theorem opcode_cls_eq_bind_iff (op : Opcode) : op.cls = .bind ↔ op = .bind := by cases op <;> decide

/-- What an unbound block admits. -/
theorem admits_unbound {c : CommandClass} (hb : s.bound = false) (hc : c ≠ .bind) : s.admits c = false :=
  eq_false_of_ne_true fun h => by simp [admits_bound h hc] at hb

/-- BIND answers OK only where it has bound. -/
theorem bind_ok {m : Mode} {w : Width} {l : Word} {r : Response} (h : Answers (exec (.bind m w l) s) s t r)
    (hr : r.status = .ok) : t = (s.rebind m w l).respond .ok 0 [] := by
  obtain ⟨hexec, hresp⟩ := h
  rw [exec_bind] at hexec
  injection hexec with hexec
  subst hexec
  split at hresp
  · obtain ⟨-, hr'⟩ := List.append_inj' hresp rfl
    rw [← (List.singleton_inj.mp hr')] at hr
    cases hr
  · next hl => rw [if_neg hl]

/-- A command leaves the binding or is a BIND, which makes one. -/
theorem exec_keeps_bound {i : Instr} (h : exec i s = .next t) (hb : s.bound = true) : t.bound = true := by
  obtain ⟨u, st, v, q, hr, hexec⟩ := exec_reaches i s
  rw [hexec] at h
  injection h with h
  rw [← h, State.respond_bound]
  cases hr with
  | same => exact hb
  | bind => rfl
  | reads hs =>
    rw [hs]
    exact hb
  | counts hs n =>
    rw [State.setIter_bound, hs]
    exact hb
  | stores hs =>
    rw [hs.same]
    exact hb

/-- Settles O19: of the cases of a step only a power-on reset writes a 0 to BOUND. -/
theorem unboundRefusesAllButBind : Obligations.UnboundRefusesAllButBind := by
  refine ⟨rfl, fun m w l s t r h hr => by rw [bind_ok h hr]; rfl, fun i s t => exec_keeps_bound, ?_, ?_⟩
  · intro s t hstep hb
    cases step_cases hstep with
    | idle | illegal | designates | hostWrites => exact .inl hb
    | runs i rest h => exact .inl (exec_keeps_bound h hb)
    | resets rest h => exact .inr ⟨rest, h⟩
  · intro i s hb hi
    exact exec_refused (admits_unbound hb (mt (opcode_cls_eq_bind_iff _).mp hi))

/-- The MODE operand of a BIND that decodes is CMD[2] (R83). -/
theorem decode_bind_mode {x : Transaction} {m : Mode} {w : Width} {l : Word} (h : decode x = .ok (.bind m w l)) :
    m = Mode.ofBit (x.cmd.getLsbD 2) := by
  obtain ⟨-, -, hasm⟩ := decode_ok h
  simp only [Instr.opcode, assemble] at hasm
  split at hasm
  · injection hasm with hasm
    injection hasm with hm
    exact hm.symm
  · cases hasm

theorem ofBit_eq_writer_iff (b : Bool) : Mode.ofBit b = .writer ↔ b = true := by cases b <;> decide

theorem exec_keeps_mode {i : Instr} (h : exec i s = .next t) (hi : i.opcode ≠ .bind) : t.mode = s.mode := by
  obtain ⟨u, st, v, q, hr, hexec⟩ := exec_reaches i s
  rw [hexec] at h
  injection h with h
  obtain ⟨-, hmode, -⟩ := hr.binding hi
  rw [← h, State.respond_mode, hmode]

/-- Settles O20: MODE comes from CMD[2] at BIND alone, and the tests of R90 compare it with the command's class. -/
theorem modeDecidesWhichCommandsRun : Obligations.ModeDecidesWhichCommandsRun := by
  refine ⟨fun x m w l h => ?_, fun m w l s t r h hr => by rw [bind_ok h hr]; rfl, fun i s t => exec_keeps_mode,
    fun i s hb => ⟨?_, ?_⟩⟩
  · rw [decode_bind_mode h]
    exact ofBit_eq_writer_iff _
  · rintro (⟨hc, hm⟩ | ⟨hc, hm⟩) <;>
    · apply exec_refused
      rw [hc]
      simp [State.admits, hm]
  · rintro (⟨hc, hm⟩ | ⟨hc, hm⟩ | hc)
    · exact admitted_answers (hc ▸ admits_reader hb hm)
    · exact admitted_answers (hc ▸ admits_writer hb hm)
    · exact admitted_answers (hc ▸ admits_query hb)

end Sys2Proof.Machine
end

section
/-! SUPPORT. What commands and the host do to the buffers' bytes (spec/20_memory.md): a writer command's stores, what no
command clears, and what a command reads after a host write. -/

namespace Sys2Proof.Machine

variable {s t : State}

/-! ## What a command leaves of memory -/

/-- `exec_reaches` read backwards: what is known of the state that a command answers. -/
theorem exec_reached {i : Instr} (h : exec i s = .next t) :
    ∃ u st v q, Reaches i s u ∧ t = u.respond st v q := by
  obtain ⟨u, st, v, q, hr, hexec⟩ := exec_reaches i s
  exact ⟨u, st, v, q, hr, Host.Outcome.next.inj (h.symm.trans hexec)⟩

/-- Of the ways to reach a state only the stores of a writer command change memory. -/
theorem Reaches.mem_eq_or_stores {i : Instr} {u : State} (h : Reaches i s u) : u.mem = s.mem ∨ Stores s u := by
  cases h with
  | same | bind => exact .inl rfl
  | reads h =>
    rw [h]
    exact .inl rfl
  | counts h n =>
    rw [State.setIter_mem, h]
    exact .inl rfl
  | stores h => exact .inr h

/-- Settles O51: a store only ORs, and nothing else a command does writes memory. -/
theorem commandsNeverClearABit : Obligations.CommandsNeverClearABit := by
  intro i s t a hwf hexec
  obtain ⟨u, st, v, q, hr, rfl⟩ := exec_reached hexec
  rw [State.respond_mem]
  rcases hr.mem_eq_or_stores with hm | hst
  · rw [hm, BitVec.and_self]
  · exact hst.keeps hwf a

/-! ## The frame of the writer commands -/

/-- A writer command's steps, refused or not, are stores. -/
theorem Reaches.stores_of_writer {i : Instr} {u : State} (h : Reaches i s u) (hi : i.opcode.cls = .writer) :
    Stores s u := by
  cases h with
  | same => exact .refl s
  | bind mode wc len _ hb =>
    rw [hb] at hi
    cases hi
  | reads _ hc =>
    rw [hc] at hi
    cases hi
  | counts _ n hn =>
    rw [hn] at hi
    cases hi
  | stores h => exact h

/-- The response to a single write changes no memory, so a byte that the write keeps is kept. -/
theorem respondWritten_read {w : Option State} {a : Nat}
    (h : ∀ u, w = some u → u.mem.read a = s.mem.read a) :
    (respondWritten s w).mem.read a = s.mem.read a := by
  cases w with
  | none => rfl
  | some u => exact h u rfl

section SingleCell

variable {a : Nat} (ha : a < s.bufferId.cellAddr s.cidx.toNat ∨ s.bufferId.cellAddr s.cidx.toNat + s.wc.bytes ≤ a)
include ha

/-- `CellOr` at the cursor leaves every byte outside the cursor's cell, wherever Advance then moves the cursor. -/
theorem cellOr_advance_read_outside (v : Word) (n : Nat) :
    ((s.cellOr s.cidx.toNat v).advance n).mem.read a = s.mem.read a := by
  rw [advance_sameButCursor (s.cellOr s.cidx.toNat v) n]
  exact writeCell_read_other s.mem s.bufferId s.cidx.toNat _ ha

theorem writeOneBit_read_outside {bit : Bool} (h : writeOneBit bit s = some t) : t.mem.read a = s.mem.read a := by
  unfold writeOneBit at h
  split at h
  · cases h
  · exact Option.some.inj h ▸ cellOr_advance_read_outside ha _ 1

theorem writeOneByte_read_outside {b : Byte} (h : writeOneByte b s = some t) : t.mem.read a = s.mem.read a := by
  unfold writeOneByte at h
  split at h
  · cases h
  · exact Option.some.inj h ▸ cellOr_advance_read_outside ha _ 8

/-- WRBIT and WRBYTE change no byte outside the cell at the cursor. -/
theorem exec_single_write_read_outside {i : Instr} (hi : i.opcode = .wrbit ∨ i.opcode = .wrbyte)
    (h : exec i s = .next t) : t.mem.read a = s.mem.read a := by
  cases hadm : s.admits i.opcode.cls with
  | false => exact Host.Outcome.next.inj ((exec_refused hadm).symm.trans h) ▸ rfl
  | true =>
    cases i with
    | wrbit bit =>
      rw [← Host.Outcome.next.inj ((exec_wrbit hadm).symm.trans h)]
      exact respondWritten_read fun _ => writeOneBit_read_outside ha
    | wrbyte b =>
      rw [← Host.Outcome.next.inj ((exec_wrbyte hadm).symm.trans h)]
      split
      · rfl
      · split
        · rfl
        · exact respondWritten_read fun _ => writeOneByte_read_outside ha
    | _ => simp [Instr.opcode] at hi

end SingleCell

/-- Settles O49: every writer command is a run of stores with one response, and WRBIT and WRBYTE make at most one. -/
theorem writerCommandsFrame : Obligations.WriterCommandsFrame := by
  intro i s t hi hexec
  obtain ⟨u, st, v, q, hr, rfl⟩ := exec_reached hexec
  have hst := hr.stores_of_writer hi
  refine ⟨?_, ⟨⟨st, v, q⟩, ?_⟩, hst.forward, hst.outside, fun hop a ha => exec_single_write_read_outside ha hop hexec⟩
  · rw [hst.same]
    rfl
  · rw [State.respond_responses, hr.responses]

/-! ## A command after a host write -/

/-- The step that takes a host write (R258). -/
theorem step_hostWrite {b : BufferId} {i : Nat} {v : Word} {rest : List HostAction}
    (hp : s.pending = .hostWrite b i v :: rest) : step s = hostWriteCell b i v (s.setPending rest) := by
  unfold step
  rw [hp]

/-- The step that takes a command transaction that decodes (R90). -/
theorem step_command {x : Transaction} {i : Instr} {rest : List HostAction} (hp : s.pending = .command x :: rest)
    (hd : decode x = .ok i) : step s = exec i (s.setPending rest) := by
  unfold step
  rw [hp]
  simp only [hd]

/-- A bit of the cell at the cursor after a write of that cell. -/
theorem writeCell_streamBit_consumed (h : s.CursorInv) (hm : s.mem.wf = true) (hlt : s.consumed < s.capacity) (v : Word) :
    streamBit (writeCell s.mem s.bufferId s.cidx.toNat v) s.bufferId s.consumed =
      v.getLsbD (s.wc.bits - s.boff.toNat) := by
  rw [writeCell_streamBit hm s.bufferId s.bufferId (cidx_lt_len h hlt) v hlt, if_pos ⟨rfl, (cidx_eq h).symm⟩]
  exact congrArg v.getLsbD (bitShift_eq h).symm

/-- RDBIT with a bit left answers the stream bit at the cursor and moves on by one (R141). -/
theorem exec_rdbit_some (h : s.Live) (hmode : s.mode = .reader) (hlt : s.consumed < s.capacity) :
    exec .rdbit s =
      .next ((s.moveTo (s.consumed + 1)).respond .ok (bitWord (streamBit s.mem s.bufferId s.consumed)) []) := by
  rw [exec_rdbit (admits_reader h.1 hmode), readOneBit_some h hlt]

/-- Settles O56: the host write leaves the registers, and RDBIT then reads the stream of the memory it left. -/
theorem aLaterCommandSeesAHostWrite : Obligations.ALaterCommandSeesAHostWrite := by
  intro s t v rest hL hwf hmode hlt _ hp hstep
  rw [step_hostWrite hp] at hstep
  have ht := hostWriteCell_next hstep
  subst ht
  refine ⟨rfl, rfl, _, (step_command rfl (decode_word _ .rdbit _ _ _ (by decide) (by decide))).trans
    (exec_rdbit_some hL hmode hlt), ?_, ?_⟩
  · exact moveTo_consumed hL.2.2 hlt
  · exact congrArg (fun x => s.responses ++ [⟨.ok, bitWord x, []⟩]) (writeCell_streamBit_consumed hL.2.1 hwf hlt v)

/-! ## The streams and the byte image -/

/-- Settles O58: both streams are read off the byte at one address. -/
theorem streamByteIsEightStreamBits : Obligations.StreamByteIsEightStreamBits := by
  intro m b j k hk
  rw [streamByte_eq, streamBit_eq, show (8 * j + k) / 8 = j by omega, show (8 * j + k) % 8 = k by omega]

/-- Numbering `n` rows of `w` entries row by row. -/
theorem flatMap_range_rows {α : Type} (f : Nat → α) (n w : Nat) :
    ((List.range n).flatMap fun i => (List.range w).map fun k => f (i * w + k)) = (List.range (n * w)).map f := by
  induction n with
  | zero => rw [Nat.zero_mul]; rfl
  | succ n ih =>
    rw [List.range_succ, List.flatMap_append, ih, Nat.succ_mul, List.range_add, List.map_append, List.map_map,
      List.flatMap_singleton]
    rfl

/-- Byte `k` of cell `i`, most significant first, is byte `i * B + k` of the stream (R55, R56). -/
theorem readCell_extract_eq_streamByte (m : Memory) (b : BufferId) (i : Nat) {k : Nat} (hk : k < b.wc.bytes) :
    (readCell m b i).extractLsb' (8 * (b.wc.bytes - 1 - k)) 8 = streamByte m b (i * b.wc.bytes + k) := by
  rw [Nat.mul_comm, ← BitVec.setWidth_ushiftRight_eq_extractLsb, readCell_byte m b i hk, streamByte_eq,
    BufferId.cellAddr_eq]
  exact congrArg m.read (Nat.add_assoc _ _ _)

/-- A buffer holds whole bytes. -/
theorem BufferId.bits_eq_eight_mul (b : BufferId) : b.bits = 8 * (b.len.toNat * b.wc.bytes) := by
  unfold BufferId.bits
  rw [bits_eq, Nat.mul_left_comm]

/-- A buffer's cells taken apart into bytes are its byte stream. -/
theorem byteImage_eq_streamBytes (m : Memory) (b : BufferId) :
    ((List.range b.len.toNat).flatMap fun i => (List.range b.wc.bytes).map fun k =>
        (readCell m b i).extractLsb' (8 * (b.wc.bytes - 1 - k)) 8) =
      (List.range (b.bits / 8)).map (streamByte m b) := by
  rw [b.bits_eq_eight_mul, Nat.mul_div_cancel_left _ (by decide), ← flatMap_range_rows]
  congr 1
  funext i
  apply List.map_congr_left
  intro k hk
  exact readCell_extract_eq_streamByte m b i (List.mem_range.mp hk)

/-- Settles O59: the byte image is the byte stream, which decides every bit of the bit stream. -/
theorem streamsDependOnlyOnTheByteImage : Obligations.StreamsDependOnlyOnTheByteImage := by
  intro m m' b b' hbits himage
  rw [byteImage_eq_streamBytes, byteImage_eq_streamBytes, ← hbits] at himage
  have hbyte : ∀ j, j < b.bits / 8 → streamByte m b j = streamByte m' b' j := fun j hj =>
    List.map_inj_left.mp himage j (List.mem_range.mpr hj)
  refine ⟨fun p hp => ?_, hbyte⟩
  have h8 := b.bits_eq_eight_mul
  have hp8 := Nat.mod_lt p (show 0 < 8 by decide)
  rw [← Nat.div_add_mod p 8, ← streamByteIsEightStreamBits m b _ _ hp8, ← streamByteIsEightStreamBits m' b' _ _ hp8,
    hbyte _ (by omega)]

end Sys2Proof.Machine
end

section
/-! SUPPORT. The transaction and the command it spells (spec/30_encoding.md R81 to R101): what the decoder reads from the
transaction of a command, what it has read where it accepts one, and which words it accepts. -/

namespace Sys2Proof

open Machine

variable {t t' : Transaction} {op : Opcode} {i : Instr}

/-! ## From the command to its transaction and back -/

/-- The fact of `Laws.CommandWord` for whichever command. -/
theorem commandWord_spells (i : Instr) : Laws.CommandWord.Statement i := by
  cases i with
  | bind mode wc len => exact Laws.CommandWord.bind mode wc len
  | wrbit bit => exact Laws.CommandWord.wrbit bit
  | _ => exact Laws.CommandWord.plain _

theorem Width.ofCode_code (w : Width) : Width.ofCode w.code = some w := by cases w <;> rfl

theorem Mode.ofBit_bit (m : Mode) : Mode.ofBit m.bit = m := by cases m <;> rfl

/-- CMD[1:0] and CMD[2] of a BIND word (R83). -/
theorem commandWord_bind_fields (mode : Mode) (wc : Width) (len : Word) :
    (Instr.bind mode wc len).commandWord.extractLsb' 0 2 = wc.code ∧
      (Instr.bind mode wc len).commandWord.getLsbD 2 = mode.bit := by
  cases mode <;> cases wc <;>
  · simp only [Instr.commandWord, Instr.fnField, Instr.opcode, Mode.bit, Width.code]
    decide

/-- CMD[0] of a WRBIT word (R84). -/
theorem commandWord_wrbit_bit (bit : Bool) : (Instr.wrbit bit).commandWord.getLsbD 0 = bit := by
  cases bit <;> decide

/-- Every operand that a command uses is read back from where the encoder has put it. -/
theorem assemble_encode (i : Instr) (h : i.wellFormed = true) : assemble i.opcode (encode i) = .ok i := by
  cases i with
  | bind mode wc len =>
    obtain ⟨hwc, hmode⟩ := commandWord_bind_fields mode wc len
    simp only [Instr.opcode, assemble, encode, hwc, hmode, Width.ofCode_code, Mode.ofBit_bit, Instr.opaOperand]
  | rdbits n => exact congrArg (Except.ok ∘ Instr.rdbits) (sint32_countWord h)
  | rdbitss n => exact congrArg (Except.ok ∘ Instr.rdbitss) (sint32_countWord h)
  | rdbytes n => exact congrArg (Except.ok ∘ Instr.rdbytes) (sint32_countWord h)
  | wrbitsv value n => exact congrArg (Except.ok ∘ Instr.wrbitsv value) (sint32_countWord h)
  | wrbytesv value n => exact congrArg (Except.ok ∘ Instr.wrbytesv value) (sint32_countWord h)
  | collect bits => exact congrArg (Except.ok ∘ Instr.collect) (map_laneBit_map_bitLane bits)
  | wrbits bits => exact congrArg (Except.ok ∘ Instr.wrbits) (map_laneBit_map_bitLane bits)
  | wrbit bit => exact congrArg (Except.ok ∘ Instr.wrbit) (commandWord_wrbit_bit bit)
  | _ => rfl

/-- Settles O1: the word is read as the command's opcode with clear reserved bits, and then its operands are. -/
theorem decodeOfEncodeIsTheCommand : Obligations.DecodeOfEncodeIsTheCommand := by
  intro i h
  obtain ⟨hop, hz⟩ := commandWord_spells i
  rw [decode_of_opcode (t := encode i) hop hz]
  exact assemble_encode i h

/-- Settles O4: ten words written out, each evaluated. -/
theorem exampleEncodingsDecode : Obligations.ExampleEncodingsDecode := by
  unfold Obligations.ExampleEncodingsDecode
  decide

/-! ## What has been read where a transaction decodes -/

theorem assemble_bind_ok (h : assemble .bind t = .ok i) :
    ∃ w, Width.ofCode (t.cmd.extractLsb' 0 2) = some w ∧ i = .bind (Mode.ofBit (t.cmd.getLsbD 2)) w t.opa := by
  simp only [assemble] at h
  split at h
  · next w hw => exact ⟨w, hw, (Except.ok.inj h).symm⟩
  · cases h

/-- Every OPN is a count that its port carries (R86). -/
theorem assemble_wellFormed (h : assemble op t = .ok i) : i.wellFormed = true := by
  cases op with
  | bind =>
    obtain ⟨w, -, rfl⟩ := assemble_bind_ok h
    rfl
  | rdbits | rdbitss | rdbytes | wrbitsv | wrbytesv => exact Except.ok.inj h ▸ countFits_sint32 t.opn
  | _ => exact Except.ok.inj h ▸ rfl

theorem assemble_opaOperand (h : assemble op t = .ok i) (hu : usesOpa op = true) : i.opaOperand = t.opa := by
  cases op with
  | bind =>
    obtain ⟨w, -, rfl⟩ := assemble_bind_ok h
    rfl
  | wrbitsv | wrbyte | wrbytesv => exact Except.ok.inj h ▸ rfl
  | _ => cases hu

theorem assemble_opnOperand (h : assemble op t = .ok i) (hu : usesOpn op = true) : i.opnOperand = t.opn := by
  cases op with
  | rdbits | rdbitss | rdbytes | wrbitsv | wrbytesv => exact Except.ok.inj h ▸ countWord_sint32 t.opn
  | _ => cases hu

/-- A 1-bit element comes back on a lane whose other bits are 0 (log entry 9). -/
theorem assemble_seqOperand_bits (h : assemble op t = .ok i) (hu : op = .collect ∨ op = .wrbits) :
    i.seqOperand = t.seq.map fun x => bitLane (laneBit x) := by
  rcases hu with rfl | rfl <;> exact Except.ok.inj h ▸ List.map_map

theorem assemble_seqOperand_bytes (h : assemble .wrbytes t = .ok i) : i.seqOperand = t.seq :=
  Except.ok.inj h ▸ rfl

/-! ## The fields of a word -/

theorem extractLsb'_eq_zero {c : Word} {k m : Nat} (h : c.toNat / 2 ^ k % 2 ^ m = 0) : c.extractLsb' k m = 0 := by
  apply BitVec.eq_of_toNat_eq
  rw [BitVec.extractLsb'_toNat, Nat.shiftRight_eq_div_pow, h]
  rfl

theorem ofBool_getLsbD (c : Word) (k : Nat) : BitVec.ofBool (c.getLsbD k) = c.extractLsb' k 1 := by
  apply BitVec.eq_of_getLsbD_eq
  intro j hj
  obtain rfl : j = 0 := by omega
  simp

theorem Mode.bit_ofBit (b : Bool) : (Mode.ofBit b).bit = b := by cases b <;> rfl

theorem Width.code_of_ofCode {c : BitVec 2} {w : Width} (h : Width.ofCode c = some w) : w.code = c := by
  revert c w
  decide

/-- The bits of a word from 0 to 23 that a format does not reserve are in its FN field. -/
theorem reserved_middle (f : Format) (c : Word) (h : c &&& f.reservedMask = 0) : c.extractLsb' 8 16 = 0 := by
  apply extractLsb'_eq_zero
  cases f with
  | n => have := (reserved_n c).mp h; omega
  | b => have := (reserved_b c).mp h; omega
  | w => have := (reserved_w c).mp h; omega

/-- FN of a word that decodes is spelled by its command (R82, R83, R84). -/
theorem assemble_fnField (h : assemble op t = .ok i) (hz : t.cmd &&& op.format.reservedMask = 0) :
    i.fnField = t.cmd.extractLsb' 0 8 := by
  cases op with
  | bind =>
    obtain ⟨w, hw, rfl⟩ := assemble_bind_ok h
    have hz' := (reserved_b t.cmd).mp hz
    have h5 : t.cmd.extractLsb' 3 5 = 0 := extractLsb'_eq_zero (by omega)
    simp only [Instr.fnField]
    rw [Mode.bit_ofBit, Width.code_of_ofCode hw, ofBool_getLsbD, ← h5,
      BitVec.extractLsb'_append_extractLsb'_eq_extractLsb' (by rfl),
      BitVec.extractLsb'_append_extractLsb'_eq_extractLsb' (by rfl)]
  | wrbit =>
    have hz' := (reserved_w t.cmd).mp hz
    have h7 : t.cmd.extractLsb' 1 7 = 0 := extractLsb'_eq_zero (by omega)
    rw [← Except.ok.inj h]
    simp only [Instr.fnField]
    rw [ofBool_getLsbD, ← h7, BitVec.extractLsb'_append_extractLsb'_eq_extractLsb' (by rfl)]
  | _ =>
    have hz' := (reserved_n t.cmd).mp hz
    have h8 : t.cmd.extractLsb' 0 8 = 0 := extractLsb'_eq_zero (by omega)
    rw [h8, ← Except.ok.inj h]
    rfl

/-- CMD of a transaction that decodes is spelled by its command: OPC, zeros and FN (R81). -/
theorem decode_commandWord (h : decode t = .ok i) : i.commandWord = t.cmd := by
  obtain ⟨hop, hz, hasm⟩ := decode_ok h
  unfold Instr.commandWord
  rw [Opcode.code_of_ofCode hop, assemble_fnField hasm hz, ← reserved_middle _ _ hz]
  unfold opcField
  rw [BitVec.extractLsb'_append_extractLsb'_eq_extractLsb' (by rfl),
    BitVec.extractLsb'_append_extractLsb'_eq_extractLsb' (by rfl)]
  exact BitVec.extractLsb'_eq_self

/-- Settles O2: the word field by field, and each operand as the decoder has read it. -/
theorem decodedCommandSpellsItsTransaction : Obligations.DecodedCommandSpellsItsTransaction := by
  intro t i h
  obtain ⟨-, -, hasm⟩ := decode_ok h
  exact ⟨assemble_wellFormed hasm, decode_commandWord h, assemble_opaOperand hasm, assemble_opnOperand hasm,
    fun hop => assemble_seqOperand_bytes (hop ▸ hasm), assemble_seqOperand_bits hasm⟩

/-! ## Which words decode -/

theorem Width.ofCode_isSome_iff (c : BitVec 2) : (Width.ofCode c).isSome = true ↔ c ≠ 3 := by
  revert c
  decide

/-- With the word's tests passed, only BIND's reserved WC is left to refuse (R83). -/
theorem assemble_isOk_iff (op : Opcode) (t : Transaction) :
    (∃ i, assemble op t = .ok i) ↔ (op = .bind → t.cmd.extractLsb' 0 2 ≠ 3) := by
  cases op with
  | bind =>
    rw [← Width.ofCode_isSome_iff]
    refine ⟨fun ⟨i, h⟩ _ => ?_, fun h => ?_⟩
    · obtain ⟨w, hw, -⟩ := assemble_bind_ok h
      rw [hw]
      rfl
    · obtain ⟨w, hw⟩ := Option.isSome_iff_exists.mp (h rfl)
      simp only [assemble, hw]
      exact ⟨_, rfl⟩
  | _ => exact ⟨fun _ => nofun, fun _ => ⟨_, rfl⟩⟩

theorem decode_isOk_iff (t : Transaction) :
    (∃ i, decode t = .ok i) ↔ ∃ op, Opcode.ofCode (opcField t.cmd) = some op ∧
      t.cmd &&& op.format.reservedMask = 0 ∧ (op = .bind → t.cmd.extractLsb' 0 2 ≠ 3) := by
  constructor
  · rintro ⟨i, h⟩
    obtain ⟨hop, hz, hasm⟩ := decode_ok h
    exact ⟨_, hop, hz, (assemble_isOk_iff _ t).mp ⟨i, hasm⟩⟩
  · rintro ⟨op, hop, hz, hwc⟩
    rw [decode_of_opcode hop hz]
    exact (assemble_isOk_iff op t).mpr hwc

/-- The OPC values of each format (R89). -/
theorem ofCode_format_b (c : BitVec 8) : (Opcode.ofCode c).map Opcode.format = some .b ↔ c.toNat = 0x01 := by
  revert c
  decide

theorem ofCode_format_w (c : BitVec 8) : (Opcode.ofCode c).map Opcode.format = some .w ↔ c.toNat = 0x20 := by
  revert c
  decide

theorem ofCode_format_n (c : BitVec 8) : (Opcode.ofCode c).map Opcode.format = some .n ↔
    (0x02 ≤ c.toNat ∧ c.toNat ≤ 0x06) ∨ (0x10 ≤ c.toNat ∧ c.toNat ≤ 0x17) ∨ (0x21 ≤ c.toNat ∧ c.toNat ≤ 0x25) := by
  revert c
  decide

theorem Opcode.format_eq_b_iff (op : Opcode) : op.format = .b ↔ op = .bind := by cases op <;> decide

theorem extractLsb'_two_ne_three_iff (c : Word) : c.extractLsb' 0 2 ≠ 3 ↔ c.toNat % 4 ≠ 3 :=
  not_congr (by rw [← BitVec.toNat_inj, BitVec.extractLsb'_toNat]; rfl)

/-- Settles O3: the opcode's format says which bits are reserved, and BIND alone has format B. -/
theorem decodeAcceptsExactlyTheOpcodeMap : Obligations.DecodeAcceptsExactlyTheOpcodeMap := by
  intro t
  rw [decode_isOk_iff, ← opcField_toNat, ← ofCode_format_b, ← ofCode_format_w, ← ofCode_format_n, ← reserved_b,
    ← reserved_w, ← reserved_n, ← extractLsb'_two_ne_three_iff]
  constructor
  · rintro ⟨op, hop, hz, hwc⟩
    rw [hop, Option.map_some]
    cases hf : op.format <;> rw [hf] at hz
    case b => exact .inl ⟨rfl, hz, hwc (op.format_eq_b_iff.mp hf)⟩
    case w => exact .inr (.inl ⟨rfl, hz⟩)
    case n => exact .inr (.inr ⟨rfl, hz⟩)
  · rintro (⟨hf, hz, hwc⟩ | ⟨hf, hz⟩ | ⟨hf, hz⟩) <;> obtain ⟨op, hop, hf⟩ := Option.map_eq_some_iff.mp hf
    · exact ⟨op, hop, hf ▸ hz, fun _ => hwc⟩
    all_goals exact ⟨op, hop, hf ▸ hz, fun hb => by rw [op.format_eq_b_iff.mpr hb] at hf; cases hf⟩

/-! ## Operands that a command does not use -/

/-- The operands that the command of an opcode uses are all the decoder reads besides the word (R88, R94). -/
theorem assemble_congr (hc : t.cmd = t'.cmd) (hopa : usesOpa op = true → t.opa = t'.opa)
    (hopn : usesOpn op = true → t.opn = t'.opn) (hseq : usesSeq op = true → t.seq = t'.seq) :
    assemble op t = assemble op t' := by
  cases op with
  | bind => simp only [assemble, hc, hopa rfl]
  | rdbits | rdbitss | rdbytes => simp only [assemble, hopn rfl]
  | collect | wrbits | wrbytes => simp only [assemble, hseq rfl]
  | wrbit => simp only [assemble, hc]
  | wrbitsv | wrbytesv => simp only [assemble, hopa rfl, hopn rfl]
  | wrbyte => simp only [assemble, hopa rfl]
  | _ => rfl

theorem decode_congr (hc : t.cmd = t'.cmd)
    (hu : ∀ o, Opcode.ofCode (opcField t.cmd) = some o →
      (usesOpa o = true → t.opa = t'.opa) ∧ (usesOpn o = true → t.opn = t'.opn) ∧
        (usesSeq o = true → t.seq = t'.seq)) : decode t = decode t' := by
  unfold decode
  rw [← hc]
  cases hop : Opcode.ofCode (opcField t.cmd) with
  | none => rfl
  | some op =>
    obtain ⟨hopa, hopn, hseq⟩ := hu op hop
    simp only [assemble_congr hc hopa hopn hseq]

end Sys2Proof

namespace Sys2Proof.Machine

variable {s : State}

@[simp] theorem State.setPending_setPending (p q : List HostAction) :
    (s.setPending p).setPending q = s.setPending q := rfl

/-- Of a command transaction a step looks at nothing but what it decodes to. -/
theorem step_congr {t t' : Transaction} (h : decode t = decode t') (rest : List HostAction) :
    step (s.setPending (.command t :: rest)) = step (s.setPending (.command t' :: rest)) := by
  unfold step
  simp only [State.setPending_pending, State.setPending_setPending, h]

/-- Settles O5: the operands in use decide what is decoded, and with that the step. -/
theorem unusedOperandsAreIgnored : Obligations.UnusedOperandsAreIgnored := by
  intro t t' hc hu
  have hdec := decode_congr hc hu
  exact ⟨hdec, fun s rest => step_congr hdec rest⟩

/-- Settles O6: the case of a step that takes a command transaction that decodes. -/
theorem stepRunsTheDecodedCommand : Obligations.StepRunsTheDecodedCommand :=
  fun _ _ _ _ => step_command

end Sys2Proof.Machine
end

section
/-! SUPPORT. The one response of a command (spec/30_encoding.md R80, R95, R96), and the commands that answer as another
does (R99). -/

namespace Sys2Proof.Machine

variable {s t : State}

/-! ## One response -/

/-- Settles O12: a command reaches its state without a response and then adds one. -/
theorem everyCommandAnswersOnce : Obligations.EveryCommandAnswersOnce := by
  intro i s
  obtain ⟨u, st, v, q, hr, hexec⟩ := exec_reaches i s
  exact ⟨_, ⟨st, v, q⟩, hexec, by rw [State.respond_responses, hr.responses]⟩

/-! ## The elements of RSEQ -/

/-- The elements that RSEQ may hold in a response to a command (R95, R96). -/
def LegalElement : Opcode → SeqElement → Prop
  | .rdbitss, e => e = .two 0b00 ∨ e = .two 0b01 ∨ e = .two 0b10
  | .rdbytes, e => ∃ x : BitVec 9, e = .nine x ∧ (x.toNat < 256 ∨ x = 0b100000000)
  | _, _ => False

theorem bitElement_legal (b : Option Bool) : LegalElement .rdbitss (bitElement b) := by
  match b with
  | some false => exact .inl rfl
  | some true => exact .inr (.inl rfl)
  | none => exact .inr (.inr rfl)

theorem byteElement_legal (b : Option Byte) : LegalElement .rdbytes (byteElement b) := by
  cases b with
  | none => exact ⟨_, rfl, .inr rfl⟩
  | some b =>
    refine ⟨_, rfl, .inl ?_⟩
    rw [BitVec.toNat_append]
    simpa using b.isLt

/-- An answer that ends with a response whose RSEQ holds only elements that `P` allows. -/
inductive RespondsWith (P : SeqElement → Prop) : State → Prop where
  | respond (u : State) (st : Status) (v : Word) (q : List SeqElement) (h : ∀ e ∈ q, P e) :
      RespondsWith P (u.respond st v q)

section Answer

variable {P : SeqElement → Prop}

/-- An empty RSEQ. -/
theorem RespondsWith.plain (u : State) (st : Status) (v : Word) : RespondsWith P (u.respond st v []) :=
  .respond u st v [] nofun

theorem RespondsWith.ite {c : Prop} [Decidable c] {a b : State} (ha : RespondsWith P a) (hb : RespondsWith P b) :
    RespondsWith P (if c then a else b) := by
  split
  · exact ha
  · exact hb

theorem respondWritten_respondsWith (s : State) (w : Option State) : RespondsWith P (respondWritten s w) := by
  cases w <;> exact .plain _ _ _

/-- RSEQ of the answer's response, once that response is known. -/
theorem RespondsWith.rseq {r : Response} (h : RespondsWith P t) (hr : t.responses = s.responses ++ [r]) :
    ∀ e ∈ r.rseq, P e := by
  obtain ⟨u, st, v, q, hq⟩ := h
  obtain ⟨-, hlast⟩ := List.append_inj' hr rfl
  rw [← List.singleton_inj.mp hlast]
  exact hq

end Answer

/-- What an admitted command answers: elements in RSEQ from RDBITSS and RDBYTES alone. -/
theorem exec_admitted_respondsWith {i : Instr} (h : s.admits i.opcode.cls = true) :
    ∃ t, exec i s = .next t ∧ RespondsWith (LegalElement i.opcode) t := by
  cases i with
  | bind mode wc len => exact ⟨_, exec_bind, .ite (.plain _ _ _) (.plain _ _ _)⟩
  | qbpe => exact ⟨_, exec_qbpe h, .plain _ _ _⟩
  | qbitpe => exact ⟨_, exec_qbitpe h, .plain _ _ _⟩
  | qrem => exact ⟨_, exec_qrem h, .plain _ _ _⟩
  | qaln => exact ⟨_, exec_qaln h, .plain _ _ _⟩
  | qbidx => exact ⟨_, exec_qbidx h, .plain _ _ _⟩
  | collect bits => exact ⟨_, exec_collect h, .plain _ _ _⟩
  | rdbit =>
    refine ⟨_, exec_rdbit h, ?_⟩
    cases readOneBit s <;> exact .plain _ _ _
  | rdbits n => exact ⟨_, exec_rdbits h, .ite (.plain _ _ _) (.ite (.plain _ _ _) (.plain _ _ _))⟩
  | rdbitss n =>
    exact ⟨_, exec_rdbitss h, .ite (.plain _ _ _)
      (.respond _ _ _ _ (List.forall_mem_map.mpr fun b _ => bitElement_legal b))⟩
  | rdbyte =>
    refine ⟨_, exec_rdbyte h, .ite (.plain _ _ _) ?_⟩
    cases readOneByte s <;> exact .plain _ _ _
  | rdbytes n =>
    exact ⟨_, exec_rdbytes h, .ite (.plain _ _ _) (.ite (.plain _ _ _)
      (.respond _ _ _ _ (List.forall_mem_map.mpr fun b _ => byteElement_legal b)))⟩
  | rdall => exact ⟨_, exec_rdall h, .plain _ _ _⟩
  | next =>
    refine ⟨_, exec_next h, ?_⟩
    cases readOneBit s <;> exact .plain _ _ _
  | wrbit bit => exact ⟨_, exec_wrbit h, respondWritten_respondsWith s _⟩
  | wrbits bits => exact ⟨_, exec_wrbits h, .plain _ _ _⟩
  | wrbitsv value n => exact ⟨_, exec_wrbitsv h, .ite (.plain _ _ _) (.plain _ _ _)⟩
  | wrbyte b =>
    exact ⟨_, exec_wrbyte h, .ite (.plain _ _ _) (.ite (.plain _ _ _) (respondWritten_respondsWith s _))⟩
  | wrbytes bytes => exact ⟨_, exec_wrbytes h, .ite (.plain _ _ _) (.plain _ _ _)⟩
  | wrbytesv value n => exact ⟨_, exec_wrbytesv h, .ite (.plain _ _ _) (.ite (.plain _ _ _) (.plain _ _ _))⟩

/-- Every command, admitted or refused, answers with elements that are legal for it. -/
theorem exec_respondsWith {i : Instr} (h : exec i s = .next t) : RespondsWith (LegalElement i.opcode) t := by
  cases hadm : s.admits i.opcode.cls with
  | false => exact Host.Outcome.next.inj ((exec_refused hadm).symm.trans h) ▸ .plain _ _ _
  | true =>
    obtain ⟨u, hu, hlegal⟩ := exec_admitted_respondsWith hadm
    exact Host.Outcome.next.inj (hu.symm.trans h) ▸ hlegal

theorem legalElement_none {op : Opcode} (h : op ≠ .rdbitss) (h' : op ≠ .rdbytes) (e : SeqElement) :
    ¬ LegalElement op e := by
  cases op with
  | rdbitss => exact absurd rfl h
  | rdbytes => exact absurd rfl h'
  | _ => exact id

/-- Settles O60: `LegalElement` read for each opcode. -/
theorem sequenceElementsAreLegal : Obligations.SequenceElementsAreLegal := by
  rintro i s t r ⟨hexec, hresp⟩
  have hlegal := (exec_respondsWith hexec).rseq hresp
  refine ⟨fun h h' => ?_, fun h => ?_, fun h => ?_⟩
  · exact List.eq_nil_iff_forall_not_mem.mpr fun e he => legalElement_none h h' e (hlegal e he)
  · rwa [h] at hlegal
  · rwa [h] at hlegal

/-! ## Commands that answer as another does -/

/-- NEXT with a bit left does what RDBIT does, and counts the bit (R153). -/
theorem exec_next_some (h : s.Live) (hmode : s.mode = .reader) (hlt : s.consumed < s.capacity) :
    exec .next s = .next (((s.moveTo (s.consumed + 1)).setIter (s.iter + 1)).respond .ok
      (bitWord (streamBit s.mem s.bufferId s.consumed)) []) := by
  rw [exec_next (admits_reader h.1 hmode), readOneBit_some h hlt]
  rfl

/-- RDBIT at exhaustion answers END with 0 (R141). -/
theorem exec_rdbit_exhausted (h : s.Live) (hmode : s.mode = .reader) (he : s.consumed = s.capacity) :
    exec .rdbit s = .next (s.respond .endOfData 0 []) := by
  rw [exec_rdbit (admits_reader h.1 hmode), readOneBit_exhausted h.2.1 he]

/-- NEXT at exhaustion answers END with ITER (R153). -/
theorem exec_next_exhausted (h : s.Live) (hmode : s.mode = .reader) (he : s.consumed = s.capacity) :
    exec .next s = .next (s.respond .endOfData s.iter []) := by
  rw [exec_next (admits_reader h.1 hmode), readOneBit_exhausted h.2.1 he]

/-- RDBITS with a count that is not negative and that remains (R142). -/
theorem exec_rdbits_within {n : Int} (h : s.Live) (hmode : s.mode = .reader) (hn : 0 ≤ n) (hle : n ≤ s.remaining) :
    exec (.rdbits n) s = .next (readFolded n.toNat s) := by
  rw [exec_rdbits (admits_reader h.1 hmode), if_neg (by omega), if_neg (by omega)]

/-- Settles O38: the count of RDALL is never negative and always remains, and both bit reads are one ReadOneBit. -/
theorem rdallAndNextHaveTheStatedEquivalents : Obligations.RdallAndNextHaveTheStatedEquivalents := by
  intro s h hmode
  refine ⟨?_, fun hlt => ⟨_, exec_rdbit_some h hmode hlt, exec_next_some h hmode hlt⟩,
    fun he => ⟨exec_rdbit_exhausted h hmode he, exec_next_exhausted h hmode he⟩⟩
  rw [exec_rdall (admits_reader h.1 hmode), exec_rdbits_within h hmode (remaining_nonneg h.2.1) le_rfl]

end Sys2Proof.Machine
end

section
/-! SUPPORT. BIND, the queries and COLLECT (spec/40_cursor.md R114 to R120, spec/41_reader.md R148), and the errors that
every command checks for before it does anything (spec/60_exceptions.md R227). -/

namespace Sys2Proof.Machine

variable {s t : State}

/-! ## BIND -/

/-- R33 at the start of a binding. -/
theorem rebind_remaining (m : Mode) (w : Width) (l : Word) : (s.rebind m w l).remaining = l.toNat * w.bits := by
  simp [State.remaining]

/-- A fresh cursor is legal whatever memory holds, so `rebind_inv` gives it from the empty memory. -/
theorem rebind_cursorInv (m : Mode) {w : Width} {l : Word} (hl : l.toNat * w.bits ≤ Config.maxBits) :
    (s.rebind m w l).CursorInv := by
  obtain ⟨-, hbound⟩ := rebind_inv (s := s.setMem []) m rfl hl
  exact (hbound rfl).1

theorem exec_bind_fits (m : Mode) {w : Width} {l : Word} (hl : l.toNat * w.bits ≤ Config.maxBits) :
    exec (.bind m w l) s = .next ((s.rebind m w l).respond .ok 0 []) := by
  rw [exec_bind, if_neg (Nat.not_lt.mpr hl)]

theorem exec_bind_too_long (m : Mode) {w : Width} {l : Word} (hl : Config.maxBits < l.toNat * w.bits) :
    exec (.bind m w l) s = .next (s.respond .invalidArgument 0 []) := by
  rw [exec_bind, if_pos hl]

/-- The word of a BIND as a number (R83). -/
theorem bindWord_eq (m : Mode) (w : Width) (l : Word) :
    BitVec.ofNat 32 (0x01000000 + (if m = .writer then 4 else 0) + w.code.toNat) = (Instr.bind m w l).commandWord := by
  cases m <;> cases w <;>
  · simp only [Instr.commandWord, Instr.fnField, Instr.opcode]
    decide

theorem decode_bindWord (m : Mode) (w : Width) (l n : Word) (q : List Byte) :
    decode ⟨(Instr.bind m w l).commandWord, l, n, q⟩ = .ok (.bind m w l) := by
  obtain ⟨hop, hz⟩ := commandWord_spells (.bind m w l)
  obtain ⟨hwc, hmode⟩ := commandWord_bind_fields m w l
  rw [decode_word _ .bind l n q hop hz]
  simp only [assemble, hwc, hmode, Width.ofCode_code, Mode.ofBit_bit]

/-- The step that takes a transaction which spells no command (R91). -/
theorem step_illegalWord {x : Transaction} {rest : List HostAction} (hp : s.pending = .command x :: rest)
    (hx : ¬ ∃ i, decode x = .ok i) : step s = .next ((s.setPending rest).raise .illegalCommand) := by
  unfold step
  simp only [hp]
  cases hd : decode x with
  | ok i => exact absurd ⟨i, hd⟩ hx
  | error r => exact illegalWord_eq r _

/-- Settles O21: BIND's one test is of the length, and a reserved field keeps the word from decoding. -/
theorem bindStartsAFreshCursor : Obligations.BindStartsAFreshCursor := by
  refine ⟨fun m w l s hl => ⟨exec_bind_fits m hl, fun t ht => ?_⟩, fun m w l s hl => exec_bind_too_long m hl,
    fun m w l n q => ?_, fun s x rest hp hop hbad => step_illegalWord hp fun hok => ?_⟩
  · rw [← Host.Outcome.next.inj ((exec_bind_fits m hl).symm.trans ht)]
    exact ⟨rebind_remaining (s := s) m w l, rebind_cursorInv (s := s) m hl⟩
  · rw [bindWord_eq m w l]
    exact decode_bindWord m w l n q
  · have hword := (decodeAcceptsExactlyTheOpcodeMap x).mp hok
    omega

/-! ## The queries and COLLECT -/

theorem State.Live.cursorInv (h : s.Live) : s.CursorInv := h.2.1

/-- A query and COLLECT answer from the state as it is, admitted or not. -/
theorem exec_readOnly {i : Instr} (hi : i.opcode.cls = .query ∨ i.opcode = .collect) :
    ∃ st v q, exec i s = .next (s.respond st v q) := by
  cases hadm : s.admits i.opcode.cls with
  | false => exact ⟨_, _, _, exec_refused hadm⟩
  | true =>
    cases i with
    | qbpe => exact ⟨_, _, _, exec_qbpe hadm⟩
    | qbitpe => exact ⟨_, _, _, exec_qbitpe hadm⟩
    | qrem => exact ⟨_, _, _, exec_qrem hadm⟩
    | qaln => exact ⟨_, _, _, exec_qaln hadm⟩
    | qbidx => exact ⟨_, _, _, exec_qbidx hadm⟩
    | collect bits => exact ⟨_, _, _, exec_collect hadm⟩
    | _ => simp [Instr.opcode, Opcode.cls] at hi

/-- Settles O50: BIND writes registers or nothing, and the others answer from the state as it is. -/
theorem bindQueriesAndCollectFrame : Obligations.BindQueriesAndCollectFrame := by
  refine ⟨fun m w l s t hexec => ?_, fun i s t hi hexec => ?_⟩
  · rw [← Host.Outcome.next.inj (exec_bind.symm.trans hexec)]
    split <;> exact ⟨fun _ => rfl, rfl, rfl, rfl, _, rfl⟩
  · obtain ⟨st, v, q, hro⟩ := exec_readOnly hi
    rw [← Host.Outcome.next.inj (hro.symm.trans hexec)]
    exact ⟨fun _ => rfl, rfl, _, rfl⟩

theorem exec_keeps_wc {i : Instr} (h : exec i s = .next t) (hi : i.opcode ≠ .bind) : t.wc = s.wc := by
  obtain ⟨u, st, v, q, hr, rfl⟩ := exec_reached h
  obtain ⟨-, -, hwc, -⟩ := hr.binding hi
  exact hwc

/-- A count within its bounds stands unchanged on RVAL (R113). -/
theorem toNat_ofInt_count {x : Int} (h0 : 0 ≤ x) (hx : x ≤ Config.maxBits) :
    ((BitVec.ofInt 32 x).toNat : Int) = x := by
  unfold Config.maxBits at hx
  rw [BitVec.toNat_ofInt]
  omega

theorem remaining_le_capacity (h : s.CursorInv) : s.remaining ≤ s.capacity := by
  rw [remaining_eq h]
  omega

theorem exhausted_iff_cidx_eq_len (h : s.CursorInv) : s.exhausted = true ↔ s.cidx = s.len := by
  have hnat := cursorInv_nat h
  rw [exhausted_iff, ← BitVec.toNat_inj]
  omega

/-- QREM's value is what remains, and it is 0 exactly at exhaustion (R117). -/
theorem remaining_word (h : s.Live) : ((BitVec.ofInt 32 s.remaining).toNat : Int) = s.remaining ∧
    (BitVec.ofInt 32 s.remaining = 0 ↔ s.cidx = s.len) := by
  obtain ⟨-, hI, hcap⟩ := h
  have hle := remaining_le_capacity hI
  have hv := toNat_ofInt_count (remaining_nonneg hI) (by omega)
  refine ⟨hv, ?_⟩
  rw [← exhausted_iff_cidx_eq_len hI, ← remaining_eq_zero_iff hI, ← BitVec.toNat_inj]
  change _ = 0 ↔ _
  omega

/-- QBIDX's value is the number of whole bytes consumed (R39, R119). -/
theorem byteIndex_word (h : s.Live) : (BitVec.ofInt 32 s.byteIndex).toNat = s.consumed / 8 := by
  obtain ⟨-, hI, hcap⟩ := h
  have hle := consumed_le_capacity hI
  have hv := toNat_ofInt_count (x := s.byteIndex) (by rw [byteIndex_eq hI]; omega) (by rw [byteIndex_eq hI]; omega)
  rw [byteIndex_eq hI] at hv ⊢
  exact_mod_cast hv

/-- `byteIndex` in cells and bytes of a cell (R34). -/
theorem consumed_div_eight (h : s.CursorInv) : s.consumed / 8 = s.cidx.toNat * s.wc.bytes + (s.boff.toNat - 1) / 8 := by
  obtain ⟨hlo, -⟩ := boff_bounds h
  have hidx := byteIndex_eq h
  unfold State.byteIndex at hidx
  push_cast at hidx
  omega

/-- Settles O22: each query's answer is its quantity's value under INV, and the capacity bounds what RVAL carries. -/
theorem queriesReportTheDerivedQuantities : Obligations.QueriesReportTheDerivedQuantities := by
  refine ⟨fun a n q =>
      ⟨decode_word _ .qbpe a n q (by decide) (by decide), decode_word _ .qbitpe a n q (by decide) (by decide),
        decode_word _ .qrem a n q (by decide) (by decide), decode_word _ .qaln a n q (by decide) (by decide),
        decode_word _ .qbidx a n q (by decide) (by decide)⟩,
    fun i s t hi hexec => exec_keeps_wc hexec hi, fun s hL => ?_⟩
  have hq := admits_query hL.1
  obtain ⟨hrem, hzero⟩ := remaining_word hL
  refine ⟨?_, ?_, ⟨_, exec_qrem hq, hrem, hzero⟩, ?_, _, exec_qbidx hq, ?_, byteIndex_word hL⟩
  · rw [exec_qbpe hq, bits_eq, Nat.mul_div_cancel_left _ (by decide)]
  · rw [exec_qbitpe hq, bits_eq]
  · rw [exec_qaln hq]
    simp only [aligned_iff hL.cursorInv]
  · rw [byteIndex_word hL, consumed_div_eight hL.cursorInv]

/-! ## The first error that applies -/

/-- An operand that is wrong by itself (R223). -/
theorem exec_malformed {i : Instr} (hadm : s.admits i.opcode.cls = true) (hm : malformed i = true) :
    exec i s = .next (s.respond .invalidArgument 0 []) := by
  cases i with
  | bind m w l => exact exec_bind_too_long m (of_decide_eq_true hm)
  | rdbits n => rw [exec_rdbits hadm, if_pos (of_decide_eq_true hm)]
  | rdbitss n => rw [exec_rdbitss hadm, if_pos (of_decide_eq_true hm)]
  | rdbytes n => rw [exec_rdbytes hadm, if_pos (of_decide_eq_true hm)]
  | wrbitsv value n => rw [exec_wrbitsv hadm, if_pos (of_decide_eq_true hm)]
  | wrbytesv value n => rw [exec_wrbytesv hadm, if_pos (of_decide_eq_true hm)]
  | wrbyte b => rw [exec_wrbyte hadm, if_pos (of_decide_eq_true hm)]
  | _ => cases hm

theorem aligned_eq_true_iff (s : State) : s.aligned = true ↔ s.remaining % 8 = 0 := beq_iff_eq

/-- A byte command at an offset that is no byte boundary (R221). -/
theorem exec_misaligned {i : Instr} (hadm : s.admits i.opcode.cls = true) (hm : malformed i = false)
    (hn : needsAlignment i = true) (hal : s.remaining % 8 ≠ 0) :
    exec i s = .next (s.respond .misalignedAccess 0 []) := by
  have ha : (!s.aligned) = true := by
    rw [Bool.not_eq_true', ← Bool.not_eq_true, aligned_eq_true_iff]
    exact hal
  cases i with
  | rdbyte => rw [exec_rdbyte hadm, if_pos ha]
  | rdbytes n => rw [exec_rdbytes hadm, if_neg (of_decide_eq_false hm), if_pos ha]
  | wrbyte b => rw [exec_wrbyte hadm, if_neg (of_decide_eq_false hm), if_pos ha]
  | wrbytes bytes => rw [exec_wrbytes hadm, if_pos ha]
  | wrbytesv value n => rw [exec_wrbytesv hadm, if_neg (of_decide_eq_false hm), if_pos ha]
  | _ => cases hn

/-- RDBITS of more bits than remain (R224). -/
theorem exec_lacksData {i : Instr} (hadm : s.admits i.opcode.cls = true) (hm : malformed i = false)
    (hl : lacksData s i = true) : exec i s = .next (s.respond .insufficientData 0 []) := by
  cases i with
  | rdbits n => rw [exec_rdbits hadm, if_neg (of_decide_eq_false hm), if_pos (of_decide_eq_true hl)]
  | _ => cases hl

/-- A command answers the first error that applies, and changes nothing (R227, R228). -/
theorem exec_firstError {i : Instr} {e : Status} (h : firstError i s = some e) :
    exec i s = .next (s.respond e 0 []) := by
  unfold firstError at h
  split at h
  · next hadm => exact Option.some.inj h ▸ exec_refused hadm
  · next hadm =>
    rw [Bool.not_eq_false] at hadm
    split at h
    · next hm => exact Option.some.inj h ▸ exec_malformed hadm hm
    · next hm =>
      rw [Bool.not_eq_true] at hm
      split at h
      · next hal => exact Option.some.inj h ▸ exec_misaligned hadm hm hal.1 hal.2
      · split at h
        · next hl => exact Option.some.inj h ▸ exec_lacksData hadm hm hl
        · cases h

/-- What has been checked of a command that executes (R227). -/
theorem firstError_none {i : Instr} (h : firstError i s = none) :
    s.admits i.opcode.cls = true ∧ malformed i = false ∧ (needsAlignment i = true → s.aligned = true) ∧
      lacksData s i = false := by
  unfold firstError at h
  simp only [ite_eq_iff, reduceCtorEq, and_false, false_or] at h
  simpa [aligned_eq_true_iff] using h

/-! ## Runs that change nothing -/

/-- A query or a command that ends with an error answers and does nothing more. -/
theorem exec_silent {i : Instr} (h : i.opcode.cls = .query ∨ firstError i s ≠ none) (hexec : exec i s = .next t) :
    ∃ rs, t = s.setResponses rs := by
  have hanswer : ∃ st v q, exec i s = .next (s.respond st v q) := by
    rcases h with hq | he
    · exact exec_readOnly (.inl hq)
    · obtain ⟨e, he⟩ := Option.ne_none_iff_exists'.mp he
      exact ⟨e, 0, [], exec_firstError he⟩
  obtain ⟨st, v, q, hu⟩ := hanswer
  exact ⟨_, Host.Outcome.next.inj (hexec.symm.trans hu)⟩

/-- No error depends on the responses returned. -/
theorem firstError_setResponses (i : Instr) (s : State) (rs : List Response) :
    firstError i (s.setResponses rs) = firstError i s := rfl

theorem execAll_cons {i : Instr} {l : List Instr} (h : execAll (i :: l) s = .next t) :
    ∃ u, exec i s = .next u ∧ execAll l u = .next t := by
  unfold execAll at h
  split at h
  · next u hu => exact ⟨u, hu, h⟩
  all_goals cases h

theorem execAll_silent {l : List Instr} (hl : ∀ i ∈ l, i.opcode.cls = .query ∨ firstError i s ≠ none)
    (h : execAll l s = .next t) : ∃ rs, t = s.setResponses rs := by
  induction l generalizing s with
  | nil => exact ⟨s.responses, (Host.Outcome.next.inj h).symm⟩
  | cons i l ih =>
    obtain ⟨hi, hl⟩ := List.forall_mem_cons.mp hl
    obtain ⟨u, hu, hrest⟩ := execAll_cons h
    obtain ⟨rs, rfl⟩ := exec_silent hi hu
    exact ih (s := s.setResponses rs) hl hrest

/-- Settles O23: the run changes only the responses returned, which no command reads. -/
theorem queriesAreIdempotent : Obligations.QueriesAreIdempotent := by
  intro l s t hl hrun
  obtain ⟨rs, rfl⟩ := execAll_silent hl hrun
  refine ⟨rfl, fun i u v r r' _ ⟨hu, hur⟩ ⟨hv, hvr⟩ => ?_⟩
  have hsame := Host.Outcome.next.inj (hv.symm.trans (earlierResponsesAreNeverRead i s u rs r hu hur))
  rw [hsame] at hvr
  exact (List.singleton_inj.mp (List.append_cancel_left hvr)).symm

end Sys2Proof.Machine
end

section
/-! SUPPORT. How far a command moves the cursor (spec/40_cursor.md R113, R121), from every legal cursor and whatever
memory holds. -/

namespace Sys2Proof.Machine

variable {s t u : State} {k : Nat}

/-! ## Moving within the bound buffer -/

/-- `t` is a live block over as many bits as `s`, its cursor `k` bits further on. -/
structure Moved (s : State) (k : Nat) (t : State) : Prop where
  live : t.Live
  capacity : t.capacity = s.capacity
  consumed : t.consumed = s.consumed + k

theorem Moved.refl (h : s.Live) : Moved s 0 s := ⟨h, rfl, rfl⟩

theorem Moved.trans {j : Nat} (h : Moved s k t) (h' : Moved t j u) : Moved s (k + j) u :=
  ⟨h'.live, h'.capacity.trans h.capacity, by rw [h'.consumed, h.consumed, Nat.add_assoc]⟩

theorem Moved.respond (h : Moved s k t) (st : Status) (v : Word) (q : List SeqElement) : Moved s k (t.respond st v q) :=
  ⟨h.live, h.capacity, h.consumed⟩

theorem Moved.setIter (h : Moved s k t) (n : Word) : Moved s k (t.setIter n) := ⟨h.live, h.capacity, h.consumed⟩

/-- Every bit that the cursor passes is a bit less that remains. -/
theorem Moved.remaining (h : Moved s k t) (hI : s.CursorInv) : t.remaining = s.remaining - k := by
  have hcap := h.capacity
  have hcons := h.consumed
  rw [remaining_eq h.live.cursorInv, remaining_eq hI]
  omega

theorem moveTo_moved {p : Nat} (h : s.Live) (m : Memory) (hp : p = s.consumed + k) (hk : k ≤ s.remaining.toNat) :
    Moved s k ((s.moveTo p).setMem m) := by
  have hle := consumed_le_capacity h.cursorInv
  rw [remaining_toNat h.cursorInv] at hk
  have hpc : p ≤ s.capacity := by omega
  exact ⟨setMem_live (moveTo_live h hpc), rfl, (moveTo_consumed h.2.2 hpc).trans hp⟩

theorem aligned_iff_consumed (h : s.CursorInv) : s.aligned = true ↔ s.consumed % 8 = 0 := by
  rw [aligned_eq h, decide_eq_true_iff]

/-! ## The reader's steps -/

theorem readBitSeq_moved (n : Nat) (h : s.Live) : Moved s (min n s.remaining.toNat) (readBitSeq n s).2 := by
  have hle := consumed_le_capacity h.cursorInv
  have hrem := remaining_toNat h.cursorInv
  rw [readBitSeq_eq n h]
  exact moveTo_moved h s.mem (by omega) (Nat.min_le_right _ _)

theorem readByteSeq_moved (n : Nat) (h : s.Live) (ha : s.consumed % 8 = 0) :
    Moved s (min (8 * n) s.remaining.toNat) (readByteSeq n s).2 := by
  have hle := consumed_le_capacity h.cursorInv
  have hrem := remaining_toNat h.cursorInv
  rw [readByteSeq_eq n h ha]
  exact moveTo_moved h s.mem (by omega) (Nat.min_le_right _ _)

/-- A single read is a sequence of one, at exhaustion too. -/
theorem readOneBit_moved (h : s.Live) : Moved s (min 1 s.remaining.toNat) ((readOneBit s).elim s Prod.snd) := by
  have hseq := readBitSeq_moved 1 h
  unfold readBitSeq at hseq
  cases hr : readOneBit s <;> rw [hr] at hseq <;> exact hseq

theorem readOneByte_moved (h : s.Live) (ha : s.consumed % 8 = 0) :
    Moved s (min 8 s.remaining.toNat) ((readOneByte s).elim s Prod.snd) := by
  have hseq := readByteSeq_moved 1 h ha
  unfold readByteSeq at hseq
  cases hr : readOneByte s <;> rw [hr] at hseq <;> exact hseq

/-! ## The writer's steps -/

theorem remaining_toNat_of_exhausted (h : s.CursorInv) (he : s.exhausted = true) : s.remaining.toNat = 0 := by
  rw [(remaining_eq_zero_iff h).mpr he]
  rfl

/-- A store with room: where the cursor goes does not depend on memory. -/
theorem cellOr_advance_moved {n : Nat} (h : s.Live) (v : Word) (hx : ¬ s.exhausted = true)
    (hn : n = 1 ∨ (n = 8 ∧ s.consumed % 8 = 0)) : Moved s n ((s.cellOr s.cidx.toNat v).advance n) := by
  have hle := consumed_le_capacity h.cursorInv
  have hrem := remaining_toNat h.cursorInv
  have hc8 := capacity_mod_eight s
  have hlt : s.consumed < s.capacity := by
    rw [exhausted_eq h.cursorInv, decide_eq_true_iff] at hx
    omega
  rw [cellOr_eq, advance_setMem, advance_eq h hlt hn]
  exact moveTo_moved h _ rfl (by omega)

theorem writeOneBit_some_moved {bit : Bool} (h : s.Live) (hw : writeOneBit bit s = some t) : Moved s 1 t := by
  unfold writeOneBit at hw
  split at hw
  · cases hw
  · next hx => exact Option.some.inj hw ▸ cellOr_advance_moved h _ hx (.inl rfl)

theorem writeOneByte_some_moved {b : Byte} (h : s.Live) (ha : s.consumed % 8 = 0) (hw : writeOneByte b s = some t) :
    Moved s 8 t := by
  unfold writeOneByte at hw
  split at hw
  · cases hw
  · next hx => exact Option.some.inj hw ▸ cellOr_advance_moved h _ hx (.inr ⟨rfl, ha⟩)

theorem writeOneBit_none_exhausted {bit : Bool} (hw : writeOneBit bit s = none) : s.exhausted = true := by
  unfold writeOneBit at hw
  split at hw
  · assumption
  · cases hw

theorem writeOneByte_none_exhausted {b : Byte} (hw : writeOneByte b s = none) : s.exhausted = true := by
  unfold writeOneByte at hw
  split at hw
  · assumption
  · cases hw

/-- `writeBitSeq_eq` for the cursor alone, which asks nothing of memory. -/
theorem writeBitSeq_moved (bits : List Bool) (h : s.Live) :
    Moved s (min bits.length s.remaining.toNat) (writeBitSeq bits s).2 := by
  induction bits generalizing s with
  | nil =>
    rw [List.length_nil, Nat.zero_min]
    exact .refl h
  | cons b bits ih =>
    unfold writeBitSeq
    cases hw : writeOneBit b s with
    | none =>
      rw [remaining_toNat_of_exhausted h.cursorInv (writeOneBit_none_exhausted hw), Nat.min_zero]
      exact .refl h
    | some t =>
      have hm := writeOneBit_some_moved h hw
      have hrem := hm.remaining h.cursorInv
      have h0 := remaining_nonneg hm.live.cursorInv
      rw [List.length_cons,
        show min (bits.length + 1) s.remaining.toNat = 1 + min bits.length t.remaining.toNat by omega]
      exact hm.trans (ih hm.live)

theorem writeByteSeq_moved (bytes : List Byte) (h : s.Live) (ha : s.consumed % 8 = 0) :
    Moved s (min (8 * bytes.length) s.remaining.toNat) (writeByteSeq bytes s).2 := by
  induction bytes generalizing s with
  | nil =>
    rw [List.length_nil, Nat.mul_zero, Nat.zero_min]
    exact .refl h
  | cons b bytes ih =>
    unfold writeByteSeq
    cases hw : writeOneByte b s with
    | none =>
      rw [remaining_toNat_of_exhausted h.cursorInv (writeOneByte_none_exhausted hw), Nat.min_zero]
      exact .refl h
    | some t =>
      have hm := writeOneByte_some_moved h ha hw
      have hcons := hm.consumed
      have hrem := hm.remaining h.cursorInv
      have h0 := remaining_nonneg hm.live.cursorInv
      rw [List.length_cons,
        show min (8 * (bytes.length + 1)) s.remaining.toNat = 8 + min (8 * bytes.length) t.remaining.toNat by omega]
      exact hm.trans (ih hm.live (by omega))

theorem writeOneBit_moved (bit : Bool) (h : s.Live) :
    Moved s (min 1 s.remaining.toNat) ((writeOneBit bit s).getD s) := by
  have hseq := writeBitSeq_moved [bit] h
  unfold writeBitSeq at hseq
  cases hw : writeOneBit bit s <;> rw [hw] at hseq <;> exact hseq

theorem writeOneByte_moved (b : Byte) (h : s.Live) (ha : s.consumed % 8 = 0) :
    Moved s (min 8 s.remaining.toNat) ((writeOneByte b s).getD s) := by
  have hseq := writeByteSeq_moved [b] h ha
  unfold writeByteSeq at hseq
  cases hw : writeOneByte b s <;> rw [hw] at hseq <;> exact hseq

theorem respondWritten_moved {w : Option State} (h : Moved s k (w.getD s)) : Moved s k (respondWritten s w) := by
  cases w <;> exact h.respond _ _ _

/-! ## Every command -/

/-- A command that executes consumes what it asks for, as far as bits remain (R121). -/
theorem exec_executed_moved {i : Instr} (h : s.Live) (hi : i.opcode ≠ .bind) (he : firstError i s = none) :
    ∃ t, exec i s = .next t ∧ Moved s (min (bitsRequested s i) s.remaining.toNat) t := by
  obtain ⟨hadm, hm, hal, hl⟩ := firstError_none he
  have hcons : needsAlignment i = true → s.consumed % 8 = 0 :=
    fun hn => (aligned_iff_consumed h.cursorInv).mp (hal hn)
  have hnone (st : Status) (v : Word) (q : List SeqElement) :
      Moved s (min 0 s.remaining.toNat) (s.respond st v q) := by
    rw [Nat.zero_min]
    exact (Moved.refl h).respond st v q
  cases i with
  | bind mode wc len => exact absurd rfl hi
  | qbpe => exact ⟨_, exec_qbpe hadm, hnone _ _ _⟩
  | qbitpe => exact ⟨_, exec_qbitpe hadm, hnone _ _ _⟩
  | qrem => exact ⟨_, exec_qrem hadm, hnone _ _ _⟩
  | qaln => exact ⟨_, exec_qaln hadm, hnone _ _ _⟩
  | qbidx => exact ⟨_, exec_qbidx hadm, hnone _ _ _⟩
  | collect bits => exact ⟨_, exec_collect hadm, hnone _ _ _⟩
  | rdbit =>
    refine ⟨_, exec_rdbit hadm, ?_⟩
    have hmv := readOneBit_moved h
    cases hr : readOneBit s <;> rw [hr] at hmv <;> exact hmv.respond _ _ _
  | rdbits n =>
    rw [exec_rdbits hadm, if_neg (of_decide_eq_false hm), if_neg (of_decide_eq_false hl)]
    exact ⟨_, rfl, (readBitSeq_moved n.toNat h).respond _ _ _⟩
  | rdbitss n =>
    rw [exec_rdbitss hadm, if_neg (of_decide_eq_false hm)]
    exact ⟨_, rfl, (readBitSeq_moved n.toNat h).respond _ _ _⟩
  | rdbyte =>
    rw [exec_rdbyte hadm, hal rfl]
    refine ⟨_, rfl, ?_⟩
    have hmv := readOneByte_moved h (hcons rfl)
    cases hr : readOneByte s <;> rw [hr] at hmv <;> exact hmv.respond _ _ _
  | rdbytes n =>
    rw [exec_rdbytes hadm, if_neg (of_decide_eq_false hm), hal rfl]
    exact ⟨_, rfl, (readByteSeq_moved n.toNat h (hcons rfl)).respond _ _ _⟩
  | rdall => exact ⟨_, exec_rdall hadm, (readBitSeq_moved s.remaining.toNat h).respond _ _ _⟩
  | next =>
    refine ⟨_, exec_next hadm, ?_⟩
    have hmv := readOneBit_moved h
    cases hr : readOneBit s <;> rw [hr] at hmv
    · exact hmv.respond _ _ _
    · exact (hmv.setIter _).respond _ _ _
  | wrbit bit => exact ⟨_, exec_wrbit hadm, respondWritten_moved (writeOneBit_moved bit h)⟩
  | wrbits bits =>
    refine ⟨_, exec_wrbits hadm, ?_⟩
    have hmv := writeBitSeq_moved (bits.take (min bits.length s.remaining.toNat)) h
    rw [List.length_take_of_le (Nat.min_le_left _ _), Nat.min_assoc, Nat.min_self] at hmv
    exact hmv.respond _ _ _
  | wrbitsv value n =>
    rw [exec_wrbitsv hadm, if_neg (of_decide_eq_false hm)]
    have hmv := writeBitSeq_moved (valueBits value n.toNat) h
    rw [valueBits_length] at hmv
    exact ⟨_, rfl, hmv.respond _ _ _⟩
  | wrbyte b =>
    rw [exec_wrbyte hadm, if_neg (of_decide_eq_false hm), hal rfl]
    exact ⟨_, rfl, respondWritten_moved (writeOneByte_moved _ h (hcons rfl))⟩
  | wrbytes bytes =>
    rw [exec_wrbytes hadm, hal rfl]
    have hmv := writeByteSeq_moved (bytes.take (min bytes.length (s.remaining / 8).toNat)) h (hcons rfl)
    have h8 := (aligned_eq_true_iff s).mp (hal rfl)
    rw [List.length_take_of_le (Nat.min_le_left _ _),
      show min (8 * min bytes.length (s.remaining / 8).toNat) s.remaining.toNat =
        min (8 * bytes.length) s.remaining.toNat by omega] at hmv
    exact ⟨_, rfl, hmv.respond _ _ _⟩
  | wrbytesv value n =>
    rw [exec_wrbytesv hadm, if_neg (of_decide_eq_false hm), hal rfl]
    have hmv := writeByteSeq_moved (valueBytes value n.toNat) h (hcons rfl)
    rw [valueBytes_length] at hmv
    exact ⟨_, rfl, hmv.respond _ _ _⟩

/-- A command that ends with an error consumes nothing, and any other but BIND consumes as R121 says. -/
theorem exec_moved {i : Instr} (h : s.Live) (hi : i.opcode ≠ .bind) (hexec : exec i s = .next t) :
    Moved s (bitsConsumed i s) t := by
  unfold bitsConsumed
  cases he : firstError i s with
  | some e =>
    rw [← Host.Outcome.next.inj ((exec_firstError he).symm.trans hexec)]
    exact (Moved.refl h).respond e 0 []
  | none =>
    obtain ⟨u, hu, hmv⟩ := exec_executed_moved h hi he
    rw [← Host.Outcome.next.inj (hu.symm.trans hexec)]
    exact hmv

theorem bitsConsumed_le_remaining (i : Instr) (h : s.CursorInv) : (bitsConsumed i s : Int) ≤ s.remaining := by
  have h0 := remaining_nonneg h
  unfold bitsConsumed
  split <;> omega

/-- Settles O28: a command passes the bits it consumes, and BIND answers OK only where it starts at the first. -/
theorem remainingFallsByTheBitsConsumed : Obligations.RemainingFallsByTheBitsConsumed := by
  refine ⟨fun i s t h hi hexec => ?_, fun m w l s t r h hr => ?_⟩
  · have hmv := exec_moved h hi hexec
    have hrem := hmv.remaining h.cursorInv
    exact ⟨hrem, remaining_nonneg hmv.live.cursorInv, by omega⟩
  · rw [bind_ok h hr]
    exact rebind_remaining (s := s) m w l

/-! ## Counts fit their ports -/

theorem capacity_eq_eight_mul (s : State) : s.capacity = 8 * (s.len.toNat * s.wc.bytes) :=
  s.bufferId.bits_eq_eight_mul

theorem len_le_bytes (s : State) : s.len.toNat ≤ s.len.toNat * s.wc.bytes :=
  Nat.le_mul_of_pos_right _ (bytes_pos s.wc)

/-- Settles O29: every count is at most the capacity or an eighth of it, and a command consumes at most what remains. -/
theorem everyCountFitsItsPort : Obligations.EveryCountFitsItsPort := by
  intro s hinv hb
  obtain ⟨hI, hcap, hiter⟩ := hinv.2 hb
  have hle := consumed_le_capacity hI
  have h8 := capacity_eq_eight_mul s
  have hlen := len_le_bytes s
  have hidx := byteIndex_eq hI
  have hcidx := cursorInv_nat hI
  unfold Config.maxBits at hcap
  refine ⟨remaining_le_capacity hI, by omega, ?_, by omega, by omega, by omega, hiter.trans hle,
    fun i t hi hexec => ⟨_, bitsConsumed_le_remaining i hI, (exec_moved (hinv.live hb) hi hexec).consumed⟩⟩
  rw [hidx]
  exact_mod_cast (by omega : s.consumed / 8 ≤ s.len.toNat * s.wc.bytes)

end Sys2Proof.Machine
end

section
/-! SUPPORT. The fold that RVAL carries (spec/41_reader.md R148, R149): the bits as a word of their own length, most
significant first, cut to 32 bits. -/

namespace Sys2Proof.Machine

/-- Shifting bits in one by one under what was there. -/
theorem foldl_shift_in (bits : List Bool) (r : Nat) :
    bits.foldl (fun r b => 2 * r + (if b then 1 else 0)) r =
      r * 2 ^ bits.length + (BitVec.ofBoolListBE bits).toNat := by
  induction bits generalizing r with
  | nil => exact (Nat.mul_one r).symm
  | cons b bits ih =>
    have hcons : (BitVec.ofBoolListBE (b :: bits)).toNat =
        b.toNat * 2 ^ bits.length + (BitVec.ofBoolListBE bits).toNat := by
      rw [← Nat.shiftLeft_eq]
      exact BitVec.toNat_cons'
    rw [List.foldl_cons, ih, hcons, List.length_cons]
    cases b <;> simp <;> ring

/-- A shift of R149 in exact arithmetic: a residue may be taken before it or after it. -/
theorem shift_in_mod (width r : Nat) (b : Bool) :
    ((r % 2 ^ width) <<< 1 ||| b.toNat) % 2 ^ width = (2 * r + (if b then 1 else 0)) % 2 ^ width := by
  have hb : b.toNat = if b then 1 else 0 := by cases b <;> rfl
  rw [← Nat.shiftLeft_add_eq_or_of_lt (show b.toNat < 2 ^ 1 from b.toNat_lt), Nat.shiftLeft_eq, hb, Nat.pow_one,
    Nat.mul_comm, Nat.add_mod, Nat.mul_mod_mod, ← Nat.add_mod]

/-- Reducing at every shift or once at the end is the same (R149). -/
theorem foldAt_eq_mod (width : Nat) (bits : List Bool) :
    foldAt width bits = bits.foldl (fun r b => 2 * r + (if b then 1 else 0)) 0 % 2 ^ width := by
  unfold foldAt
  refine List.foldl_hom (init := 0) (· % 2 ^ width) ?_
  exact shift_in_mod width

/-- The fold as COLLECT's rule writes it (R148). -/
theorem fold_eq_ofNat (bits : List Bool) :
    fold bits = BitVec.ofNat 32 (bits.foldl (fun r b => 2 * r + (if b then 1 else 0)) 0) := by
  unfold fold
  rw [foldAt_eq_mod]
  exact BitVec.eq_of_toNat_eq (by simp [Config.valueWidth])

/-- The fold is the word of the bits, cut to 32. -/
theorem fold_eq_setWidth (bits : List Bool) : fold bits = (BitVec.ofBoolListBE bits).setWidth 32 := by
  rw [fold_eq_ofNat, foldl_shift_in, Nat.zero_mul, Nat.zero_add, BitVec.ofNat_toNat]

/-- Each bit of the fold is the element at its weight. -/
theorem fold_getLsbD (bits : List Bool) (i : Nat) :
    (fold bits).getLsbD i =
      (decide (i < 32) && (decide (i < bits.length) && bits.getD (bits.length - 1 - i) false)) := by
  rw [fold_eq_setWidth, BitVec.getLsbD_setWidth, BitVec.getLsbD_ofBoolListBE]

/-- Bits above the lowest 32 leave the fold. -/
theorem fold_drop {bits : List Bool} (h : 32 < bits.length) : fold (bits.drop (bits.length - 32)) = fold bits := by
  apply BitVec.eq_of_getLsbD_eq
  intro i hi
  rw [fold_getLsbD, fold_getLsbD, List.length_drop, decide_eq_true (show i < bits.length by omega),
    decide_eq_true (show i < bits.length - (bits.length - 32) by omega)]
  simp only [List.getD_eq_getElem?_getD, List.getElem?_drop]
  rw [show bits.length - 32 + (bits.length - (bits.length - 32) - 1 - i) = bits.length - 1 - i by omega]

/-- Settles O34: the fold's bits are those of the sequence, by weight. -/
theorem foldPacksMostSignificantFirst : Obligations.FoldPacksMostSignificantFirst := by
  refine ⟨fun bits hlen j hj => ?_, fun bits _ => ?_, fun bits hlen => (fold_drop hlen).symm⟩
  · rw [fold_getLsbD, decide_eq_true (by omega), decide_eq_true (by omega), Bool.true_and, Bool.true_and,
      show bits.length - 1 - (bits.length - 1 - j) = j by omega]
  · rw [fold_eq_setWidth, BitVec.toNat_setWidth]
    exact (Nat.mod_le _ _).trans_lt (BitVec.ofBoolListBE bits).isLt

/-- Settles O33: COLLECT answers the fold of its operand from the state as it is. -/
theorem collectFoldsItsSequence : Obligations.CollectFoldsItsSequence := by
  refine ⟨fun a n bits => ?_, fun bits s hb hmode => ?_⟩
  · rw [decode_word _ .collect a n _ (by decide) (by decide)]
    exact congrArg (fun l => Except.ok (Instr.collect l)) (map_laneBit_map_bitLane bits)
  · rw [exec_collect (admits_reader hb hmode), fold_eq_ofNat]

end Sys2Proof.Machine
end

section
/-! SUPPORT. What each reader command answers over the buffer's streams (spec/41_reader.md R141 to R147, R153), and what
none of them changes (R155). -/

namespace Sys2Proof.Machine

variable {s t : State}

/-! ## One bit, and a folded count of bits -/

/-- Settles O30: RDBIT is one ReadOneBit. -/
theorem rdbitReadsTheNextBit : Obligations.RdbitReadsTheNextBit :=
  ⟨fun a n q => decode_word _ .rdbit a n q (by decide) (by decide),
    fun _ h hmode => ⟨exec_rdbit_some h hmode, exec_rdbit_exhausted h hmode⟩⟩

/-- RDBITS of bits that remain answers the fold of the stream's next bits (R142). -/
theorem exec_rdbits_fold {n : Int} (h : s.Live) (hmode : s.mode = .reader) (hn : 0 ≤ n) (hle : n ≤ s.remaining) :
    exec (.rdbits n) s = .next ((s.moveTo (s.consumed + n.toNat)).respond .ok
      (fold (streamBits s.mem s.bufferId s.consumed n.toNat)) []) := by
  have hrem := remaining_toNat h.cursorInv
  rw [exec_rdbits_within h hmode hn hle, readFolded_eq n.toNat h (by omega)]

/-- Settles O31: the two tests of RDBITS, and then its fold. -/
theorem rdbitsFoldsTheNextBits : Obligations.RdbitsFoldsTheNextBits := by
  refine ⟨fun a n q => decode_word _ .rdbits a n q (by decide) (by decide), fun n s h hmode => ?_⟩
  have hadm := admits_reader h.1 hmode
  have h0 := remaining_nonneg h.cursorInv
  refine ⟨fun hn => ?_, fun hlt => ?_, exec_rdbits_fold h hmode⟩
  · rw [exec_rdbits hadm, if_pos hn]
  · rw [exec_rdbits hadm, if_neg (by omega), if_pos hlt]

/-- Settles O37: RDALL folds what remains, and a cursor moved to the capacity is exhausted. -/
theorem rdallFoldsEveryRemainingBit : Obligations.RdallFoldsEveryRemainingBit := by
  refine ⟨fun a n q => decode_word _ .rdall a n q (by decide) (by decide), fun s h hmode => ⟨?_, ?_⟩⟩
  · have hle := consumed_le_capacity h.cursorInv
    rw [exec_rdall (admits_reader h.1 hmode), remaining_toNat h.cursorInv, readFolded_eq _ h le_rfl,
      Nat.add_sub_cancel' hle]
  · have hcap := h.2.2
    rw [exhausted_eq (moveTo_cursorInv hcap le_rfl), moveTo_consumed hcap le_rfl]
    exact decide_eq_true rfl

/-! ## Sequences padded with END -/

/-- Element `k` of a sequence of `n` reads of which the first `r` find data (R143, R146). -/
theorem padded_getElem? {α β : Type} (f : Nat → α) (g : Option α → β) {n r k : Nat} (hk : k < n) :
    ((((List.range (min n r)).map f).map some ++ List.replicate (n - r) none).map g)[k]? =
      some (g (if k < r then some (f k) else none)) := by
  rw [List.getElem?_map, List.getElem?_append, List.length_map, List.length_map, List.length_range]
  by_cases hr : k < r
  · rw [if_pos (by omega), if_pos hr, List.getElem?_map, List.getElem?_map, List.getElem?_range (by omega)]
    rfl
  · rw [if_neg (by omega), if_neg hr, List.getElem?_replicate, if_pos (by omega)]
    rfl

/-- The two codes of a bit and the code of END, as R96 lists them. -/
theorem bitElement_ite (c : Prop) [Decidable c] (b : Bool) :
    bitElement (if c then some b else none) = .two (if c then (if b then 0b01 else 0b00) else 0b10) := by
  split
  · cases b <;> rfl
  · rfl

theorem byteElement_ite (c : Prop) [Decidable c] (b : Byte) :
    byteElement (if c then some b else none) = .nine (if c then b.setWidth 9 else 0b100000000) := by
  split
  · exact congrArg SeqElement.nine (BitVec.setWidth_eq_append (by decide)).symm
  · rfl

/-- Settles O32: as many ReadOneBit steps as the count says. -/
theorem rdbitssPadsWithEnd : Obligations.RdbitssPadsWithEnd := by
  refine ⟨fun a n q => decode_word _ .rdbitss a n q (by decide) (by decide), fun n s h hmode => ?_⟩
  have hexec := exec_rdbitss (n := n) (admits_reader h.1 hmode)
  refine ⟨fun hn => by rw [hexec, if_pos hn],
    fun hn => ⟨(readBitSeq n.toNat s).1.map bitElement, ?_, ?_, fun k hk => ?_⟩⟩
  · rw [hexec, if_neg (by omega), readBitSeq_eq n.toNat h]
  · rw [List.length_map, readBitSeq_length]
  · have hroom : k < s.capacity - s.consumed ↔ s.consumed + k < s.capacity := by omega
    rw [readBitSeq_eq n.toNat h]
    unfold streamBits
    rw [padded_getElem? _ _ hk, bitElement_ite]
    simp only [hroom]

/-! ## Bytes -/

theorem misaligned_of_consumed (h : s.CursorInv) (ha : s.consumed % 8 ≠ 0) : (!s.aligned) = true := by
  rw [aligned_eq h, decide_eq_false ha]
  rfl

theorem not_misaligned_of_consumed (h : s.CursorInv) (ha : s.consumed % 8 = 0) : ¬ (!s.aligned) = true := by
  rw [aligned_eq h, decide_eq_true ha]
  exact Bool.false_ne_true

/-- Settles O35: the test of alignment, which an exhausted cursor passes, and then one ReadOneByte. -/
theorem rdbyteReadsTheNextByte : Obligations.RdbyteReadsTheNextByte := by
  refine ⟨fun a n q => decode_word _ .rdbyte a n q (by decide) (by decide), fun s h hmode => ?_⟩
  have hexec := exec_rdbyte (admits_reader h.1 hmode)
  refine ⟨fun ha => ?_, fun ha hlt => ?_, fun he => ?_⟩
  · rw [hexec, if_pos (misaligned_of_consumed h.cursorInv ha)]
  · rw [hexec, if_neg (not_misaligned_of_consumed h.cursorInv ha), readOneByte_some h hlt ha]
  · have ha : s.consumed % 8 = 0 := he ▸ capacity_mod_eight s
    rw [hexec, if_neg (not_misaligned_of_consumed h.cursorInv ha), readOneByte_exhausted h.cursorInv he]

/-- Settles O36: the two tests of RDBYTES, and then as many ReadOneByte steps as the count says. -/
theorem rdbytesPadsWithEnd : Obligations.RdbytesPadsWithEnd := by
  refine ⟨fun a n q => decode_word _ .rdbytes a n q (by decide) (by decide), fun n s h hmode => ?_⟩
  have hexec := exec_rdbytes (n := n) (admits_reader h.1 hmode)
  refine ⟨fun hn => by rw [hexec, if_pos hn], fun hn ha => ?_,
    fun hn ha => ⟨(readByteSeq n.toNat s).1.map byteElement, ?_, ?_, fun k hk => ?_⟩⟩
  · rw [hexec, if_neg (by omega), if_pos (misaligned_of_consumed h.cursorInv ha)]
  · rw [hexec, if_neg (by omega), if_neg (not_misaligned_of_consumed h.cursorInv ha), readByteSeq_eq n.toNat h ha]
  · rw [List.length_map, readByteSeq_length]
  · have hc8 := capacity_mod_eight s
    have hroom : k < (s.capacity - s.consumed) / 8 ↔ s.consumed + 8 * k < s.capacity := by omega
    rw [readByteSeq_eq n.toNat h ha]
    unfold streamBytes
    rw [padded_getElem? _ _ hk, byteElement_ite]
    simp only [hroom]

/-! ## The frame of the reader commands -/

/-- A reader command's steps move the cursor, and NEXT may count in ITER. -/
theorem Reaches.frame_of_reader {i : Instr} {u : State} (h : Reaches i s u) (hi : i.opcode.cls = .reader) :
    u = { s with cidx := u.cidx, boff := u.boff, iter := u.iter } := by
  cases h with
  | same => rfl
  | bind mode wc len _ hb =>
    rw [hb] at hi
    cases hi
  | reads h _ => rw [h]
  | counts h n _ =>
    unfold SameButCursor at h
    rw [h]
    rfl
  | stores _ hc =>
    rw [hc] at hi
    cases hi

/-- Only NEXT and BIND write ITER. -/
theorem Reaches.iter {i : Instr} {u : State} (h : Reaches i s u) (hn : i.opcode ≠ .next) (hb : i.opcode ≠ .bind) :
    u.iter = s.iter := by
  cases h with
  | same => rfl
  | bind mode wc len _ hi => exact absurd (congrArg Instr.opcode hi) hb
  | reads h _ => rw [h]
  | counts _ _ hi => exact absurd (congrArg Instr.opcode hi) hn
  | stores h _ => rw [h.same]

theorem exec_keeps_iter {i : Instr} (h : exec i s = .next t) (hn : i.opcode ≠ .next) (hb : i.opcode ≠ .bind) :
    t.iter = s.iter := by
  obtain ⟨u, st, v, q, hr, rfl⟩ := exec_reached h
  exact hr.iter hn hb

/-- Settles O42: of what a command can do a reader command does only what moves the cursor. -/
theorem readerCommandsChangeOnlyTheCursor : Obligations.ReaderCommandsChangeOnlyTheCursor := by
  intro i s t hi hexec
  have hb : i.opcode ≠ .bind := fun hb => by
    rw [hb] at hi
    cases hi
  obtain ⟨u, st, v, q, hr, rfl⟩ := exec_reached hexec
  have hframe := hr.frame_of_reader hi
  have hmem : u.mem = s.mem := by rw [hframe]
  refine ⟨fun a => congrArg (Memory.read · a) hmem, hmem, ?_, fun hn => hr.iter hn hb, ⟨st, v, q⟩, ?_⟩
  · rw [hframe]
    rfl
  · rw [State.respond_responses, hr.responses]

/-- Settles O39: NEXT is one ReadOneBit that counts. -/
theorem nextReadsAndCountsOneBit : Obligations.NextReadsAndCountsOneBit :=
  ⟨fun a n q => decode_word _ .next a n q (by decide) (by decide),
    fun _ h hmode => ⟨exec_next_some h hmode, exec_next_exhausted h hmode⟩, fun _ _ _ => exec_keeps_iter⟩

end Sys2Proof.Machine
end

section
/-! SUPPORT. Runs of reader commands: an exhausted reader stays so with its ITER until a BIND (spec/41_reader.md R154),
and successive RDBITs deliver the bits that RDBITS folds (R150). -/

namespace Sys2Proof.Machine

variable {s t : State}

/-! ## After exhaustion -/

/-- A live reader with nothing left to read, its NEXTs counted to `n`. -/
structure SpentReader (n : Word) (s : State) : Prop where
  live : s.Live
  mode : s.mode = .reader
  spent : s.consumed = s.capacity
  iter : s.iter = n

theorem eq_next_of_opcode {i : Instr} (h : i.opcode = .next) : i = .next := by
  cases i with
  | next => rfl
  | _ => cases h

/-- Nothing remains to be consumed, and NEXT counts only what it delivers. -/
theorem SpentReader.of_exec {n : Word} {i : Instr} (h : SpentReader n s) (hi : i.opcode ≠ .bind)
    (hexec : exec i s = .next t) : SpentReader n t := by
  have hmoved := exec_moved h.live hi hexec
  have hnone : bitsConsumed i s = 0 := by
    have hle := bitsConsumed_le_remaining i h.live.cursorInv
    rw [remaining_eq h.live.cursorInv, h.spent] at hle
    omega
  refine ⟨hmoved.live, ?_, by rw [hmoved.consumed, hmoved.capacity, hnone, Nat.add_zero, h.spent], ?_⟩
  · obtain ⟨u, st, v, q, hr, rfl⟩ := exec_reached hexec
    obtain ⟨-, hmode, -⟩ := hr.binding hi
    exact hmode.trans h.mode
  · by_cases hn : i.opcode = .next
    · rw [eq_next_of_opcode hn, exec_next_exhausted h.live h.mode h.spent] at hexec
      exact Host.Outcome.next.inj hexec ▸ h.iter
    · exact (exec_keeps_iter hexec hn hi).trans h.iter

theorem SpentReader.of_execAll {n : Word} {l : List Instr} (h : SpentReader n s) (hl : ∀ i ∈ l, i.opcode ≠ .bind)
    (hrun : execAll l s = .next t) : SpentReader n t := by
  induction l generalizing s with
  | nil => exact Host.Outcome.next.inj hrun ▸ h
  | cons i l ih =>
    obtain ⟨hi, hl⟩ := List.forall_mem_cons.mp hl
    obtain ⟨u, hu, hrest⟩ := execAll_cons hrun
    exact ih (h.of_exec hi hu) hl hrest

/-- Settles O40: the run leaves the reader spent, with the ITER it had. -/
theorem iterationIsNotRestartable : Obligations.IterationIsNotRestartable := by
  intro l s t h hmode he hl hrun
  have ht := SpentReader.of_execAll ⟨h, hmode, he, rfl⟩ hl hrun
  rw [exec_next_exhausted ht.live ht.mode ht.spent, ht.iter]

/-! ## Successive RDBITs -/

/-- The response to an RDBIT that delivers `b` (R141). -/
def bitResponse (b : Bool) : Response := ⟨.ok, bitWord b, []⟩

theorem bitResponse_bit (b : Bool) : (bitResponse b).rval.getLsbD 0 = b := by cases b <;> rfl

/-- RDBITs of bits that remain deliver the stream's bits in order. -/
theorem execAll_replicate_rdbit {n : Nat} (h : s.Live) (hmode : s.mode = .reader) (hn : s.consumed + n ≤ s.capacity) :
    execAll (List.replicate n .rdbit) s = .next ((s.moveTo (s.consumed + n)).setResponses
      (s.responses ++ (streamBits s.mem s.bufferId s.consumed n).map bitResponse)) := by
  induction n generalizing s with
  | zero =>
    rw [Nat.add_zero, moveTo_consumed_self h.cursorInv, streamBits_zero, List.map_nil, List.append_nil]
    rfl
  | succ n ih =>
    have hle : s.consumed + 1 ≤ s.capacity := by omega
    have hm := moveTo_consumed h.2.2 hle
    have hrest := ih (s := (s.moveTo (s.consumed + 1)).respond .ok (bitWord (streamBit s.mem s.bufferId s.consumed)) [])
      (moveTo_live (s := s) h hle) hmode
      (by rw [State.respond_consumed, hm, State.respond_capacity, State.moveTo_capacity]; omega)
    rw [List.replicate_succ, execAll, exec_rdbit_some h hmode hle]
    refine hrest.trans ?_
    rw [State.respond_consumed, hm, streamBits_succ, List.map_cons, List.append_cons, Nat.add_assoc, Nat.add_comm 1 n]
    rfl

/-- Settles O41: both fold the same `n` bits of the stream. -/
theorem rdbitsAgreesWithCollectOfRdbit : Obligations.RdbitsAgreesWithCollectOfRdbit := by
  intro n s t h hmode hn hrun
  have hroom : s.consumed + n ≤ s.capacity := by
    rw [remaining_eq h.cursorInv] at hn
    omega
  have ht := Host.Outcome.next.inj (hrun.symm.trans (execAll_replicate_rdbit h hmode hroom))
  subst ht
  have hbits : ((streamBits s.mem s.bufferId s.consumed n).map bitResponse).map (fun x => x.rval.getLsbD 0) =
      streamBits s.mem s.bufferId s.consumed n := by
    rw [List.map_map]
    exact List.map_id'' bitResponse_bit _
  refine ⟨_, rfl, by rw [List.length_map, streamBits_length], _, _,
    ⟨.ok, fold (streamBits s.mem s.bufferId s.consumed n), []⟩,
    ⟨exec_rdbits_fold h hmode (Int.natCast_nonneg n) hn, rfl⟩, ⟨exec_collect (admits_reader h.1 hmode), ?_⟩⟩
  rw [hbits]
  rfl

end Sys2Proof.Machine
end

section
/-! SUPPORT. What the writer unit never looks at: the buffers' contents (spec/42_writer.md R191). Where it moves the
cursor and what it answers are the same over any other memory. -/

namespace Sys2Proof.Machine

/-- A store over other contents: the same cursor, and some other contents after it. -/
theorem cellOr_advance_setMem (s : State) (m : Memory) (i : Nat) (v : Word) (n : Nat) :
    ∃ m', ((s.setMem m).cellOr i v).advance n = ((s.cellOr i v).advance n).setMem m' := by
  refine ⟨writeCell m s.bufferId i (readCell m s.bufferId i ||| v), ?_⟩
  rw [cellOr_eq, cellOr_eq, advance_setMem, advance_setMem, advance_setMem]
  rfl

theorem writeOneBit_setMem (bit : Bool) (s : State) (m : Memory) :
    ∃ m', writeOneBit bit (s.setMem m) = (writeOneBit bit s).map (·.setMem m') := by
  obtain ⟨m', hm'⟩ := cellOr_advance_setMem s m s.cidx.toNat (bitWord bit <<< s.bitShift) 1
  refine ⟨m', ?_⟩
  unfold writeOneBit
  rw [apply_ite (Option.map _)]
  exact congrArg (fun u => if s.exhausted then none else some u) hm'

theorem writeOneByte_setMem (b : Byte) (s : State) (m : Memory) :
    ∃ m', writeOneByte b (s.setMem m) = (writeOneByte b s).map (·.setMem m') := by
  obtain ⟨m', hm'⟩ := cellOr_advance_setMem s m s.cidx.toNat (b.setWidth 32 <<< s.byteShift) 8
  refine ⟨m', ?_⟩
  unfold writeOneByte
  rw [apply_ite (Option.map _)]
  exact congrArg (fun u => if s.exhausted then none else some u) hm'

theorem writeBitSeq_setMem (bits : List Bool) (s : State) (m : Memory) :
    ∃ m', writeBitSeq bits (s.setMem m) = ((writeBitSeq bits s).1, (writeBitSeq bits s).2.setMem m') := by
  induction bits generalizing s m with
  | nil => exact ⟨m, rfl⟩
  | cons b bits ih =>
    obtain ⟨m1, hm1⟩ := writeOneBit_setMem b s m
    rw [writeBitSeq, writeBitSeq, hm1]
    cases writeOneBit b s with
    | none => exact ⟨m, rfl⟩
    | some t =>
      obtain ⟨m2, hm2⟩ := ih t m1
      exact ⟨m2, by simp only [Option.map_some, hm2]⟩

theorem writeByteSeq_setMem (bytes : List Byte) (s : State) (m : Memory) :
    ∃ m', writeByteSeq bytes (s.setMem m) = ((writeByteSeq bytes s).1, (writeByteSeq bytes s).2.setMem m') := by
  induction bytes generalizing s m with
  | nil => exact ⟨m, rfl⟩
  | cons b bytes ih =>
    obtain ⟨m1, hm1⟩ := writeOneByte_setMem b s m
    rw [writeByteSeq, writeByteSeq, hm1]
    cases writeOneByte b s with
    | none => exact ⟨m, rfl⟩
    | some t =>
      obtain ⟨m2, hm2⟩ := ih t m1
      exact ⟨m2, by simp only [Option.map_some, hm2]⟩

/-- A single write answers as a sequence of one does, with room or without. -/
theorem respondWritten_writeOneBit (bit : Bool) (s : State) :
    respondWritten s (writeOneBit bit s) = respondCount (writeBitSeq [bit] s) := by
  unfold writeBitSeq
  cases writeOneBit bit s <;> rfl

theorem respondWritten_writeOneByte (b : Byte) (s : State) :
    respondWritten s (writeOneByte b s) = respondCount (writeByteSeq [b] s) := by
  unfold writeByteSeq
  cases writeOneByte b s <;> rfl

/-- `t'` is `t` over other contents of the buffers. -/
def SameButMem (t t' : State) : Prop := ∃ m, t' = t.setMem m

theorem SameButMem.ite {c : Prop} [Decidable c] {a a' b b' : State} (ha : SameButMem a a') (hb : SameButMem b b') :
    SameButMem (if c then a else b) (if c then a' else b') := by
  split
  · exact ha
  · exact hb

theorem respond_sameButMem (s : State) (m : Memory) (st : Status) (v : Word) (q : List SeqElement) :
    SameButMem (s.respond st v q) ((s.setMem m).respond st v q) := ⟨m, rfl⟩

/-- Answering the count written, or a count known before, after a sequence over other contents. -/
theorem respondCount_sameButMem {r r' : Nat × State} (h : ∃ m', r' = (r.1, r.2.setMem m')) :
    SameButMem (respondCount r) (respondCount r') := by
  obtain ⟨m', rfl⟩ := h
  exact respond_sameButMem _ _ _ _ _

theorem respond_snd_sameButMem {r r' : Nat × State} (h : ∃ m', r' = (r.1, r.2.setMem m')) (v : Word) :
    SameButMem (r.2.respond .ok v []) (r'.2.respond .ok v []) := by
  obtain ⟨m', rfl⟩ := h
  exact respond_sameButMem _ _ _ _ _

/-- What an admitted writer command answers, over the contents it finds and over others. -/
theorem exec_writer_sameButMem {i : Instr} (hi : i.opcode.cls = .writer) (hadm : s.admits .writer = true) (m : Memory) :
    ∃ t t', exec i s = .next t ∧ exec i (s.setMem m) = .next t' ∧ SameButMem t t' := by
  have hraise (st : Status) : SameButMem (s.respond st 0 []) ((s.setMem m).respond st 0 []) :=
    respond_sameButMem s m st 0 []
  cases i with
  | wrbit bit =>
    refine ⟨_, _, exec_wrbit hadm, exec_wrbit hadm, ?_⟩
    rw [respondWritten_writeOneBit, respondWritten_writeOneBit]
    exact respondCount_sameButMem (writeBitSeq_setMem [bit] s m)
  | wrbits bits => exact ⟨_, _, exec_wrbits hadm, exec_wrbits hadm, respond_snd_sameButMem (writeBitSeq_setMem _ s m) _⟩
  | wrbitsv value n =>
    exact ⟨_, _, exec_wrbitsv hadm, exec_wrbitsv hadm,
      .ite (hraise _) (respondCount_sameButMem (writeBitSeq_setMem _ s m))⟩
  | wrbyte b =>
    refine ⟨_, _, exec_wrbyte hadm, exec_wrbyte hadm, .ite (hraise _) (.ite (hraise _) ?_)⟩
    rw [respondWritten_writeOneByte, respondWritten_writeOneByte]
    exact respondCount_sameButMem (writeByteSeq_setMem [_] s m)
  | wrbytes bytes =>
    exact ⟨_, _, exec_wrbytes hadm, exec_wrbytes hadm,
      .ite (hraise _) (respond_snd_sameButMem (writeByteSeq_setMem _ s m) _)⟩
  | wrbytesv value n =>
    exact ⟨_, _, exec_wrbytesv hadm, exec_wrbytesv hadm,
      .ite (hraise _) (.ite (hraise _) (respondCount_sameButMem (writeByteSeq_setMem _ s m)))⟩
  | _ => cases hi

/-- Settles O55: a refused command answers from the state as it is, and an admitted one does the same over any memory. -/
theorem writersNeverReportContents : Obligations.WritersNeverReportContents := by
  intro i s t m hi hexec
  cases hadm : s.admits i.opcode.cls with
  | false =>
    rw [← Host.Outcome.next.inj ((exec_refused hadm).symm.trans hexec)]
    exact ⟨m, exec_refused (s := s.setMem m) hadm⟩
  | true =>
    obtain ⟨u, u', hu, hu', m', rfl⟩ := exec_writer_sameButMem hi (hi ▸ hadm) m
    rw [← Host.Outcome.next.inj (hu.symm.trans hexec)]
    exact ⟨m', hu'⟩

end Sys2Proof.Machine
end

section
/-! SUPPORT. What each writer command that passes its tests does (spec/42_writer.md R181 to R187): it counts the steps
of one sequence of single writes, of bits or of bytes. -/

namespace Sys2Proof.Machine

variable {s : State} {i : Instr}

/-! ## Sequences of single writes -/

theorem writeBitSeq_exhausted (bits : List Bool) (h : s.CursorInv) (he : s.consumed = s.capacity) :
    writeBitSeq bits s = (0, s) := by
  cases bits with
  | nil => rfl
  | cons b bits => rw [writeBitSeq, writeOneBit_exhausted b h he]

theorem writeByteSeq_exhausted (bytes : List Byte) (h : s.CursorInv) (he : s.consumed = s.capacity) :
    writeByteSeq bytes s = (0, s) := by
  cases bytes with
  | nil => rfl
  | cons b bytes => rw [writeByteSeq, writeOneByte_exhausted b h he]

/-- The count of `writeBitSeq_eq`, which does not depend on memory, so that of the empty memory gives it. -/
theorem writeBitSeq_count (bits : List Bool) (h : s.Live) :
    (writeBitSeq bits s).1 = min bits.length (s.capacity - s.consumed) := by
  obtain ⟨m, hm⟩ := writeBitSeq_setMem bits s []
  obtain ⟨m', hm', -⟩ := writeBitSeq_eq bits (setMem_live (m := []) h) rfl
  exact congrArg Prod.fst (hm.symm.trans hm')

theorem writeByteSeq_count (bytes : List Byte) (h : s.Live) (ha : s.consumed % 8 = 0) :
    (writeByteSeq bytes s).1 = min bytes.length ((s.capacity - s.consumed) / 8) := by
  obtain ⟨m, hm⟩ := writeByteSeq_setMem bytes s []
  obtain ⟨m', hm', -⟩ := writeByteSeq_eq bytes (setMem_live (m := []) h) rfl ha
  exact congrArg Prod.fst (hm.symm.trans hm')

/-- Truncating a sequence to what remains changes nothing: writing stops there by itself (R182). -/
theorem writeBitSeq_take {n : Nat} (bits : List Bool) (h : s.Live) (hn : min bits.length s.remaining.toNat ≤ n) :
    writeBitSeq (bits.take n) s = writeBitSeq bits s := by
  induction bits generalizing s n with
  | nil => rw [List.take_nil]
  | cons b bits ih =>
    rw [List.length_cons] at hn
    cases n with
    | zero =>
      have hle := consumed_le_capacity h.cursorInv
      rw [remaining_toNat h.cursorInv] at hn
      rw [writeBitSeq_exhausted (b :: bits) h.cursorInv (by omega)]
      rfl
    | succ n =>
      rw [List.take_succ_cons, writeBitSeq, writeBitSeq]
      cases hw : writeOneBit b s with
      | none => rfl
      | some t =>
        have hm := writeOneBit_some_moved h hw
        have hrem := hm.remaining h.cursorInv
        simp only [ih hm.live (n := n) (by omega)]

/-- The same of bytes (R186). -/
theorem writeByteSeq_take {n : Nat} (bytes : List Byte) (h : s.Live) (ha : s.consumed % 8 = 0)
    (hn : min bytes.length (s.remaining / 8).toNat ≤ n) :
    writeByteSeq (bytes.take n) s = writeByteSeq bytes s := by
  induction bytes generalizing s n with
  | nil => rw [List.take_nil]
  | cons b bytes ih =>
    rw [List.length_cons] at hn
    cases n with
    | zero =>
      have hle := consumed_le_capacity h.cursorInv
      have hc8 := capacity_mod_eight s
      rw [remaining_eq h.cursorInv] at hn
      rw [writeByteSeq_exhausted (b :: bytes) h.cursorInv (by omega)]
      rfl
    | succ n =>
      rw [List.take_succ_cons, writeByteSeq, writeByteSeq]
      cases hw : writeOneByte b s with
      | none => rfl
      | some t =>
        have hm := writeOneByte_some_moved h ha hw
        have hrem := hm.remaining h.cursorInv
        have hcons := hm.consumed
        simp only [ih hm.live (n := n) (by omega) (by omega)]

/-! ## Every writer command that executes is one such sequence -/

/-- A live writer at whose cursor the writer command `i` passes every test (R227). -/
structure WriterExecutes (i : Instr) (s : State) : Prop where
  writer : i.opcode.cls = .writer
  live : s.Live
  mode : s.mode = .writer
  wellFormed : malformed i = false
  aligned : needsAlignment i = true → s.consumed % 8 = 0

/-- The bytes that a byte command of the writer asks to write, in order (R185, R186, R187). -/
def requestedBytes : Instr → List Byte
  | .wrbyte b => [b.setWidth 8]
  | .wrbytes bytes => bytes
  | .wrbytesv value n => valueBytes value n.toNat
  | _ => []

theorem requestedBits_eq_flatMap (hi : i.opcode.cls = .writer) (hn : needsAlignment i = true) :
    requestedBits i = (requestedBytes i).flatMap byteBits := by
  cases i with
  | wrbyte b => exact (List.append_nil _).symm
  | wrbytes | wrbytesv => rfl
  | _ => simp [needsAlignment, Instr.opcode, Opcode.cls] at hi hn

theorem WriterExecutes.exec_bits (h : WriterExecutes i s) (hn : needsAlignment i = false) :
    exec i s = .next (respondCount (writeBitSeq (requestedBits i) s)) := by
  obtain ⟨hi, hL, hmode, hm, -⟩ := h
  have hadm := admits_writer hL.1 hmode
  cases i with
  | wrbit bit =>
    rw [exec_wrbit hadm, respondWritten_writeOneBit]
    rfl
  | wrbits bits =>
    rw [exec_wrbits hadm, writeBitSeq_take bits hL le_rfl, remaining_toNat hL.cursorInv, ← writeBitSeq_count bits hL]
    rfl
  | wrbitsv value n =>
    rw [exec_wrbitsv hadm, if_neg (of_decide_eq_false hm)]
    rfl
  | _ => simp [needsAlignment, Instr.opcode, Opcode.cls] at hi hn

theorem WriterExecutes.exec_bytes (h : WriterExecutes i s) (hn : needsAlignment i = true) :
    exec i s = .next (respondCount (writeByteSeq (requestedBytes i) s)) := by
  obtain ⟨hi, hL, hmode, hm, ha⟩ := h
  have hadm := admits_writer hL.1 hmode
  have hal := not_misaligned_of_consumed hL.cursorInv (ha hn)
  cases i with
  | wrbyte b =>
    rw [exec_wrbyte hadm, if_neg (of_decide_eq_false hm), if_neg hal, respondWritten_writeOneByte]
    rfl
  | wrbytes bytes =>
    have hroom : (s.remaining / 8).toNat = (s.capacity - s.consumed) / 8 := by
      have hle := consumed_le_capacity hL.cursorInv
      rw [remaining_eq hL.cursorInv]
      omega
    rw [exec_wrbytes hadm, if_neg hal, writeByteSeq_take bytes hL (ha hn) le_rfl, hroom,
      ← writeByteSeq_count bytes hL (ha hn)]
    rfl
  | wrbytesv value n =>
    rw [exec_wrbytesv hadm, if_neg (of_decide_eq_false hm), if_neg hal]
    rfl
  | _ => simp [needsAlignment, Instr.opcode, Opcode.cls] at hi hn

/-- With the cursor exhausted there is nothing to write and 0 to answer, whatever memory holds (R189). -/
theorem WriterExecutes.exec_exhausted (h : WriterExecutes i s) (he : s.consumed = s.capacity) :
    exec i s = .next (s.respond .ok 0 []) := by
  have hI := h.live.cursorInv
  cases hn : needsAlignment i with
  | false =>
    rw [h.exec_bits hn, writeBitSeq_exhausted _ hI he]
    rfl
  | true =>
    rw [h.exec_bytes hn, writeByteSeq_exhausted _ hI he]
    rfl

/-- What a bit command writes and answers (R188). -/
theorem WriterExecutes.exec_bits_eq (h : WriterExecutes i s) (hm : s.mem.wf = true) (hn : needsAlignment i = false) :
    ∃ m, exec i s = .next (((s.moveTo (s.consumed + min (requestedBits i).length (s.capacity - s.consumed))).setMem
        m).respond .ok (BitVec.ofNat 32 (min (requestedBits i).length (s.capacity - s.consumed))) []) ∧
      m.wf = true ∧ OrsBits s.mem m s.bufferId s.consumed ((requestedBits i).take (s.capacity - s.consumed)) := by
  obtain ⟨m, heq, hrest⟩ := writeBitSeq_eq (requestedBits i) h.live hm
  exact ⟨m, by rw [h.exec_bits hn, heq]; rfl, hrest⟩

/-- What a byte command writes and answers (R188). -/
theorem WriterExecutes.exec_bytes_eq (h : WriterExecutes i s) (hm : s.mem.wf = true) (hn : needsAlignment i = true) :
    ∃ m, exec i s = .next (((s.moveTo (s.consumed +
        8 * min (requestedBytes i).length ((s.capacity - s.consumed) / 8))).setMem m).respond .ok
        (BitVec.ofNat 32 (min (requestedBytes i).length ((s.capacity - s.consumed) / 8))) []) ∧
      m.wf = true ∧ OrsBits s.mem m s.bufferId s.consumed
        (((requestedBytes i).take ((s.capacity - s.consumed) / 8)).flatMap byteBits) := by
  obtain ⟨m, heq, hrest⟩ := writeByteSeq_eq (requestedBytes i) h.live hm (h.aligned hn)
  exact ⟨m, by rw [h.exec_bytes hn, heq]; rfl, hrest⟩

/-! ## The bit commands -/

/-- Settles O43: WRBIT is one WriteOneBit. -/
theorem wrbitWritesOneBit : Obligations.WrbitWritesOneBit := by
  refine ⟨fun a n q => ⟨?_, ?_⟩, fun bit s hL hm hmode => ⟨fun hlt => ?_, ?_⟩⟩
  · rw [decode_word 0x20000000 .wrbit a n q (by decide) (by decide)]
    exact congrArg (Except.ok ∘ Instr.wrbit) (commandWord_wrbit_bit false)
  · rw [decode_word 0x20000001 .wrbit a n q (by decide) (by decide)]
    exact congrArg (Except.ok ∘ Instr.wrbit) (commandWord_wrbit_bit true)
  · obtain ⟨m, hw, -, hors⟩ := writeOneBit_some bit hL hm hlt
    refine ⟨m, ?_, hors⟩
    rw [exec_wrbit (admits_writer hL.1 hmode), hw]
    rfl
  · exact WriterExecutes.exec_exhausted ⟨rfl, hL, hmode, rfl, nofun⟩

/-- Settles O44: the operand is the sequence written. -/
theorem wrbitsWritesWhatFits : Obligations.WrbitsWritesWhatFits := by
  refine ⟨fun a n bits => ?_, fun bits s hL hm hmode => ?_⟩
  · rw [decode_word _ .wrbits a n _ (by decide) (by decide)]
    exact congrArg (fun l => Except.ok (Instr.wrbits l)) (map_laneBit_map_bitLane bits)
  · have hx : WriterExecutes (.wrbits bits) s := ⟨rfl, hL, hmode, rfl, nofun⟩
    obtain ⟨m, hexec, -, hors⟩ := hx.exec_bits_eq hm rfl
    exact ⟨m, hexec, hors⟩

/-- Settles O45: the sequence written is the value's bits, by `valueBits_eq`. -/
theorem wrbitsvWritesTheLowBits : Obligations.WrbitsvWritesTheLowBits := by
  refine ⟨fun a n q => decode_word _ .wrbitsv a n q (by decide) (by decide), fun value n s hL hm hmode =>
    ⟨fun hn => exec_malformed (admits_writer hL.1 hmode) (decide_eq_true hn), fun hn => ?_⟩⟩
  have hx : WriterExecutes (.wrbitsv value n) s := ⟨rfl, hL, hmode, decide_eq_false (by omega), nofun⟩
  obtain ⟨m, hexec, -, hors⟩ := hx.exec_bits_eq hm rfl
  simp only [requestedBits, valueBits_length] at hexec
  simp only [requestedBits, valueBits_eq] at hors
  exact ⟨m, hexec, hors⟩

/-! ## The byte commands -/

/-- A well-formed byte command away from a byte boundary (R221). -/
theorem exec_writer_misaligned (h : s.Live) (hmode : s.mode = .writer) (hi : i.opcode.cls = .writer)
    (hm : malformed i = false) (hn : needsAlignment i = true) (ha : s.consumed % 8 ≠ 0) :
    exec i s = .next (s.respond .misalignedAccess 0 []) := by
  refine exec_misaligned (hi ▸ admits_writer h.1 hmode) hm hn fun hal => ha ?_
  exact (aligned_iff_consumed h.cursorInv).mp ((aligned_eq_true_iff s).mpr hal)

/-- Settles O46: the two tests of WRBYTE, and then one WriteOneByte. -/
theorem wrbyteWritesOneByte : Obligations.WrbyteWritesOneByte := by
  refine ⟨fun a n q => decode_word _ .wrbyte a n q (by decide) (by decide), fun b s hL hm hmode => ?_⟩
  have hadm := admits_writer hL.1 hmode
  have hwf (hb : b.toNat < 256) : malformed (.wrbyte b) = false := decide_eq_false (by omega)
  refine ⟨fun hb => exec_malformed hadm (decide_eq_true hb),
    fun hb => exec_writer_misaligned hL hmode rfl (hwf hb) rfl, fun hb ha hlt => ?_, fun hb he => ?_⟩
  · obtain ⟨m, hw, -, hors⟩ := writeOneByte_some (b.setWidth 8) hL hm hlt ha
    refine ⟨m, ?_, hors⟩
    rw [exec_wrbyte hadm, if_neg (by omega), if_neg (not_misaligned_of_consumed hL.cursorInv ha), hw]
    rfl
  · exact WriterExecutes.exec_exhausted ⟨rfl, hL, hmode, hwf hb, fun _ => he ▸ capacity_mod_eight s⟩ he

/-- Settles O47: the test of alignment, and then the operand is the sequence written. -/
theorem wrbytesWritesWhatFits : Obligations.WrbytesWritesWhatFits := by
  refine ⟨fun a n q => decode_word _ .wrbytes a n q (by decide) (by decide), fun bytes s hL hm hmode =>
    ⟨exec_writer_misaligned hL hmode rfl rfl rfl, fun ha => ?_⟩⟩
  have hx : WriterExecutes (.wrbytes bytes) s := ⟨rfl, hL, hmode, rfl, fun _ => ha⟩
  obtain ⟨m, hexec, -, hors⟩ := hx.exec_bytes_eq hm rfl
  exact ⟨m, hexec, hors⟩

/-- Settles O48: the two tests of WRBYTESV, and then the sequence written is the value's bytes, by `valueBytes_eq`. -/
theorem wrbytesvWritesTheLowBytes : Obligations.WrbytesvWritesTheLowBytes := by
  refine ⟨fun a n q => decode_word _ .wrbytesv a n q (by decide) (by decide), fun value n s hL hm hmode =>
    ⟨fun hn => exec_malformed (admits_writer hL.1 hmode) (decide_eq_true hn),
      fun hn => exec_writer_misaligned hL hmode rfl (decide_eq_false (by omega)) rfl, fun hn ha => ?_⟩⟩
  have hx : WriterExecutes (.wrbytesv value n) s := ⟨rfl, hL, hmode, decide_eq_false (by omega), fun _ => ha⟩
  obtain ⟨m, hexec, -, hors⟩ := hx.exec_bytes_eq hm rfl
  simp only [requestedBytes, valueBytes_length] at hexec
  simp only [requestedBytes, valueBytes_eq] at hors
  exact ⟨m, hexec, hors⟩

end Sys2Proof.Machine
end

section
/-! SUPPORT. What every writer command that answers without an error leaves (spec/42_writer.md R188, R189), and what a run
of them leaves for a reader (R190). -/

namespace Sys2Proof.Machine

variable {s t u : State} {i : Instr}

/-! ## Bits written at the cursor -/

/-- From `s` to `t` exactly `bits` were ORed into the stream at the cursor, which stands behind them in the same buffer. -/
structure Wrote (s : State) (bits : List Bool) (t : State) : Prop where
  moved : Moved s bits.length t
  buffer : t.bufferId = s.bufferId
  designated : t.designated = s.designated
  wf : t.mem.wf = true
  ors : OrsBits s.mem t.mem s.bufferId s.consumed bits

theorem Wrote.refl (h : s.Live) (hm : s.mem.wf = true) : Wrote s [] s := ⟨.refl h, rfl, rfl, hm, orsBits_nil _ _ _⟩

theorem Wrote.trans {bits bits' : List Bool} (h : Wrote s bits t) (h' : Wrote t bits' u) : Wrote s (bits ++ bits') u := by
  refine ⟨?_, h'.buffer.trans h.buffer, h'.designated.trans h.designated, h'.wf, orsBits_append h.ors ?_⟩
  · rw [List.length_append]
    exact h.moved.trans h'.moved
  · rw [← h.buffer, ← h.moved.consumed]
    exact h'.ors

theorem Wrote.respond {bits : List Bool} (h : Wrote s bits t) (st : Status) (v : Word) (q : List SeqElement) :
    Wrote s bits (t.respond st v q) := ⟨h.moved.respond st v q, h.buffer, h.designated, h.wf, h.ors⟩

theorem moveTo_setMem_wrote {m : Memory} {p : Nat} {bits : List Bool} (h : s.Live) (hwf : m.wf = true)
    (hors : OrsBits s.mem m s.bufferId s.consumed bits) (hp : p = s.consumed + bits.length)
    (hroom : bits.length ≤ s.remaining.toNat) : Wrote s bits ((s.moveTo p).setMem m) :=
  ⟨moveTo_moved h m hp hroom, rfl, rfl, hwf, hors⟩

/-! ## One writer command -/

/-- The bits that a writer command which executes writes: what it asks for, as far as bits remain (R188). -/
def bitsWritten (i : Instr) (s : State) : Nat := min (requestedBits i).length (s.capacity - s.consumed)

/-- The count that RVAL carries (R97): of bytes for a byte command, of bits for the others. -/
def writtenWord (i : Instr) (k : Nat) : Word := BitVec.ofNat 32 (if needsAlignment i then k / 8 else k)

/-- `exec_bits_eq` and `exec_bytes_eq` in one: a byte command writes whole bytes, since only whole bytes remain. -/
theorem WriterExecutes.exec_wrote (h : WriterExecutes i s) (hm : s.mem.wf = true) :
    (needsAlignment i = true → bitsWritten i s % 8 = 0) ∧
    ∃ u, exec i s = .next (u.respond .ok (writtenWord i (bitsWritten i s)) []) ∧
      Wrote s ((requestedBits i).take (bitsWritten i s)) u := by
  have hrem := remaining_toNat h.live.cursorInv
  have htake : (requestedBits i).take (bitsWritten i s) = (requestedBits i).take (s.capacity - s.consumed) := by
    unfold bitsWritten
    rw [List.take_eq_take_iff]
    omega
  rw [htake]
  unfold writtenWord bitsWritten
  cases hn : needsAlignment i with
  | false =>
    obtain ⟨m, hexec, hwf, hors⟩ := h.exec_bits_eq hm hn
    refine ⟨nofun, _, hexec, moveTo_setMem_wrote h.live hwf hors ?_ ?_⟩ <;> rw [List.length_take] <;> omega
  | true =>
    obtain ⟨m, hexec, hwf, hors⟩ := h.exec_bytes_eq hm hn
    have h8 : (s.capacity - s.consumed) % 8 = 0 := by
      have hc8 := capacity_mod_eight s
      have ha := h.aligned hn
      omega
    rw [requestedBits_eq_flatMap h.writer hn, flatMap_byteBits_length]
    rw [flatMap_byteBits_take, show 8 * ((s.capacity - s.consumed) / 8) = s.capacity - s.consumed by omega] at hors
    have hk : min (8 * (requestedBytes i).length) (s.capacity - s.consumed) / 8 =
        min (requestedBytes i).length ((s.capacity - s.consumed) / 8) := by omega
    simp only [if_true, hk]
    refine ⟨fun _ => by omega, _, hexec, moveTo_setMem_wrote h.live hwf hors ?_ ?_⟩ <;>
      rw [List.length_take, flatMap_byteBits_length] <;> omega

theorem firstError_isError {e : Status} (h : firstError i s = some e) : e.isError = true := by
  unfold firstError at h
  split_ifs at h <;> exact Option.some.inj h ▸ rfl

/-- A writer command that answers without an error has passed every test. -/
theorem WriterExecutes.of_answers {r : Response} (hL : s.Live) (hi : i.opcode.cls = .writer)
    (hans : Answers (exec i s) s t r) (hr : r.status.isError = false) : WriterExecutes i s := by
  obtain ⟨hexec, hresp⟩ := hans
  cases he : firstError i s with
  | some e =>
    rw [← Host.Outcome.next.inj ((exec_firstError he).symm.trans hexec)] at hresp
    rw [← List.singleton_inj.mp (List.append_cancel_left hresp)] at hr
    exact absurd (firstError_isError he) (Bool.eq_false_iff.mp hr)
  | none =>
    obtain ⟨hadm, hmal, hal, -⟩ := firstError_none he
    rw [hi] at hadm
    have hmode := (Bool.and_eq_true_iff.mp hadm).2
    exact ⟨hi, hL, eq_of_beq hmode, hmal, fun hn => (aligned_iff_consumed hL.cursorInv).mp (hal hn)⟩

/-- What a writer command that answers without an error has written and answered. -/
theorem answers_wrote {r : Response} (hL : s.Live) (hm : s.mem.wf = true) (hi : i.opcode.cls = .writer)
    (hans : Answers (exec i s) s t r) (hr : r.status.isError = false) :
    Wrote s ((requestedBits i).take (bitsWritten i s)) t ∧ r.rval = writtenWord i (bitsWritten i s) ∧
      (needsAlignment i = true → bitsWritten i s % 8 = 0) := by
  obtain ⟨h8, u, hexec, hw⟩ := (WriterExecutes.of_answers hL hi hans hr).exec_wrote hm
  obtain ⟨ht, hresp⟩ := hans
  rw [← Host.Outcome.next.inj (hexec.symm.trans ht)] at hresp ⊢
  obtain ⟨-, hlast⟩ := List.append_inj' hresp rfl
  exact ⟨hw.respond _ _ _, by rw [← List.singleton_inj.mp hlast], h8⟩

theorem length_take_bitsWritten (i : Instr) (s : State) :
    ((requestedBits i).take (bitsWritten i s)).length = bitsWritten i s :=
  List.length_take_of_le (Nat.min_le_left _ _)

/-- Settles O53: what is written is what is requested as far as bits remain. -/
theorem writersWriteALeadingPart : Obligations.WritersWriteALeadingPart := by
  intro i s t r hL hm hi hans hr
  obtain ⟨hw, hrval, h8⟩ := answers_wrote hL hm hi hans hr
  refine ⟨bitsWritten i s, Nat.min_le_left _ _, ?_, hw.ors, hrval, h8⟩
  rw [hw.moved.consumed, length_take_bitsWritten]

/-- Settles O52: a write is cut short only by the end of the buffer, and there no command finds room. -/
theorem aFullBufferTakesNothingMore : Obligations.AFullBufferTakesNothingMore := by
  refine ⟨fun i s t r hL hm hi hans hr hcut => ?_, fun i s hL hmode he hi =>
    ⟨exec_malformed (hi ▸ admits_writer hL.1 hmode), fun hmal => ?_⟩⟩
  · obtain ⟨⟨hmoved, -⟩, -⟩ := answers_wrote hL hm hi hans hr
    have hcons := hmoved.consumed
    have hle := consumed_le_capacity hL.cursorInv
    rw [length_take_bitsWritten] at hcons
    unfold bitsWritten at hcons
    have hfull : t.consumed = t.capacity := by
      rw [hmoved.capacity]
      omega
    exact ⟨hfull, by rw [remaining_eq hmoved.live.cursorInv, hfull, Int.sub_self]⟩
  · exact WriterExecutes.exec_exhausted ⟨hi, hL, hmode, hmal, fun _ => he ▸ capacity_mod_eight s⟩ he

/-! ## A run of writer commands, and its reader -/

theorem execAll_responses {l : List Instr} (h : execAll l s = .next t) : ∃ rs, t.responses = s.responses ++ rs := by
  induction l generalizing s with
  | nil => exact ⟨[], by rw [Host.Outcome.next.inj h, List.append_nil]⟩
  | cons i l ih =>
    obtain ⟨u, hu, hrest⟩ := execAll_cons h
    obtain ⟨v, st, w, q, hr, rfl⟩ := exec_reached hu
    obtain ⟨rs, hrs⟩ := ih hrest
    exact ⟨_, by rw [hrs, State.respond_responses, hr.responses, List.append_assoc]⟩

/-- A run whose commands all answer OK and find room writes all that they ask for, in order. -/
theorem execAll_wrote {l : List Instr} (hL : s.Live) (hm : s.mem.wf = true) (hl : ∀ i ∈ l, i.opcode.cls = .writer)
    (hroom : s.consumed + (l.flatMap requestedBits).length ≤ s.capacity) (hrun : execAll l s = .next t)
    (hok : ∀ r ∈ t.responses.drop s.responses.length, r.status = .ok) : Wrote s (l.flatMap requestedBits) t := by
  induction l generalizing s with
  | nil => exact Host.Outcome.next.inj hrun ▸ .refl hL hm
  | cons i l ih =>
    obtain ⟨hi, hl⟩ := List.forall_mem_cons.mp hl
    obtain ⟨u, hu, hrest⟩ := execAll_cons hrun
    obtain ⟨u', r, hans⟩ := everyCommandAnswersOnce i s
    obtain rfl := Host.Outcome.next.inj (hans.1.symm.trans hu)
    obtain ⟨rs, hrs⟩ := execAll_responses hrest
    rw [hrs, hans.2, List.append_assoc, List.drop_left, List.singleton_append, List.forall_mem_cons] at hok
    rw [List.flatMap_cons, List.length_append] at hroom
    obtain ⟨hw, -⟩ := answers_wrote hL hm hi hans (by rw [hok.1]; rfl)
    rw [List.take_of_length_le (by unfold bitsWritten; omega)] at hw
    refine hw.trans (ih hw.moved.live hw.wf hl ?_ hrest ?_)
    · rw [hw.moved.consumed, hw.moved.capacity]
      omega
    · rw [hrs, List.drop_left]
      exact hok.2

/-- Bits ORed into zeros are the bits there. -/
theorem OrsBits.streamBits_eq {m m' : Memory} {b : BufferId} {p : Nat} {bits : List Bool} (h : OrsBits m m' b p bits)
    (hz : ∀ q, q < b.bits → streamBit m b q = false) (hle : p + bits.length ≤ b.bits) :
    streamBits m' b p bits.length = bits := by
  unfold streamBits
  refine List.ext_getElem (by simp) fun k _ hk => ?_
  rw [List.getElem_map, List.getElem_range, h.1 b (p + k) (by omega), hz (p + k) (by omega), Nat.add_sub_cancel_left]
  simp [hk]

/-- RDBITSS of bits that all remain answers them without END (R143). -/
theorem exec_rdbitss_within {n : Nat} (h : s.Live) (hmode : s.mode = .reader) (hn : s.consumed + n ≤ s.capacity) :
    exec (.rdbitss n) s = .next ((s.moveTo (s.consumed + n)).respond .ok 0
      ((streamBits s.mem s.bufferId s.consumed n).map fun b => .two (if b then 0b01 else 0b00))) := by
  rw [exec_rdbitss (admits_reader h.1 hmode), if_neg (by omega), Int.toNat_natCast, readBitSeq_eq n h,
    Nat.min_eq_left hn, Nat.min_eq_left (by omega), Nat.sub_eq_zero_of_le (by omega), List.replicate_zero,
    List.append_nil, List.map_map]
  congr 3
  funext b
  cases b <;> rfl

theorem rebind_live (m : Mode) {w : Width} {len : Word} (hlen : len.toNat * w.bits ≤ Config.maxBits) :
    (s.rebind m w len).Live := ⟨rfl, rebind_cursorInv m hlen, hlen⟩

/-- A binding starts at position 0 of the stream (R114). -/
theorem rebind_consumed (m : Mode) (w : Width) (len : Word) : (s.rebind m w len).consumed = 0 := by
  simp [State.consumed]

/-- Settles O54: the run's bits lie in a zeroed stream from position 0 on, where the reader starts. -/
theorem writtenBitsAreReadBack : Obligations.WrittenBitsAreReadBack := by
  intro w len l s s1 s2 s3 hm hlen hz hbind hl hfits hrun hok hbind'
  obtain rfl := Host.Outcome.next.inj ((exec_bind_fits .writer hlen).symm.trans hbind)
  obtain rfl := Host.Outcome.next.inj ((exec_bind_fits .reader hlen).symm.trans hbind')
  have hroom (u : State) (m : Mode) :
      (u.rebind m w len).consumed + (l.flatMap requestedBits).length ≤ (u.rebind m w len).capacity := by
    rw [rebind_consumed, Nat.zero_add]
    exact hfits
  have hw := execAll_wrote (s := (s.rebind .writer w len).respond .ok 0 []) (rebind_live (s := s) .writer hlen) hm hl
    (hroom s .writer) hrun hok
  have hread := exec_rdbitss_within (s := (s2.rebind .reader w len).respond .ok 0 [])
    (rebind_live (s := s2) .reader hlen) rfl (hroom s2 .reader)
  have hbuf : (s2.rebind .reader w len).bufferId = ⟨s.designated, w, len⟩ :=
    congrArg (BufferId.mk · w len) hw.designated
  have hbits : streamBits s2.mem ⟨s.designated, w, len⟩ 0 (l.flatMap requestedBits).length =
      l.flatMap requestedBits := by
    have hors := hw.ors
    rw [State.respond_consumed, rebind_consumed] at hors
    exact hors.streamBits_eq hz (by rw [Nat.zero_add]; exact hfits)
  rw [State.respond_consumed, rebind_consumed, State.respond_bufferId, hbuf, Nat.zero_add, State.respond_mem,
    State.rebind_mem, hbits] at hread
  exact hread

end Sys2Proof.Machine
end

section
/-! SUPPORT. How a command ends (spec/60_exceptions.md R220 to R228): with the first error that applies, which leaves no
trace, or with what a command that executes answers, where END leaves none either; and which commands raise which
error. -/

namespace Sys2Proof.Machine

variable {s t : State} {i : Instr} {r : Response} {e : Status}

/-! ## The end of a command -/

/-- What a command that passes every test answers: OK, or at exhaustion the END of a single read (R225). -/
inductive Executes (i : Instr) (s : State) : State → Prop where
  | ok (u : State) (v : Word) (q : List SeqElement) : Executes i s (u.respond .ok v q)
  | endOfData (v : Word) (hi : i = .rdbit ∨ i = .rdbyte ∨ i = .next) (he : s.exhausted = true)
      (hv : v = if i = .next then s.iter else 0) : Executes i s (s.respond .endOfData v [])

theorem respondWritten_executes (s : State) (w : Option State) : Executes i s (respondWritten s w) := by
  cases w <;> exact .ok _ _ _

theorem readOneBit_none_exhausted (h : readOneBit s = none) : s.exhausted = true := by
  unfold readOneBit at h
  split at h
  · assumption
  · cases h

theorem readOneByte_none_exhausted (h : readOneByte s = none) : s.exhausted = true := by
  unfold readOneByte at h
  split at h
  · assumption
  · cases h

/-- A command to which no error applies executes (R227). -/
theorem exec_executes (h : firstError i s = none) : ∃ t, exec i s = .next t ∧ Executes i s t := by
  obtain ⟨hadm, hm, hal, hl⟩ := firstError_none h
  have ha (hn : needsAlignment i = true) : ¬ (!s.aligned) = true := by simp [hal hn]
  cases i with
  | bind mode wc len => exact ⟨_, exec_bind_fits mode (not_lt.mp (of_decide_eq_false hm)), .ok _ _ _⟩
  | qbpe => exact ⟨_, exec_qbpe hadm, .ok _ _ _⟩
  | qbitpe => exact ⟨_, exec_qbitpe hadm, .ok _ _ _⟩
  | qrem => exact ⟨_, exec_qrem hadm, .ok _ _ _⟩
  | qaln => exact ⟨_, exec_qaln hadm, .ok _ _ _⟩
  | qbidx => exact ⟨_, exec_qbidx hadm, .ok _ _ _⟩
  | collect bits => exact ⟨_, exec_collect hadm, .ok _ _ _⟩
  | rdbit =>
    refine ⟨_, exec_rdbit hadm, ?_⟩
    cases hr : readOneBit s with
    | none => exact .endOfData 0 (.inl rfl) (readOneBit_none_exhausted hr) rfl
    | some b => exact .ok _ _ _
  | rdbits n =>
    rw [exec_rdbits hadm, if_neg (of_decide_eq_false hm), if_neg (of_decide_eq_false hl)]
    exact ⟨_, rfl, .ok _ _ _⟩
  | rdbitss n =>
    rw [exec_rdbitss hadm, if_neg (of_decide_eq_false hm)]
    exact ⟨_, rfl, .ok _ _ _⟩
  | rdbyte =>
    rw [exec_rdbyte hadm, if_neg (ha rfl)]
    refine ⟨_, rfl, ?_⟩
    cases hr : readOneByte s with
    | none => exact .endOfData 0 (.inr (.inl rfl)) (readOneByte_none_exhausted hr) rfl
    | some b => exact .ok _ _ _
  | rdbytes n =>
    rw [exec_rdbytes hadm, if_neg (of_decide_eq_false hm), if_neg (ha rfl)]
    exact ⟨_, rfl, .ok _ _ _⟩
  | rdall => exact ⟨_, exec_rdall hadm, .ok _ _ _⟩
  | next =>
    refine ⟨_, exec_next hadm, ?_⟩
    cases hr : readOneBit s with
    | none => exact .endOfData s.iter (.inr (.inr rfl)) (readOneBit_none_exhausted hr) rfl
    | some b => exact .ok _ _ _
  | wrbit bit => exact ⟨_, exec_wrbit hadm, respondWritten_executes s _⟩
  | wrbits bits => exact ⟨_, exec_wrbits hadm, .ok _ _ _⟩
  | wrbitsv value n =>
    rw [exec_wrbitsv hadm, if_neg (of_decide_eq_false hm)]
    exact ⟨_, rfl, .ok _ _ _⟩
  | wrbyte b =>
    rw [exec_wrbyte hadm, if_neg (of_decide_eq_false hm), if_neg (ha rfl)]
    exact ⟨_, rfl, respondWritten_executes s _⟩
  | wrbytes bytes =>
    rw [exec_wrbytes hadm, if_neg (ha rfl)]
    exact ⟨_, rfl, .ok _ _ _⟩
  | wrbytesv value n =>
    rw [exec_wrbytesv hadm, if_neg (of_decide_eq_false hm), if_neg (ha rfl)]
    exact ⟨_, rfl, .ok _ _ _⟩

/-- The one response that an answer adds is the one it ends with. -/
theorem respond_last {u : State} {st : Status} {v : Word} {q : List SeqElement} {l : List Response}
    (h : (u.respond st v q).responses = l ++ [r]) : r = ⟨st, v, q⟩ := by
  obtain ⟨-, hlast⟩ := List.append_inj' h rfl
  exact (List.singleton_inj.mp hlast).symm

/-- An answer with the first error that applies is that error and leaves no trace (R228). -/
theorem answers_firstError (h : Answers (exec i s) s t r) (he : firstError i s = some e) :
    r.status = e ∧ t = s.respond e 0 [] := by
  obtain ⟨hexec, hresp⟩ := h
  obtain rfl := Host.Outcome.next.inj ((exec_firstError he).symm.trans hexec)
  exact ⟨by rw [respond_last hresp], rfl⟩

theorem answers_executes (h : Answers (exec i s) s t r) (he : firstError i s = none) : Executes i s t := by
  obtain ⟨u, hu, hx⟩ := exec_executes he
  exact Host.Outcome.next.inj (hu.symm.trans h.1) ▸ hx

theorem Executes.isError_eq_false (h : Executes i s t) (hresp : t.responses = s.responses ++ [r]) :
    r.status.isError = false := by
  cases h <;> rw [respond_last hresp] <;> rfl

/-- A command that answers an error answers the first that applies. -/
theorem answers_isError (h : Answers (exec i s) s t r) (hr : r.status.isError = true) :
    firstError i s = some r.status ∧ t = s.respond r.status 0 [] := by
  cases he : firstError i s with
  | none => exact absurd hr (Bool.eq_false_iff.mp ((answers_executes h he).isError_eq_false h.2))
  | some e =>
    obtain ⟨rfl, ht⟩ := answers_firstError h he
    exact ⟨rfl, ht⟩

/-- Settles O13: an error is the first that applies, and that is raised with the state as it was. -/
theorem errorLeavesNoTrace : Obligations.ErrorLeavesNoTrace :=
  fun _ _ _ _ hexec hresp hr => (answers_isError ⟨hexec, hresp⟩ hr).2

/-- Settles O14: END is no error, and of a command that executes it is the answer in one case. -/
theorem endChangesNothing : Obligations.EndChangesNothing := by
  intro i s t r hexec hresp hr
  have hans : Answers (exec i s) s t r := ⟨hexec, hresp⟩
  cases he : firstError i s with
  | some e =>
    have herr := firstError_isError he
    rw [← (answers_firstError hans he).1, hr] at herr
    cases herr
  | none =>
    cases answers_executes hans he with
    | ok u v q =>
      rw [respond_last hresp] at hr
      cases hr
    | endOfData v hi hx hv => exact ⟨hi, (exhausted_iff s).mp hx, by rw [hv]; rfl⟩

/-! ## Which error applies -/

theorem firstError_eq_invalidArgument_iff :
    firstError i s = some .invalidArgument ↔ s.admits i.opcode.cls = true ∧ malformed i = true := by
  unfold firstError
  simp only [ite_eq_iff, reduceCtorEq, Option.some.injEq, and_true, and_false, false_or, or_false, Bool.not_eq_false]

theorem firstError_eq_misalignedAccess_iff : firstError i s = some .misalignedAccess ↔
    s.admits i.opcode.cls = true ∧ malformed i = false ∧ needsAlignment i = true ∧ s.remaining % 8 ≠ 0 := by
  unfold firstError
  simp only [ite_eq_iff, reduceCtorEq, Option.some.injEq, and_true, and_false, false_or, or_false, Bool.not_eq_false,
    Bool.not_eq_true]

/-- RDBITS is no byte command. -/
theorem lacksData_needsAlignment (h : lacksData s i = true) : needsAlignment i = false := by
  cases i with
  | rdbits n => rfl
  | _ => cases h

theorem firstError_eq_insufficientData_iff : firstError i s = some .insufficientData ↔
    s.admits i.opcode.cls = true ∧ malformed i = false ∧ lacksData s i = true := by
  unfold firstError
  simp only [ite_eq_iff, reduceCtorEq, Option.some.injEq, and_true, and_false, false_or, or_false, Bool.not_eq_false,
    Bool.not_eq_true]
  have hn (hl : lacksData s i = true) : ¬ (needsAlignment i = true ∧ s.remaining % 8 ≠ 0) := by
    simp [lacksData_needsAlignment hl]
  rw [and_iff_right_of_imp hn]

/-- An error is answered exactly where it is the first that applies, and the state is then unchanged. -/
theorem reported_iff {P : Prop} (he : e.isError = true) (hP : firstError i s = some e ↔ P) :
    ((∃ t r, Answers (exec i s) s t r ∧ r.status = e) ↔ P) ∧
      ∀ t r, Answers (exec i s) s t r → r.status = e → t = s.respond e 0 [] := by
  have hreport {t r} (h : Answers (exec i s) s t r) (hr : r.status = e) :
      firstError i s = some e ∧ t = s.respond e 0 [] := by
    subst hr
    exact answers_isError h he
  refine ⟨Iff.trans ⟨fun ⟨t, r, h, hr⟩ => (hreport h hr).1, fun h => ?_⟩ hP, fun t r h hr => (hreport h hr).2⟩
  exact ⟨_, ⟨e, 0, []⟩, ⟨exec_firstError h, rfl⟩, rfl⟩

/-- The pair of errors that can meet: an operand wrong by itself, at an offset that is no byte boundary. -/
theorem malformed_needsAlignment (hm : malformed i = true) (hn : needsAlignment i = true) :
    i.opcode = .wrbyte ∨ i.opcode = .rdbytes ∨ i.opcode = .wrbytesv := by
  cases i with
  | wrbyte b => exact .inl rfl
  | rdbytes n => exact .inr (.inl rfl)
  | wrbytesv value n => exact .inr (.inr rfl)
  | rdbyte | wrbytes => cases hm
  | _ => cases hn

/-- No count below 0 exceeds what remains. -/
theorem lacksData_malformed (h : s.CursorInv) (hl : lacksData s i = true) : malformed i = false := by
  cases i with
  | rdbits n =>
    have h0 := remaining_nonneg h
    have hlt : s.remaining < n := of_decide_eq_true hl
    exact decide_eq_false (by omega)
  | _ => cases hl

/-- Settles O15: `exec_firstError` and `exec_executes`, and which tests can fail together. -/
theorem firstErrorThatAppliesIsReported : Obligations.FirstErrorThatAppliesIsReported := by
  intro i s
  refine ⟨fun e => exec_firstError, fun he => ?_, malformed_needsAlignment, lacksData_needsAlignment,
    fun h => ⟨lacksData_malformed h, fun hx => (aligned_eq_true_iff s).mp (exhausted_aligned h hx)⟩⟩
  obtain ⟨t, r, hans⟩ := everyCommandAnswersOnce i s
  exact ⟨t, r, hans, (answers_executes hans he).isError_eq_false hans.2⟩

/-- The byte commands whose operand is right (R221). -/
theorem not_malformed_needsAlignment_iff : malformed i = false ∧ needsAlignment i = true ↔
    (i = .rdbyte ∨ (∃ n, i = .rdbytes n ∧ 0 ≤ n) ∨ (∃ b, i = .wrbyte b ∧ b.toNat < 256) ∨
      (∃ l, i = .wrbytes l) ∨ (∃ v n, i = .wrbytesv v n ∧ 0 ≤ n)) := by
  constructor
  · rintro ⟨hm, hn⟩
    cases i with
    | rdbyte => exact .inl rfl
    | rdbytes n => exact .inr (.inl ⟨n, rfl, not_lt.mp (of_decide_eq_false hm)⟩)
    | wrbyte b => exact .inr (.inr (.inl ⟨b, rfl, not_le.mp (of_decide_eq_false hm)⟩))
    | wrbytes l => exact .inr (.inr (.inr (.inl ⟨l, rfl⟩)))
    | wrbytesv v n => exact .inr (.inr (.inr (.inr ⟨v, n, rfl, not_lt.mp (of_decide_eq_false hm)⟩)))
    | _ => cases hn
  · rintro (rfl | ⟨n, rfl, hn⟩ | ⟨b, rfl, hb⟩ | ⟨l, rfl⟩ | ⟨v, n, rfl, hn⟩)
    · exact ⟨rfl, rfl⟩
    · exact ⟨decide_eq_false (not_lt.mpr hn), rfl⟩
    · exact ⟨decide_eq_false (not_le.mpr hb), rfl⟩
    · exact ⟨rfl, rfl⟩
    · exact ⟨decide_eq_false (not_lt.mpr hn), rfl⟩

/-- Settles O16: the alignment test comes after the operand's own, and before any access. -/
theorem misalignedAccessIsForFiveByteCommands : Obligations.MisalignedAccessIsForFiveByteCommands := by
  intro i s
  refine reported_iff rfl ?_
  rw [firstError_eq_misalignedAccess_iff, ← and_assoc (a := malformed i = false), not_malformed_needsAlignment_iff,
    and_comm (b := s.remaining % 8 ≠ 0)]

/-- The operands that are wrong by themselves (R223). -/
theorem malformed_iff : malformed i = true ↔
    ((∃ n : Int, n < 0 ∧ (i = .rdbits n ∨ i = .rdbitss n ∨ i = .rdbytes n ∨
        (∃ v, i = .wrbitsv v n) ∨ (∃ v, i = .wrbytesv v n))) ∨
      (∃ b, i = .wrbyte b ∧ 256 ≤ b.toNat) ∨
      (∃ m w l, i = .bind m w l ∧ 2 ^ 32 - 1 < l.toNat * w.bits)) := by
  constructor
  · intro hm
    cases i with
    | rdbits n => exact .inl ⟨n, of_decide_eq_true hm, .inl rfl⟩
    | rdbitss n => exact .inl ⟨n, of_decide_eq_true hm, .inr (.inl rfl)⟩
    | rdbytes n => exact .inl ⟨n, of_decide_eq_true hm, .inr (.inr (.inl rfl))⟩
    | wrbitsv v n => exact .inl ⟨n, of_decide_eq_true hm, .inr (.inr (.inr (.inl ⟨v, rfl⟩)))⟩
    | wrbytesv v n => exact .inl ⟨n, of_decide_eq_true hm, .inr (.inr (.inr (.inr ⟨v, rfl⟩)))⟩
    | wrbyte b => exact .inr (.inl ⟨b, rfl, of_decide_eq_true hm⟩)
    | bind m w l => exact .inr (.inr ⟨m, w, l, rfl, of_decide_eq_true hm⟩)
    | _ => cases hm
  · rintro (⟨n, h, rfl | rfl | rfl | ⟨v, rfl⟩ | ⟨v, rfl⟩⟩ | ⟨b, rfl, h⟩ | ⟨m, w, l, rfl, h⟩) <;>
      exact decide_eq_true h

/-- Settles O17: of an admitted command its operand is tested first. -/
theorem invalidArgumentHasThreeCases : Obligations.InvalidArgumentHasThreeCases := by
  intro i s
  refine reported_iff rfl ?_
  rw [firstError_eq_invalidArgument_iff, malformed_iff]

/-- RDBITS of a count that is right and does not remain (R224). -/
theorem not_malformed_lacksData_iff : malformed i = false ∧ lacksData s i = true ↔
    ∃ n, i = .rdbits n ∧ 0 ≤ n ∧ s.remaining < n := by
  constructor
  · rintro ⟨hm, hl⟩
    cases i with
    | rdbits n => exact ⟨n, rfl, not_lt.mp (of_decide_eq_false hm), of_decide_eq_true hl⟩
    | _ => cases hl
  · rintro ⟨n, rfl, h0, hn⟩
    exact ⟨decide_eq_false (not_lt.mpr h0), decide_eq_true hn⟩

/-- Settles O18: RDBITS alone is tested for it, after its count's sign. -/
theorem insufficientDataIsForRdbitsOnly : Obligations.InsufficientDataIsForRdbitsOnly := by
  intro i s
  refine reported_iff rfl ?_
  rw [firstError_eq_insufficientData_iff, not_malformed_lacksData_iff]

end Sys2Proof.Machine
end

section
/-! SUPPORT. ILLEGAL_COMMAND (spec/60_exceptions.md R222, spec/30_encoding.md R91): the tests of R90 on the number that the
command word stands for, first those of the word alone and then those of BOUND and MODE. -/

namespace Sys2Proof.Machine

variable {s : State} {x : Transaction} {i : Instr}

/-- The opcodes of each class (R89). -/
theorem cls_eq_bind_iff_code (op : Opcode) : op.cls = .bind ↔ op.code.toNat = 0x01 := by cases op <;> decide

theorem cls_eq_reader_iff_code (op : Opcode) : op.cls = .reader ↔ 0x10 ≤ op.code.toNat ∧ op.code.toNat ≤ 0x17 := by
  cases op <;> decide

theorem cls_eq_writer_iff_code (op : Opcode) : op.cls = .writer ↔ 0x20 ≤ op.code.toNat ∧ op.code.toNat ≤ 0x25 := by
  cases op <;> decide

/-- What the tests of BOUND and MODE refuse (R90). -/
theorem admits_eq_false_iff (s : State) (c : CommandClass) : s.admits c = false ↔
    (c ≠ .bind ∧ s.bound = false) ∨ (c = .reader ∧ s.mode = .writer) ∨ (c = .writer ∧ s.mode = .reader) := by
  cases c with
  | bind | query => simp [State.admits]
  | reader | writer => cases hm : s.mode <;> simp [State.admits, hm]

/-- The three cases of R222 that the word alone decides, on the number it stands for. -/
def UndecodableWord (c : Nat) : Prop :=
  (c / 2 ^ 24 = 0 ∨ (0x07 ≤ c / 2 ^ 24 ∧ c / 2 ^ 24 ≤ 0x0F) ∨ (0x18 ≤ c / 2 ^ 24 ∧ c / 2 ^ 24 ≤ 0x1F) ∨
    0x26 ≤ c / 2 ^ 24) ∨
  ((c / 2 ^ 24 = 0x01 ∧ c / 8 % 2 ^ 21 ≠ 0) ∨ (c / 2 ^ 24 = 0x20 ∧ c / 2 % 2 ^ 23 ≠ 0) ∨
    (c / 2 ^ 24 ≠ 0x01 ∧ c / 2 ^ 24 ≠ 0x20 ∧ c % 2 ^ 24 ≠ 0)) ∨
  (c / 2 ^ 24 = 0x01 ∧ c % 4 = 3)

theorem undecodableWord_iff (x : Transaction) : UndecodableWord x.cmd.toNat ↔ ¬ ∃ i, decode x = .ok i := by
  rw [decodeAcceptsExactlyTheOpcodeMap x]
  unfold UndecodableWord
  omega

/-- The other cases of R222: what the state refuses of a word that decodes. -/
theorem illegalWord_iff (s : State) (x : Transaction) : IllegalWord s x.cmd.toNat ↔
    UndecodableWord x.cmd.toNat ∨ (x.cmd.toNat / 2 ^ 24 ≠ 0x01 ∧ s.bound = false) ∨
      (0x10 ≤ x.cmd.toNat / 2 ^ 24 ∧ x.cmd.toNat / 2 ^ 24 ≤ 0x17 ∧ s.mode = .writer) ∨
      (0x20 ≤ x.cmd.toNat / 2 ^ 24 ∧ x.cmd.toNat / 2 ^ 24 ≤ 0x25 ∧ s.mode = .reader) := by
  unfold UndecodableWord
  simp only [IllegalWord, or_assoc]

/-- Of a word that decodes, BOUND and MODE decide. -/
theorem illegalWord_iff_of_decode (s : State) (h : decode x = .ok i) :
    IllegalWord s x.cmd.toNat ↔ s.admits i.opcode.cls = false := by
  have hok : ¬ UndecodableWord x.cmd.toNat := fun hu => (undecodableWord_iff x).mp hu ⟨i, h⟩
  rw [illegalWord_iff, or_iff_right hok]
  simp only [admits_eq_false_iff, ne_eq, cls_eq_bind_iff_code, cls_eq_reader_iff_code, cls_eq_writer_iff_code,
    opcode_code_toNat h, and_assoc]

/-- The step that takes a word that spells no command (R91). -/
theorem step_undecodable {rest : List HostAction} (hp : s.pending = .command x :: rest)
    (h : ¬ ∃ i, decode x = .ok i) : step s = .next ((s.setPending rest).raise .illegalCommand) := by
  unfold step
  rw [hp]
  cases hd : decode x with
  | ok i => exact absurd ⟨i, hd⟩ h
  | error e =>
    simp only [hd]
    exact illegalWord_eq e _

/-- Settles O7: a word that spells no command is illegal and raises it, and of one that does, `exec` tests the rest. -/
theorem illegalCommandHasFiveCases : Obligations.IllegalCommandHasFiveCases := by
  intro s x rest hp
  by_cases hd : ∃ i, decode x = .ok i
  · obtain ⟨i, hi⟩ := hd
    rw [illegalWord_iff_of_decode s hi, step_command hp hi, Bool.not_eq_false]
    refine ⟨exec_refused (s := s.setPending rest), fun hadm => ?_⟩
    obtain ⟨u, r, hans, hr⟩ := admitted_answers (s := s.setPending rest) hadm
    exact ⟨i, u, r, hi, hans, hr⟩
  · exact ⟨fun _ => step_undecodable hp hd, fun hlegal =>
      absurd ((illegalWord_iff s x).mpr (.inl ((undecodableWord_iff x).mpr hd))) hlegal⟩

end Sys2Proof.Machine
end

section
/-! SUPPORT. What the host does between commands (spec/70_reset_and_hazards.md): power-on reset (R250) and the write of one
cell (R258). -/

namespace Sys2Proof.Machine

variable {s : State} {b : BufferId} {i : Nat} {v : Word} {rest : List HostAction}

/-! ## Power-on reset -/

/-- The step that takes a power-on reset (R250). -/
theorem step_reset (hp : s.pending = .reset :: rest) : step s = .next (s.setPending rest).powerOn := by
  unfold step
  rw [hp]

/-- Settles O8: power-on reset writes the block's registers alone, BOUND among them. -/
theorem powerOnResetUnbinds : Obligations.PowerOnResetUnbinds :=
  fun _ _ hp => ⟨_, step_reset hp, rfl, rfl, rfl, rfl, rfl⟩

/-! ## A host write -/

theorem hostWriteCell_outside (s : State) (v : Word) (hi : b.len.toNat ≤ i) :
    hostWriteCell b i v s = .fault .noSuchCell :=
  if_pos hi

theorem hostWriteCell_wide (s : State) (hi : i < b.len.toNat) (hv : 2 ^ b.wc.bits ≤ v.toNat) :
    hostWriteCell b i v s = .refused .notACellValue :=
  (if_neg (not_le.mpr hi)).trans (if_pos hv)

theorem hostWriteCell_fits (s : State) (hi : i < b.len.toNat) (hv : v.toNat < 2 ^ b.wc.bits) :
    hostWriteCell b i v s = .next (s.setMem (writeCell s.mem b i v)) :=
  (if_neg (not_le.mpr hi)).trans (if_neg (not_le.mpr hv))

/-- Byte `k` of cell `j` is byte `j * B + k` of the buffer's stream (R55, R56). -/
theorem BufferId.cellAddr_add (c : BufferId) (j k : Nat) : c.cellAddr j + k = c.byteAddr (c.wc.bytes * j + k) := by
  rw [Nat.mul_comm]
  exact Nat.add_assoc _ _ _

/-- A write of one cell leaves every other cell of every buffer (R258): none of their bytes is a byte of the cell. -/
theorem readCell_writeCell_other (m : Memory) (v : Word) (hi : i < b.len.toNat) {c : BufferId} {j : Nat}
    (hj : j < c.len.toNat) (hne : c ≠ b ∨ j ≠ i) : readCell (writeCell m b i v) c j = readCell m c j := by
  refine readCell_congr fun k hk => ?_
  rw [BufferId.cellAddr_add]
  refine writeCell_read_byteAddr m b c i v hi (Nat.mul_add_lt_mul_of_lt_of_lt hj hk) ?_
  rintro ⟨rfl, hcell⟩
  rw [Nat.mul_add_div (bytes_pos c.wc), Nat.div_eq_of_lt hk, Nat.add_zero] at hcell
  exact hne.elim (absurd rfl) (absurd hcell)

/-- Settles O9: the write is tested for the cell and then for the value, and what it stores reads back in that cell and
in no other. -/
theorem hostWriteSetsOneCell : Obligations.HostWriteSetsOneCell := by
  refine ⟨fun s b i v rest hm hp hi hv => ?_, fun s b i v rest hp => ?_⟩
  · exact ⟨writeCell s.mem b i v, (step_hostWrite hp).trans (hostWriteCell_fits _ hi hv), wf_writeCell hm b i v,
      readCell_writeCell_same hm b i hv, fun _ _ => readCell_writeCell_other s.mem v hi⟩
  · rw [step_hostWrite hp]
    exact ⟨hostWriteCell_outside _ v, hostWriteCell_wide _⟩

end Sys2Proof.Machine
end
